-- ==== Sys2Proof/Word.lean ====
section
/-!
DEFINITION. The plain data the rest of the model is written over: bytes, packets, bits, logic levels and
halves of the wire. Nothing in this file computes; what the bytes and halves mean stands in Machine/Operands.lean
(checksum, bit order) and Decode.lean (wire format and step words).
-/

namespace Sys2Proof

/-- A byte (00_scope.md R7): bit 7 is the most significant bit. -/
abbrev Byte := BitVec 8

/-- The value of a packet register (10_state.md R11, R12): its bytes `b[0] ..`, the length being the list's.
Bytes at an index at or past the length hold no value (R35): there is none in the list to read. -/
abbrev Packet := List Byte

/-- One bit of the wire (30_encoding.md R61): `true` is 1. -/
abbrev Bit := Bool

/-- The identifier of a logic pin, an analog pin or a timer peripheral (00_scope.md R6): a name the board chooses. -/
abbrev PinId := Nat

/-- A logic level (00_scope.md R7). -/
inductive Level where
  | low
  | high
  deriving DecidableEq, Repr

/-- A half of the wire format (30_encoding.md R60): the level of `sigA` and the duration the timer is armed with,
a rational number of microseconds. -/
structure Half where
  level    : Level
  duration : Rat
  deriving DecidableEq, Repr

/-- The two tracks (00_scope.md R1, R6; 20_memory.md R49): `main` is index 0, `prog` is index 1. -/
inductive Track where
  | main
  | prog
  deriving DecidableEq, Repr

end Sys2Proof
end

