-- ==== Sys2Proof/Config.lean ====
section
/-!
DEFINITION. The parameters of the block (00_scope.md R6) and the per-track HardwareConfig (10_state.md R25),
as plain data. The spec makes them arguments of the model; the state carries them unchanged (notes/assumptions/1.md),
so a statement about every state is a statement about every configuration. Which configurations are legal (R182)
is checked in Machine/Boot.lean. The model has no free value (an unknown the machine would have to choose):
the environment's answers `now` and `raw` are operands of CHECK (42_supervisor.md R124, R125).
-/

namespace Sys2Proof

/-- The wire order of the eight bits of a byte (30_encoding.md R62). -/
inductive BitOrder where
  | msbFirst
  | lsbFirst
  deriving DecidableEq, Repr

/-- The control scheme (10_state.md R27): which pins the track unit has. -/
inductive Scheme where
  | singleEnded
  | dualInverted
  | brakeEnable
  deriving DecidableEq, Repr

/-- `MIN_PACKET_BYTES` (00_scope.md R6): 2, from the source. -/
abbrev minPacketBytes : Nat := 2

/-- The parameters both tracks share (00_scope.md R6): BitTiming (10_state.md R26), the bit order, the packet bound,
the largest repeat count of a one-shot and the converter's width. `TICK_UNIT` is only the name of a unit and has no
field. -/
structure BlockParams where
  halfOne        : Rat
  halfZero       : Rat
  bitOrder       : BitOrder
  maxPacketBytes : Nat
  maxRepeat      : Nat
  adcBits        : Nat
  deriving DecidableEq, Repr

/-- HardwareConfig of one track unit, `T.cfg` (10_state.md R25), `sigB` and `brake` given only in the scheme that has the
pin, and with it the supervisor's constants `ALPHA`, `SAMPLE_INTERVAL` and `RETRY_INTERVAL`, which 00_scope.md R6 lets be
made per-track; a board that shares them gives both units the same values (notes/assumptions/1.md). -/
structure TrackConfig where
  sigA           : PinId
  sigB           : Option PinId
  enable         : PinId
  brake          : Option PinId
  sense          : PinId
  scheme         : Scheme
  tripMA         : Rat
  scale          : Rat
  preamble       : Nat
  cap            : Nat
  timer          : PinId
  alpha          : Rat
  sampleInterval : Nat
  retryInterval  : Nat
  deriving DecidableEq, Repr

/-- The example parameters of 95_test_vectors.md, with the nominal half-periods and the default `MAX_REPEAT` of R6
(notes/assumptions/2.md: DESIGN CHOICE; the rule gives `ADC_BITS` no value). -/
def BlockParams.vectors : BlockParams where
  halfOne        := 58
  halfZero       := 100
  bitOrder       := .msbFirst
  maxPacketBytes := 6
  maxRepeat      := 15
  adcBits        := 10

/-- The example configuration of the main track in 95_test_vectors.md; its pin and timer numbers are the model's
(notes/assumptions/2.md: DESIGN CHOICE), and so is the use of the vectors' values, since R6 gives none. -/
def TrackConfig.vectorsMain : TrackConfig where
  sigA           := 0
  sigB           := none
  enable         := 1
  brake          := none
  sense          := 0
  scheme         := .singleEnded
  tripMA         := 2500
  scale          := 5
  preamble       := 10
  cap            := 4
  timer          := 0
  alpha          := ⟨1, 2, by decide, by decide⟩
  sampleInterval := 10
  retryInterval  := 100

/-- The same for the programming track, with its 20-bit preamble. -/
def TrackConfig.vectorsProg : TrackConfig where
  sigA           := 2
  sigB           := none
  enable         := 3
  brake          := none
  sense          := 1
  scheme         := .singleEnded
  tripMA         := 2500
  scale          := 5
  preamble       := 20
  cap            := 4
  timer          := 1
  alpha          := ⟨1, 2, by decide, by decide⟩
  sampleInterval := 10
  retryInterval  := 100

end Sys2Proof
end

