-- ==== Sys2Proof/Syntax.lean ====
section
/-!
DEFINITION. The operations of the block as syntax: one constructor for every row of spec/opcode_table.json.
Twelve operations (30_encoding.md R68), the four reserved operation numbers (R72) and the five wire-frame rows (R63).
-/

namespace Sys2Proof

/-- The `flags` of ENQ (30_encoding.md R69): bit 7 `P`, bits 6:4 reserved, bits 3:0 `R`. The repeat count is a natural, as
`MAX_REPEAT` is (00_scope.md R6); a count over 15 does not fit the 4 bits and has no step word, so an ENQ with one, which
a `MAX_REPEAT` above 15 allows, is issued as an operation (notes/assumptions/26.md: DESIGN CHOICE). -/
structure EnqFlags where
  periodic : Bool
  rsv      : BitVec 3
  repeats  : Nat
  deriving DecidableEq, Repr

/-- The operations. `rsv` is the head byte's field `head[3:1]` (R69): a word with `rsv` other than 0 is a step the spec
defines (R72), so it is syntax and not a decoding error. `low` is the whole low nibble of a reserved head byte, which
the spec ignores. A frame names the track whose wire it stands on, since the wire pattern itself carries no selector
(notes/assumptions/6.md). -/
inductive Instr where
  /-- TICK (R80): one half-transition of track `t`. -/
  | tick (t : Track) (rsv : BitVec 3)
  /-- CHECK (R120): one poll of the supervisor; `now` and `raw` are the environment's answers, naturals without a width
  (42_supervisor.md R124, R125). A step word of R69 has 4 bytes for `now` and 2 for `raw`, so an operation with a larger
  answer (a time from `2^32` up, a reading from 65536 up, which an `ADC_BITS` above 16 allows) has no step word; it is
  issued as an operation (notes/assumptions/25.md: DESIGN CHOICE). -/
  | check (t : Track) (rsv : BitVec 3) (now : Nat) (raw : Nat)
  /-- SERVICE (R107): move the next pending packet into the free slot. -/
  | service (t : Track) (rsv : BitVec 3)
  /-- ENQ (R100): submit a packet. -/
  | enq (t : Track) (rsv : BitVec 3) (flags : EnqFlags) (tag : Byte) (pkt : Packet)
  /-- CANCEL (R105): remove a periodic packet by tag. -/
  | cancel (t : Track) (rsv : BitVec 3) (tag : Byte)
  /-- PWRON (R130). -/
  | pwron (t : Track) (rsv : BitVec 3)
  /-- PWROFF (R131). -/
  | pwroff (t : Track) (rsv : BitVec 3)
  /-- BRKON (R132). -/
  | brkon (t : Track) (rsv : BitVec 3)
  /-- BRKOFF (R133). -/
  | brkoff (t : Track) (rsv : BitVec 3)
  /-- QPWR (R134): is the track powered. -/
  | qpwr (t : Track) (rsv : BitVec 3)
  /-- QTRIP (R135): is the track tripped. -/
  | qtrip (t : Track) (rsv : BitVec 3)
  /-- QCUR (R136): last sampled current. -/
  | qcur (t : Track) (rsv : BitVec 3)
  /-- RESERVED_C: head bytes C0 to CF (R72). -/
  | reservedC (low : BitVec 4)
  /-- RESERVED_D: head bytes D0 to DF (R72). -/
  | reservedD (low : BitVec 4)
  /-- RESERVED_E: head bytes E0 to EF (R72). -/
  | reservedE (low : BitVec 4)
  /-- RESERVED_F: head bytes F0 to FF (R72). -/
  | reservedF (low : BitVec 4)
  /-- FRAME2 (R63): the frame of a two-byte packet on the wire of track `t`. -/
  | frame2 (t : Track) (a b : Byte)
  /-- FRAME3 (R63). -/
  | frame3 (t : Track) (a b c : Byte)
  /-- FRAME4 (R63). -/
  | frame4 (t : Track) (a b c d : Byte)
  /-- FRAME5 (R63). -/
  | frame5 (t : Track) (a b c d e : Byte)
  /-- FRAME6 (R63). -/
  | frame6 (t : Track) (a b c d e f : Byte)
  deriving DecidableEq, Repr

end Sys2Proof
end

