-- ==== Sys2Proof/Machine/State.lean ====
section
/-!
DEFINITION. The state of the block (10_state.md) as plain data: the two track units of the registry (20_memory.md R49),
the clock the environment's `now()` has reached (R125), and the model's own schedule and result fields. Fault and
Refusal name every way a step can stop. `State.reset` is the state after reset and boot (10_state.md R34).
-/

namespace Sys2Proof.Machine

/-- The encoder's five sub-states (10_state.md R13). `ending` is the spec's `END`. -/
inductive Sub where
  | idle
  | preamble
  | data
  | checksum
  | ending
  deriving DecidableEq, Repr

/-- Which half of the current bit is on the wire (10_state.md R13). -/
inductive Phase where
  | first
  | second
  deriving DecidableEq, Repr

/-- The sequencer position and the packet in flight, `T.enc` (10_state.md R13). An empty `pkt` is `len = 0`: none. -/
structure Encoder where
  sub     : Sub
  half    : Phase
  pre     : Nat
  byteIdx : Nat
  bitPos  : Nat
  pkt     : Packet
  deriving DecidableEq, Repr

/-- One entry of the ring (10_state.md R18). `repeats` is the spec's field `repeat`. -/
structure Entry where
  pkt      : Packet
  periodic : Bool
  tag      : Byte
  repeats  : Nat
  deriving DecidableEq, Repr

/-- The supervisor, `T.sup` (10_state.md R19, R21). `trip` holds `tripped` and `lastTripTime` together: `some n` is
tripped with `lastTripTime = n`, `none` is not tripped, where the trip time holds no value (R35). -/
structure Supervisor where
  trip           : Option Nat
  reading        : Rat
  lastSampleTime : Nat
  powerReq       : Bool
  brakeReq       : Bool
  deriving DecidableEq, Repr

/-- `T.sup.tripped` (10_state.md R19). -/
def Supervisor.tripped (v : Supervisor) : Bool := v.trip.isSome

/-- The latched output levels, `T.pins` (10_state.md R23). A pin the scheme lacks is not state: `none`. -/
structure Pins where
  sigA   : Level
  sigB   : Option Level
  enable : Level
  brake  : Option Level
  deriving DecidableEq, Repr

/-- One track unit (10_state.md R10). `slot` holds `slot.ready` and `slot.pkt` together: `some p` is ready with packet
`p`, `none` is not ready, where the packet register holds no value (R35). `timerOn` is the enable of the compare
interrupt (60_exceptions.md R157) and `pending` the pending tick (R158). `wire` is the ghost trace (10_state.md R31). -/
structure TrackUnit where
  cfg     : TrackConfig
  enc     : Encoder
  slot    : Option Packet
  ring    : List Entry
  sup     : Supervisor
  pins    : Pins
  compare : Rat
  timerOn : Bool
  pending : Bool
  wire    : List Half
  deriving DecidableEq, Repr

/-- `T.slot.ready` (10_state.md R17). -/
def TrackUnit.ready (T : TrackUnit) : Bool := T.slot.isSome

/-- Why an operation is rejected (30_encoding.md R71). -/
inductive Reason where
  | tooShort
  | tooLong
  | badChecksum
  | queueFull
  | badOperand
  | unsupported
  | notFound
  deriving DecidableEq, Repr

/-- What a host operation returns (30_encoding.md R71): `success`, the answer of QPWR and QTRIP, the milliamps of QCUR,
or a rejection. -/
inductive Result where
  | success
  | answer (yes : Bool)
  | current (milliamps : Rat)
  | rejected (r : Reason)
  deriving DecidableEq, Repr

/-- The state of the block. `main` and `prog` are the registry's entries 0 and 1 (20_memory.md R49). `params` is fixed
(00_scope.md R6). `clock` is the latest value `now()` returned, the boot value before any (42_supervisor.md R125).
`schedule` is what is left of the program in step words, `issued` the operations the agents perform next that are given
as operations and not as words (notes/assumptions/25.md), and `result` what the latest operation returned, `none` for an
operation that returns nothing: the three are the model's own fields (notes/assumptions/3.md). -/
structure State where
  params   : BlockParams
  main     : TrackUnit
  prog     : TrackUnit
  clock    : Nat
  schedule : List Byte
  issued   : List Instr
  result   : Option Result
  deriving DecidableEq, Repr

/-- Faults. No operation of the block faults on a state that meets the invariants of 10_state.md R14
(60_exceptions.md R165). -/
inductive Fault where
  /-- Raised by TICK, and by a FRAME row that runs TICKs, in a state that breaks R14: the position names a bit or byte
  the packet does not have, which holds no value (10_state.md R35). Safe: no run from reset comes to such a state, and
  the machine stops where the spec gives no value. -/
  | noValue
  deriving DecidableEq, Repr

/-- Refusals: schedules and configurations the spec says are no schedule or configuration of the block
(93_implementation_defined.md U5 to U8, 30_encoding.md R72), and the end of a schedule. -/
inductive Refusal where
  /-- An instruction that has no meaning yet, by its mnemonic. Raised by no arm of this model. Safe. -/
  | notModelled (mnemonic : String)
  /-- Raised by `step` and by boot: the configuration breaks a constraint of 70_reset_and_hazards.md R182 (U7). Safe. -/
  | badConfiguration
  /-- Raised by `step`: there is no further operation, issued or in the schedule, and no tick is pending (R201). Safe. -/
  | scheduleEnded
  /-- Raised by `step`: the stream ends inside an operation (30_encoding.md R72, U14). Safe. -/
  | truncated
  /-- Raised by `step` (at decoding) and by CHECK: `raw` is not below `2^ADC_BITS` (R72, U5). Safe. -/
  | analogOutOfRange
  /-- Raised by CHECK: `now` is below a value `now()` returned before (42_supervisor.md R125, U5). Safe. -/
  | clockWentBack
  /-- Raised by TICK, by a FRAME row and by a compare match: the timer interrupt of the track is not enabled, so there
  is no interrupt to serve (60_exceptions.md R157, U6). No state after boot is like this. Safe. -/
  | timerOff
  /-- Raised by a compare match that finds the tick of the match before still unserved (60_exceptions.md R158, U8).
  Safe. -/
  | matchUnserved
  /-- Raised by a FRAME row: the encoder of that track does not send this frame next, because the position is not at
  the end of an idle bit or a packet-end bit, or the slot does not hold this packet, or the packet is one that may not
  be sent (30_encoding.md R67, R72; 40_encoder.md R82, R86, R88). Safe. -/
  | frameNotNext
  deriving DecidableEq, Repr

/-- A track unit after reset and boot with configuration `cfg`, at boot time `t0` (10_state.md R34). -/
def TrackUnit.reset (p : BlockParams) (cfg : TrackConfig) (t0 : Nat) : TrackUnit where
  cfg     := cfg
  enc     := { sub := .idle, half := .second, pre := 0, byteIdx := 0, bitPos := 0, pkt := [] }
  slot    := none
  ring    := []
  sup     := { trip := none, reading := 0, lastSampleTime := t0, powerReq := false, brakeReq := false }
  pins    := { sigA := .low
               sigB := match cfg.scheme with
                 | .dualInverted => some .high
                 | .singleEnded => none
                 | .brakeEnable => none
               enable := .low
               brake := match cfg.scheme with
                 | .brakeEnable => some .low
                 | .singleEnded => none
                 | .dualInverted => none }
  compare := p.halfOne
  timerOn := true
  pending := false
  wire    := []

/-- The block after reset and boot for any construction inputs and boot time (10_state.md R34), with no schedule. -/
def State.resetWith (p : BlockParams) (cfgMain cfgProg : TrackConfig) (t0 : Nat) : State where
  params   := p
  main     := TrackUnit.reset p cfgMain t0
  prog     := TrackUnit.reset p cfgProg t0
  clock    := t0
  schedule := []
  issued   := []
  result   := none

/-- The machine right after reset, with the example parameters (notes/assumptions/2.md) and boot time 0. -/
def State.reset : State :=
  State.resetWith .vectors .vectorsMain .vectorsProg 0

end Sys2Proof.Machine
end

