-- ==== Sys2Proof/Machine/Operands.lean ====
section
/-!
DEFINITION. Operand forms: the checksum and validity of a packet (30_encoding.md R64), the order of the bits of a byte
(R62), the half-period of a bit (10_state.md R26), the operand check of ENQ and the entry it makes (41_queue.md R100,
R101), the result bytes (30_encoding.md R71), and which track and context an operation belongs to.
-/

namespace Sys2Proof.Machine

/-- The exclusive-or of a list of bytes, 0 for the empty list (30_encoding.md R64). -/
def checksum : List Byte → Byte
  | [] => 0
  | b :: bs => b ^^^ checksum bs

/-- `valid(p)` (30_encoding.md R64), with `MAX_PACKET_BYTES = maxLen`. -/
def valid (maxLen : Nat) (p : Packet) : Bool :=
  decide (minPacketBytes ≤ p.length) && decide (p.length ≤ maxLen)
    && decide (p.getLast? = some (checksum p.dropLast))

/-- The bit of `b` at wire position `k` (1 to 8) of its 9-bit group (30_encoding.md R62). -/
def wireBit (o : BitOrder) (b : Byte) (k : Nat) : Bit :=
  match o with
  | .msbFirst => b.getLsbD (8 - k)
  | .lsbFirst => b.getLsbD (k - 1)

/-- The eight bits of a byte in wire order (30_encoding.md R62, R63: `byteBits`). -/
def byteBits (o : BitOrder) (b : Byte) : List Bit :=
  [wireBit o b 1, wireBit o b 2, wireBit o b 3, wireBit o b 4,
   wireBit o b 5, wireBit o b 6, wireBit o b 7, wireBit o b 8]

/-- `halfPeriod(bit)` (10_state.md R26). -/
def halfPeriod (p : BlockParams) (bit : Bit) : Rat :=
  if bit then p.halfOne else p.halfZero

/-- The checks of ENQ in their order (41_queue.md R101): the first that fails gives the reason. A repeat count over
`MAX_REPEAT`, outside the operand's range of R100, is rejected with the other bad counts; R101 does not test it
(notes/assumptions/26.md: DESIGN CHOICE). -/
def checkEnq (q : BlockParams) (rsv : BitVec 3) (f : EnqFlags) (p : Packet) : Option Reason :=
  if rsv ≠ 0 ∨ f.rsv ≠ 0 then some .badOperand
  else if (f.periodic = false ∧ f.repeats = 0) ∨ (f.periodic = true ∧ f.repeats ≠ 0) then some .badOperand
  else if f.periodic = false ∧ q.maxRepeat < f.repeats then some .badOperand
  else if p.length < minPacketBytes then some .tooShort
  else if q.maxPacketBytes < p.length then some .tooLong
  else if p.getLast? ≠ some (checksum p.dropLast) then some .badChecksum
  else none

/-- The ring entry of an accepted ENQ (41_queue.md R100). -/
def entryOf (f : EnqFlags) (tag : Byte) (p : Packet) : Entry where
  pkt      := p
  periodic := f.periodic
  tag      := if f.periodic then tag else 0
  repeats  := if f.periodic then 0 else f.repeats

/-- The code of a rejection reason (30_encoding.md R71). -/
def Reason.code : Reason → Byte
  | .tooShort => 0x10
  | .tooLong => 0x11
  | .badChecksum => 0x12
  | .queueFull => 0x13
  | .badOperand => 0x14
  | .unsupported => 0x15
  | .notFound => 0x16

/-- The status byte of a result (30_encoding.md R71). -/
def Result.status : Result → Byte
  | .success => 0x00
  | .answer yes => if yes then 0x01 else 0x00
  | .current _ => 0x00
  | .rejected r => r.code

/-- The track an operation names; a reserved operation number names none (30_encoding.md R72). -/
def instrTrack : Instr → Option Track
  | .tick t _ => some t
  | .check t _ _ _ => some t
  | .service t _ => some t
  | .enq t _ _ _ _ => some t
  | .cancel t _ _ => some t
  | .pwron t _ => some t
  | .pwroff t _ => some t
  | .brkon t _ => some t
  | .brkoff t _ => some t
  | .qpwr t _ => some t
  | .qtrip t _ => some t
  | .qcur t _ => some t
  | .reservedC _ => none
  | .reservedD _ => none
  | .reservedE _ => none
  | .reservedF _ => none
  | .frame2 t _ _ => some t
  | .frame3 t _ _ _ => some t
  | .frame4 t _ _ _ _ => some t
  | .frame5 t _ _ _ _ _ => some t
  | .frame6 t _ _ _ _ _ _ => some t

/-- The two execution contexts (60_exceptions.md R169). -/
inductive Context where
  | interrupt
  | nonInterrupt
  deriving DecidableEq, Repr

/-- The context an operation runs in (30_encoding.md R68). A frame is a run of TICKs. -/
def instrContext : Instr → Context
  | .tick _ _ => .interrupt
  | .check _ _ _ _ => .nonInterrupt
  | .service _ _ => .nonInterrupt
  | .enq _ _ _ _ _ => .nonInterrupt
  | .cancel _ _ _ => .nonInterrupt
  | .pwron _ _ => .nonInterrupt
  | .pwroff _ _ => .nonInterrupt
  | .brkon _ _ => .nonInterrupt
  | .brkoff _ _ => .nonInterrupt
  | .qpwr _ _ => .nonInterrupt
  | .qtrip _ _ => .nonInterrupt
  | .qcur _ _ => .nonInterrupt
  | .reservedC _ => .nonInterrupt
  | .reservedD _ => .nonInterrupt
  | .reservedE _ => .nonInterrupt
  | .reservedF _ => .nonInterrupt
  | .frame2 _ _ _ => .interrupt
  | .frame3 _ _ _ _ => .interrupt
  | .frame4 _ _ _ _ _ => .interrupt
  | .frame5 _ _ _ _ _ _ => .interrupt
  | .frame6 _ _ _ _ _ _ _ => .interrupt

end Sys2Proof.Machine
end

