-- ==== Sys2Proof/WellFormed.lean ====
section
/-!
DEFINITION. Which instructions have an encoding: a CHECK whose answers fit their operand bytes and whose `raw` the
converter can answer, an ENQ whose packet length fits its length byte and whose repeat count fits its four bits, a frame
whose packet may be sent (30_encoding.md R69, R72, R63, R64). Everything else the syntax admits is well formed; a word with reserved bits set is, since R72 gives it a step.
-/

namespace Sys2Proof

open Sys2Proof.Machine

/-- The answers of a CHECK word: `now` fits 4 bytes and `raw` fits 2 (30_encoding.md R69), and `raw` keeps the
environment's law (42_supervisor.md R124). A word with reserved head bits asks nothing of the converter (30_encoding.md
R72; notes/assumptions/7.md). -/
def wellFormedAnswers (p : BlockParams) (rsv : BitVec 3) (now raw : Nat) : Bool :=
  decide (now < 2 ^ 32) && decide (raw < 2 ^ 16) && (decide (rsv ≠ 0) || decide (raw < 2 ^ p.adcBits))

/-- Well-formedness of an instruction under the parameters of the block. -/
def wellFormed (p : BlockParams) : Instr → Bool
  | .tick _ _ => true
  | .check _ rsv now raw => wellFormedAnswers p rsv now raw
  | .service _ _ => true
  | .enq _ _ f _ pkt => decide (f.repeats ≤ 15) && decide (pkt.length ≤ 255)
  | .cancel _ _ _ => true
  | .pwron _ _ => true
  | .pwroff _ _ => true
  | .brkon _ _ => true
  | .brkoff _ _ => true
  | .qpwr _ _ => true
  | .qtrip _ _ => true
  | .qcur _ _ => true
  | .reservedC _ => true
  | .reservedD _ => true
  | .reservedE _ => true
  | .reservedF _ => true
  | .frame2 _ a b => valid p.maxPacketBytes [a, b]
  | .frame3 _ a b c => valid p.maxPacketBytes [a, b, c]
  | .frame4 _ a b c d => valid p.maxPacketBytes [a, b, c, d]
  | .frame5 _ a b c d e => valid p.maxPacketBytes [a, b, c, d, e]
  | .frame6 _ a b c d e f => valid p.maxPacketBytes [a, b, c, d, e, f]

end Sys2Proof
end

