-- ==== Sys2Proof/Decode.lean ====
section
/-!
DEFINITION. The two encodings of the block (30_encoding.md). First the step words of operations (R69, R70, R72, R75):
the opcode table's rows, the decoder, total on any bytes and refusing by name, then the encoder. Then the wire format
(R60 to R67): frames, their halves, the decoder of one frame pattern, and the receiver's decoder of a whole trace (R66).
-/

namespace Sys2Proof

open Sys2Proof.Machine

/-! ### Step words -/

/-- One STEP row of spec/opcode_table.json: a head byte `h` matches when `h &&& mask = pattern` (30_encoding.md R75). -/
structure StepRow where
  mnemonic : String
  mask     : Byte
  pattern  : Byte
  deriving DecidableEq, Repr

/-- The sixteen STEP rows of spec/opcode_table.json. -/
def stepRows : List StepRow :=
  [⟨"TICK", 0xFE, 0x00⟩, ⟨"CHECK", 0xFE, 0x10⟩, ⟨"SERVICE", 0xFE, 0x20⟩, ⟨"ENQ", 0xFE, 0x30⟩,
   ⟨"CANCEL", 0xFE, 0x40⟩, ⟨"PWRON", 0xFE, 0x50⟩, ⟨"PWROFF", 0xFE, 0x60⟩, ⟨"BRKON", 0xFE, 0x70⟩] ++
  [⟨"BRKOFF", 0xFE, 0x80⟩, ⟨"QPWR", 0xFE, 0x90⟩, ⟨"QTRIP", 0xFE, 0xA0⟩, ⟨"QCUR", 0xFE, 0xB0⟩,
   ⟨"RESERVED_C", 0xF0, 0xC0⟩, ⟨"RESERVED_D", 0xF0, 0xD0⟩, ⟨"RESERVED_E", 0xF0, 0xE0⟩, ⟨"RESERVED_F", 0xF0, 0xF0⟩]

/-- Whether a head byte matches a row (30_encoding.md R75). -/
def StepRow.hits (r : StepRow) (h : Byte) : Bool := decide (h &&& r.mask = r.pattern)

/-- The field `op` of a head byte (30_encoding.md R69): bits 7:4. -/
def headOp (h : Byte) : BitVec 4 := h.extractLsb' 4 4

/-- The field `rsv` of a head byte: bits 3:1. -/
def headRsv (h : Byte) : BitVec 3 := h.extractLsb' 1 3

/-- The low nibble of a head byte, which a reserved operation number ignores. -/
def headLow (h : Byte) : BitVec 4 := h.extractLsb' 0 4

/-- The track selector of a head byte: bit 0, 0 for `MAIN` and 1 for `PROG`. -/
def headTrack (h : Byte) : Track := if h.getLsbD 0 then .prog else .main

/-- The selector bit of a track (20_memory.md R49). -/
def trackBit : Track → BitVec 1
  | .main => 0
  | .prog => 1

/-- The head byte of an operation number, the reserved bits and a track (30_encoding.md R69). -/
def headByte (op : BitVec 4) (rsv : BitVec 3) (t : Track) : Byte := op ++ rsv ++ trackBit t

/-- The fields of the `flags` byte of ENQ (30_encoding.md R69). -/
def flagsOfByte (b : Byte) : EnqFlags where
  periodic := b.getLsbD 7
  rsv      := b.extractLsb' 4 3
  repeats  := (b.extractLsb' 0 4).toNat

/-- The `flags` byte of its fields. -/
def byteOfFlags (f : EnqFlags) : Byte := BitVec.ofBool f.periodic ++ f.rsv ++ BitVec.ofNat 4 f.repeats

/-- `now`, least significant byte first (30_encoding.md R70). -/
def nowOfBytes (b1 b2 b3 b4 : Byte) : BitVec 32 := b4 ++ b3 ++ b2 ++ b1

/-- `raw`, least significant byte first (30_encoding.md R70). -/
def rawOfBytes (b5 b6 : Byte) : BitVec 16 := b6 ++ b5

/-- Why a stream of bytes holds no operation at its head. -/
inductive DecodeError where
  /-- The stream is empty: the schedule has ended (70_reset_and_hazards.md R201). -/
  | ended
  /-- The stream ends inside an operation (30_encoding.md R72). -/
  | truncated
  /-- A CHECK whose `raw` is not below `2^ADC_BITS`: not a schedule (30_encoding.md R72). -/
  | analogOutOfRange
  deriving DecidableEq, Repr

/-- What the step-word decoder answers: an operation with the rest of the stream, or a named refusal. -/
abbrev Decoded := Except DecodeError (Instr × List Byte)

/-- The operand bytes of CHECK (30_encoding.md R69, R72). -/
def decodeCheck (adcBits : Nat) (t : Track) (rsv : BitVec 3) : List Byte → Decoded
  | b1 :: b2 :: b3 :: b4 :: b5 :: b6 :: rest =>
    if rsv = 0 ∧ 2 ^ adcBits ≤ (rawOfBytes b5 b6).toNat then .error .analogOutOfRange
    else .ok (.check t rsv (nowOfBytes b1 b2 b3 b4).toNat (rawOfBytes b5 b6).toNat, rest)
  | _ => .error .truncated

/-- The operand bytes of ENQ: `flags`, `tag`, `L`, and exactly `L` packet bytes whatever `L` is (30_encoding.md R69,
R70). -/
def decodeEnq (t : Track) (rsv : BitVec 3) : List Byte → Decoded
  | flags :: tag :: len :: rest =>
    if rest.length < len.toNat then .error .truncated
    else .ok (.enq t rsv (flagsOfByte flags) tag (rest.take len.toNat), rest.drop len.toNat)
  | _ => .error .truncated

/-- The operand byte of CANCEL (30_encoding.md R69). -/
def decodeCancel (t : Track) (rsv : BitVec 3) : List Byte → Decoded
  | tag :: rest => .ok (.cancel t rsv tag, rest)
  | [] => .error .truncated

/-- The step-word decoder (30_encoding.md R75): the head byte's `op` alone selects the operation and its length; a
reserved operation number consumes one byte, and wins over the reserved bits (60_exceptions.md R160 f). -/
def decodeStep (adcBits : Nat) : List Byte → Decoded
  | [] => .error .ended
  | h :: rest =>
    match (headOp h).toNat with
    | 0 => .ok (.tick (headTrack h) (headRsv h), rest)
    | 1 => decodeCheck adcBits (headTrack h) (headRsv h) rest
    | 2 => .ok (.service (headTrack h) (headRsv h), rest)
    | 3 => decodeEnq (headTrack h) (headRsv h) rest
    | 4 => decodeCancel (headTrack h) (headRsv h) rest
    | 5 => .ok (.pwron (headTrack h) (headRsv h), rest)
    | 6 => .ok (.pwroff (headTrack h) (headRsv h), rest)
    | 7 => .ok (.brkon (headTrack h) (headRsv h), rest)
    | 8 => .ok (.brkoff (headTrack h) (headRsv h), rest)
    | 9 => .ok (.qpwr (headTrack h) (headRsv h), rest)
    | 10 => .ok (.qtrip (headTrack h) (headRsv h), rest)
    | 11 => .ok (.qcur (headTrack h) (headRsv h), rest)
    | 12 => .ok (.reservedC (headLow h), rest)
    | 13 => .ok (.reservedD (headLow h), rest)
    | 14 => .ok (.reservedE (headLow h), rest)
    | _ => .ok (.reservedF (headLow h), rest)   -- 15, the one nibble left

/-! ### The wire format -/

/-- The bits of the byte groups of a frame (30_encoding.md R63): before each byte one 0 bit. -/
def groupBits (o : BitOrder) (p : Packet) : List Bit :=
  p.flatMap fun b => false :: byteBits o b

/-- The frame after its preamble, as the FRAME rows of spec/opcode_table.json give it: the groups and the packet-end
bit. -/
def framePattern (o : BitOrder) (p : Packet) : List Bit := groupBits o p ++ [true]

/-- `frame(p, N)` (30_encoding.md R63). -/
def frame (o : BitOrder) (n : Nat) (p : Packet) : List Bit := List.replicate n true ++ framePattern o p

/-- The two halves of a bit (30_encoding.md R61). -/
def halvesOfBit (q : BlockParams) (b : Bit) : List Half :=
  [⟨.high, halfPeriod q b⟩, ⟨.low, halfPeriod q b⟩]

/-- The halves of a run of bits (30_encoding.md R61). -/
def halvesOf (q : BlockParams) (bits : List Bit) : List Half := bits.flatMap (halvesOfBit q)

/-- The byte whose eight bits stand in wire order in the list: the inverse of `byteBits` (30_encoding.md R66). -/
def byteOf (o : BitOrder) (bits : List Bit) : Byte :=
  match o with
  | .msbFirst => bits.foldl (fun acc b => (acc <<< 1) ||| (if b then 1 else 0)) 0
  | .lsbFirst => bits.foldr (fun b acc => (acc <<< 1) ||| (if b then 1 else 0)) 0

/-- The bytes of a frame pattern: groups of a 0 bit and eight bits, then the packet-end bit (30_encoding.md R65). -/
def decodeGroups (o : BitOrder) : List Bit → Option (List Byte)
  | [true] => some []
  | false :: b1 :: b2 :: b3 :: b4 :: b5 :: b6 :: b7 :: b8 :: rest =>
    (decodeGroups o rest).map (byteOf o [b1, b2, b3, b4, b5, b6, b7, b8] :: ·)
  | _ => none

/-- The bits of a trace (30_encoding.md R66: `bitsOf`): `none` when a pair of halves is malformed. An odd last half is
an unfinished bit and gives none (notes/assumptions/8.md). -/
def bitsOf (halfOne : Rat) : List Half → Option (List Bit)
  | [] => some []
  | [_] => some []
  | h1 :: h2 :: rest =>
    if h1.level = .high ∧ h2.level = .low ∧ h1.duration = h2.duration then
      (bitsOf halfOne rest).map (decide (h1.duration = halfOne) :: ·)
    else none

/-- Where a receiver stands in the bits (30_encoding.md R66): counting 1 bits, or inside a frame with the bytes done
and the bits of the byte being read. -/
inductive ScanPhase where
  | ones (count : Nat)
  | group (done : List Byte) (bits : List Bit)
  deriving DecidableEq, Repr

/-- A receiver: its position and the packets it has output, in order. -/
structure Scan where
  phase : ScanPhase
  out   : List Packet
  deriving DecidableEq, Repr

/-- A receiver before the first bit. -/
def Scan.start : Scan := ⟨.ones 0, []⟩

/-- A receiver reads one bit (30_encoding.md R66: `framesOf`), `none` where the bit is malformed: a 0 bit after fewer
than `n` ones. -/
def scanBit (o : BitOrder) (n : Nat) (s : Scan) (b : Bit) : Option Scan :=
  match s.phase with
  | .ones c =>
    if b then some { s with phase := .ones (c + 1) }
    else if n ≤ c then some { s with phase := .group [] [] }
    else none
  | .group done bits =>
    if bits.length < 8 then some { s with phase := .group done (bits ++ [b]) }
    else if b then some ⟨.ones 1, s.out ++ [done ++ [byteOf o bits]]⟩
    else some { s with phase := .group (done ++ [byteOf o bits]) [] }

/-- A receiver reads a run of bits. -/
def scanBits (o : BitOrder) (n : Nat) (s : Scan) : List Bit → Option Scan
  | [] => some s
  | b :: bits => (scanBit o n s b).bind fun s' => scanBits o n s' bits

/-- The packets in a run of bits (30_encoding.md R66: `framesOf`). Where the bits end inside a frame R66 is silent: the
completed packets are output and the unfinished frame is dropped, without a failure (notes/assumptions/8.md: DESIGN
CHOICE). -/
def framesOf (o : BitOrder) (n : Nat) (bits : List Bit) : Option (List Packet) :=
  (scanBits o n .start bits).map Scan.out

/-- The instruction of a frame pattern on the wire of track `t`: a FRAME row for a packet that may be sent
(30_encoding.md R63, R72), nothing otherwise. -/
def decodeFrame (p : BlockParams) (t : Track) (bits : List Bit) : Option Instr :=
  match decodeGroups p.bitOrder bits with
  | some [a, b] => if valid p.maxPacketBytes [a, b] then some (.frame2 t a b) else none
  | some [a, b, c] => if valid p.maxPacketBytes [a, b, c] then some (.frame3 t a b c) else none
  | some [a, b, c, d] => if valid p.maxPacketBytes [a, b, c, d] then some (.frame4 t a b c d) else none
  | some [a, b, c, d, e] => if valid p.maxPacketBytes [a, b, c, d, e] then some (.frame5 t a b c d e) else none
  | some [a, b, c, d, e, f] =>
    if valid p.maxPacketBytes [a, b, c, d, e, f] then some (.frame6 t a b c d e f) else none
  | _ => none

/-! ### Encoding -/

/-- What an instruction is written as: the bytes of a step word, or the bits of a frame pattern on a track's wire. -/
inductive Code where
  | step (bytes : List Byte)
  | wire (t : Track) (bits : List Bit)
  deriving DecidableEq, Repr

/-- The four bytes of `now`, least significant first (30_encoding.md R70). -/
def bytesOfNow (n : BitVec 32) : List Byte :=
  [n.extractLsb' 0 8, n.extractLsb' 8 8, n.extractLsb' 16 8, n.extractLsb' 24 8]

/-- The two bytes of `raw`, least significant first (30_encoding.md R70). -/
def bytesOfRaw (r : BitVec 16) : List Byte := [r.extractLsb' 0 8, r.extractLsb' 8 8]

/-- The encoder (30_encoding.md R69, R63). -/
def encode (o : BitOrder) : Instr → Code
  | .tick t rsv => .step [headByte 0x0 rsv t]
  | .check t rsv now raw => .step (headByte 0x1 rsv t :: (bytesOfNow (.ofNat 32 now) ++ bytesOfRaw (.ofNat 16 raw)))
  | .service t rsv => .step [headByte 0x2 rsv t]
  | .enq t rsv f tag pkt => .step (headByte 0x3 rsv t :: byteOfFlags f :: tag :: BitVec.ofNat 8 pkt.length :: pkt)
  | .cancel t rsv tag => .step [headByte 0x4 rsv t, tag]
  | .pwron t rsv => .step [headByte 0x5 rsv t]
  | .pwroff t rsv => .step [headByte 0x6 rsv t]
  | .brkon t rsv => .step [headByte 0x7 rsv t]
  | .brkoff t rsv => .step [headByte 0x8 rsv t]
  | .qpwr t rsv => .step [headByte 0x9 rsv t]
  | .qtrip t rsv => .step [headByte 0xA rsv t]
  | .qcur t rsv => .step [headByte 0xB rsv t]
  | .reservedC low => .step [0xC#4 ++ low]
  | .reservedD low => .step [0xD#4 ++ low]
  | .reservedE low => .step [0xE#4 ++ low]
  | .reservedF low => .step [0xF#4 ++ low]
  | .frame2 t a b => .wire t (framePattern o [a, b])
  | .frame3 t a b c => .wire t (framePattern o [a, b, c])
  | .frame4 t a b c d => .wire t (framePattern o [a, b, c, d])
  | .frame5 t a b c d e => .wire t (framePattern o [a, b, c, d, e])
  | .frame6 t a b c d e f => .wire t (framePattern o [a, b, c, d, e, f])

/-- The decoder of a whole code: a step word with nothing after it, or a frame pattern. -/
def decode (p : BlockParams) : Code → Option Instr
  | .step bytes =>
    match decodeStep p.adcBits bytes with
    | .ok (i, []) => some i
    | .ok (_, _ :: _) => none
    | .error _ => none
  | .wire t bits => decodeFrame p t bits

/-- The bytes of a code, none for a frame pattern, which is not stored as bytes. -/
def Code.bytes : Code → List Byte
  | .step bytes => bytes
  | .wire _ _ => []

/-! ### The host's numbering -/

/-- The first `n` bytes of the number `w`, bits 7:0 first. -/
def bytesOfNat : Nat → Nat → List Byte
  | 0, _ => []
  | n + 1, w => BitVec.ofNat 8 w :: bytesOfNat n (w / 256)

/-- The length in bytes of the longest step word: an ENQ of 255 packet bytes (30_encoding.md R69). -/
abbrev longestStepWord : Nat := 259

/-- The bytes of a table word: its `nbits` bits, first byte in bits 7:0, and zeros after them. -/
def tableBytes (nbits w : Nat) : List Byte := bytesOfNat longestStepWord (w % 2 ^ nbits)

/-- The instruction the step-word decoder reads from a table word, with the converter width of `State.reset`. -/
def decodeTableWord (nbits w : Nat) : Option Instr :=
  match decodeStep BlockParams.vectors.adcBits (tableBytes nbits w) with
  | .ok (i, _) => some i
  | .error _ => none

end Sys2Proof
end

