-- ==== Sys2Proof/Machine/Flags.lean ====
section
/-!
DEFINITION. The flags `tripped`, `powerReq`, `brakeReq` (10_state.md R20) and the arithmetic that decides them
(42_supervisor.md R121 to R128, R137): every computation is exact. Entering the tripped state is `enterTripped`
(60_exceptions.md R162) and its return, the retry, is `leaveTripped` (R163).
-/

namespace Sys2Proof.Machine

/-- The level `driveEnable` gives the enable pin (42_supervisor.md R137; 10_state.md R24). -/
def enableLevel (v : Supervisor) : Level :=
  if v.powerReq = true ∧ v.tripped = false then .high else .low

/-- `driveEnable(T)` (42_supervisor.md R137). -/
def driveEnable (T : TrackUnit) : TrackUnit :=
  { T with pins := { T.pins with enable := enableLevel T.sup } }

/-- Whether a sample is due at time `n` (42_supervisor.md R121). -/
def sampleDue (n : Nat) (T : TrackUnit) : Bool := decide (T.cfg.sampleInterval ≤ n - T.sup.lastSampleTime)

/-- The smoothing recurrence (42_supervisor.md R122). -/
def smooth (alpha reading : Rat) (raw : Nat) : Rat := (raw : Rat) * alpha + reading * (1 - alpha)

/-- `mA(T)`: the smoothed reading in milliamps (42_supervisor.md R123). -/
def milliamps (T : TrackUnit) : Rat := T.sup.reading * T.cfg.scale

/-- The trip condition of a sampling CHECK (42_supervisor.md R127): output enabled, strictly over the threshold. -/
def overcurrent (T : TrackUnit) : Bool :=
  decide (T.pins.enable = .high) && decide (T.cfg.tripMA < milliamps T)

/-- Whether a unit tripped at `since` is retried at time `n` (42_supervisor.md R128): strictly after the interval. -/
def retryDue (n since : Nat) (T : TrackUnit) : Bool := decide (T.cfg.retryInterval < n - since)

/-- Normal to Tripped at time `n` (42_supervisor.md R127; 60_exceptions.md R162): the trip time is saved, the enable
pin is driven again, nothing else is touched. -/
def enterTripped (n : Nat) (T : TrackUnit) : TrackUnit :=
  driveEnable { T with sup := { T.sup with trip := some n } }

/-- Tripped to Normal (42_supervisor.md R128): the pin goes `HIGH` if the host still asks for power. -/
def leaveTripped (T : TrackUnit) : TrackUnit :=
  driveEnable { T with sup := { T.sup with trip := none } }

/-- Taking a sample at time `n` (42_supervisor.md R120 to R122). -/
def takeSample (n raw : Nat) (T : TrackUnit) : TrackUnit :=
  { T with sup := { T.sup with lastSampleTime := n, reading := smooth T.cfg.alpha T.sup.reading raw } }

/-- The sample-and-trip part of CHECK, which runs first (42_supervisor.md R129). -/
def samplePart (n raw : Nat) (T : TrackUnit) : TrackUnit :=
  if sampleDue n T then
    if overcurrent (takeSample n raw T) then enterTripped n (takeSample n raw T) else takeSample n raw T
  else T

/-- The retry part of CHECK, which runs second (42_supervisor.md R129). -/
def retryPart (n : Nat) (T : TrackUnit) : TrackUnit :=
  match T.sup.trip with
  | some since => if retryDue n since T then leaveTripped T else T
  | none => T

/-- Set or clear `powerReq` and drive the enable pin (42_supervisor.md R130, R131). -/
def setPower (on : Bool) (T : TrackUnit) : TrackUnit :=
  driveEnable { T with sup := { T.sup with powerReq := on } }

/-- The level of the brake pin for a brake request (42_supervisor.md R132, R133). -/
def brakeLevel (on : Bool) : Level := if on then .high else .low

/-- Set or clear `brakeReq` and drive the brake pin, in a scheme that has one (42_supervisor.md R132, R133). -/
def setBrake (on : Bool) (T : TrackUnit) : TrackUnit :=
  { T with sup := { T.sup with brakeReq := on }, pins := { T.pins with brake := some (brakeLevel on) } }

end Sys2Proof.Machine
end

