-- ==== Sys2Proof/Machine/Ops.lean ====
section
/-!
DEFINITION. The named operations over the state: the registry of track units, the pins, the hand-off slot and the ring,
the timer interrupt's entry and return, and the reading of the next operation of the schedule.
-/

namespace Sys2Proof.Machine

/-! ### The registry (20_memory.md R49) -/

/-- The track unit an operation's selector names. -/
def State.unit (s : State) : Track → TrackUnit
  | .main => s.main
  | .prog => s.prog

/-- The state with the unit of track `t` replaced. -/
def State.setUnit (s : State) (t : Track) (T : TrackUnit) : State :=
  match t with
  | .main => { s with main := T }
  | .prog => { s with prog := T }

/-- The other of the two tracks. -/
def otherTrack : Track → Track
  | .main => .prog
  | .prog => .main

/-! ### How an operation ends (30_encoding.md R71) -/

/-- The outcomes of one step of this machine. -/
abbrev Out := Host.Outcome State Fault Refusal

/-- End with a result (`none`: the operation returns nothing) and the unit of track `t` changed to `T`. -/
def finish (t : Track) (T : TrackUnit) (r : Option Result) (s : State) : Out :=
  .next { s.setUnit t T with result := r }

/-- End with a result and no other change. -/
def answer (r : Option Result) (s : State) : Out := .next { s with result := r }

/-- `reject <Reason>` (00_scope.md R8; 41_queue.md R106): no state change. -/
def reject (r : Reason) (s : State) : Out := answer (some (.rejected r)) s

/-! ### Logic pins (20_memory.md R40) -/

/-- `not level` (00_scope.md R7). -/
def complement : Level → Level
  | .low => .high
  | .high => .low

/-- The level `emit` leaves on `sigB` (40_encoder.md R89): the complement in `DUAL_INVERTED`, no write otherwise. -/
def sigBAfter (T : TrackUnit) (l : Level) : Option Level :=
  match T.cfg.scheme with
  | .dualInverted => some (complement l)
  | .singleEnded => T.pins.sigB
  | .brakeEnable => T.pins.sigB

/-- `emit(T, level, d)` (40_encoder.md R89): the signal pins, the timer compare and the ghost trace. -/
def emit (T : TrackUnit) (l : Level) (d : Rat) : TrackUnit :=
  { T with
    pins := { T.pins with sigA := l, sigB := sigBAfter T l }
    compare := d
    wire := T.wire ++ [⟨l, d⟩] }

/-- The pins of a unit by identifier, each with its latched level. -/
def TrackUnit.pinLevels (T : TrackUnit) : List (PinId × Level) :=
  [(T.cfg.sigA, T.pins.sigA), (T.cfg.enable, T.pins.enable)]
    ++ (match T.cfg.sigB, T.pins.sigB with | some id, some l => [(id, l)] | _, _ => [])
    ++ (match T.cfg.brake, T.pins.brake with | some id, some l => [(id, l)] | _, _ => [])

/-- The logic pin space, indexed by pin identifier (20_memory.md R40): a view of the latched levels. -/
def State.logicPin (s : State) (id : PinId) : Option Level :=
  (s.main.pinLevels ++ s.prog.pinLevels).lookup id

/-! ### The hand-off slot and the ring (20_memory.md R45; 41_queue.md) -/

/-- `nextPacket(T)` (40_encoder.md R84): what the slot holds, and the unit with the slot free. -/
def nextPacket (T : TrackUnit) : Option Packet × TrackUnit :=
  match T.slot with
  | none => (none, T)
  | some p => (some p, { T with slot := none })

/-- What goes back to the tail when entry `e` has been handed over (41_queue.md R108). -/
def reappend (e : Entry) : List Entry :=
  if e.periodic then [e]
  else if 1 < e.repeats then [{ e with repeats := e.repeats - 1 }]
  else []

/-- `refill(T)` (41_queue.md R108). -/
def refill (T : TrackUnit) : TrackUnit :=
  match T.slot, T.ring with
  | none, e :: rest => { T with slot := some e.pkt, ring := rest ++ reappend e }
  | none, [] => T
  | some _, _ => T

/-- Whether an entry is the periodic entry of a tag (41_queue.md R103, R105). -/
def Entry.hasTag (tag : Byte) (e : Entry) : Bool := e.periodic && decide (e.tag = tag)

/-- Whether the ring holds a periodic entry with that tag. -/
def tagInRing (tag : Byte) (ring : List Entry) : Bool := ring.any (Entry.hasTag tag)

/-- The ring without its periodic entry of that tag, the order of the others kept (41_queue.md R105). -/
def removeTag (tag : Byte) (ring : List Entry) : List Entry := ring.eraseP (Entry.hasTag tag)

/-! ### The timer interrupt (60_exceptions.md R156 to R163) -/

/-- Interrupt entry (60_exceptions.md R158, R161): the start of the TICK clears the pending tick; the block saves no
state and has no mode bit. -/
def interruptEntry (T : TrackUnit) : TrackUnit := { T with pending := false }

/-- Return from the interrupt (60_exceptions.md R163): there is nothing to restore in the block. -/
def interruptReturn (T : TrackUnit) : TrackUnit := T

/-- The environment's event: the timer of track `t` reaches its compare value (60_exceptions.md R156, R158). It is no
operation of the block and no step makes it; the tick it makes pending is served by the next step. -/
def compareMatch (t : Track) (s : State) : Out :=
  if (s.unit t).timerOn = false then .refused .timerOff
  else if (s.unit t).pending then .refused .matchUnserved
  else .next (s.setUnit t { s.unit t with pending := true })

/-- The track whose pending tick is served next (60_exceptions.md R160 a: either order; the model takes `MAIN` first,
notes/assumptions/5.md). -/
def pendingTick (s : State) : Option Track :=
  if s.main.pending then some .main
  else if s.prog.pending then some .prog
  else none

/-! ### The schedule -/

/-- The refusal of a schedule the decoder refuses. -/
def refusalOf : DecodeError → Refusal
  | .ended => .scheduleEnded
  | .truncated => .truncated
  | .analogOutOfRange => .analogOutOfRange

/-- The next operation and the state past it: the first of the issued operations, and where there is none the operation
decoded at the head of the schedule, past its bytes (notes/assumptions/25.md). -/
def fetchOperation (s : State) : Except Refusal (Instr × State) :=
  match s.issued with
  | i :: rest => .ok (i, { s with issued := rest })
  | [] =>
    match decodeStep s.params.adcBits s.schedule with
    | .ok (i, rest) => .ok (i, { s with schedule := rest })
    | .error e => .error (refusalOf e)

end Sys2Proof.Machine
end

