-- ==== Sys2Proof/Machine/Boot.lean ====
section
/-!
DEFINITION. Construction and boot (70_reset_and_hazards.md R180 to R185): the constraints a configuration must meet and
the boot steps in their order. Boot starts from any earlier contents of the state: nothing survives it.
-/

namespace Sys2Proof.Machine

/-- The constraints on the shared parameters (70_reset_and_hazards.md R182; 00_scope.md R6). `ADC_BITS` has no upper
bound: above 16 the readings from 65536 up have no step word, since R69's `raw` has 2 bytes, and the configuration is
accepted all the same (notes/assumptions/25.md: DESIGN CHOICE). `MAX_REPEAT` has no bound either, and none in R182; above
15 a count over 15 has no step word (notes/assumptions/26.md: DESIGN CHOICE). -/
def paramsOk (p : BlockParams) : Bool :=
  decide (0 < p.halfOne) && decide (p.halfOne < p.halfZero)
    && decide (minPacketBytes ≤ p.maxPacketBytes) && decide (p.maxPacketBytes ≤ 255)
    && decide (1 ≤ p.adcBits)

/-- The least legal preamble of a track (00_scope.md R6). -/
def minPreamble : Track → Nat
  | .main => 10
  | .prog => 20

/-- The pins a scheme gives are exactly the pins it has (10_state.md R27; 70_reset_and_hazards.md R182). -/
def pinsGiven (c : TrackConfig) : Bool :=
  match c.scheme with
  | .singleEnded => c.sigB.isNone && c.brake.isNone
  | .dualInverted => c.sigB.isSome && c.brake.isNone
  | .brakeEnable => c.sigB.isNone && c.brake.isSome

/-- The logic pins of a unit. -/
def logicPinsOf (c : TrackConfig) : List PinId := [c.sigA, c.enable] ++ c.sigB.toList ++ c.brake.toList

/-- The constraints on one unit's configuration and supervisor constants (70_reset_and_hazards.md R182). -/
def unitConfigOk (t : Track) (c : TrackConfig) : Bool :=
  decide (minPreamble t ≤ c.preamble) && decide (1 ≤ c.cap) && decide (0 < c.scale) && decide (0 ≤ c.tripMA)
    && decide (0 < c.alpha) && decide (c.alpha ≤ 1) && decide (1 ≤ c.sampleInterval) && pinsGiven c

/-- The constraints across the two units (70_reset_and_hazards.md R182): distinct pins and timers. Logic pins and
analog pins are two spaces (20_memory.md R40; notes/assumptions/9.md). -/
def unitsDistinct (cm cp : TrackConfig) : Bool :=
  decide (logicPinsOf cm ++ logicPinsOf cp).Nodup && decide (cm.sense ≠ cp.sense) && decide (cm.timer ≠ cp.timer)

/-- The construction inputs are legal (70_reset_and_hazards.md R182). -/
def inputsOk (p : BlockParams) (cm cp : TrackConfig) : Bool :=
  paramsOk p && unitConfigOk .main cm && unitConfigOk .prog cp && unitsDistinct cm cp

/-- The configuration a state carries is legal. -/
def State.configOk (s : State) : Bool := inputsOk s.params s.main.cfg s.prog.cfg

/-! ### The boot steps of one unit (70_reset_and_hazards.md R183) -/

/-- Step 1: the unit is built from its configuration. -/
def bootBuild (c : TrackConfig) (T : TrackUnit) : TrackUnit := { T with cfg := c }

/-- Step 3, first part: the enable pin is driven low before the signal pins. -/
def bootEnableLow (T : TrackUnit) : TrackUnit := { T with pins := { T.pins with enable := .low } }

/-- Step 3, second part: the other pins the scheme has. -/
def bootSignalPins (T : TrackUnit) : TrackUnit :=
  match T.cfg.scheme with
  | .singleEnded => { T with pins := { T.pins with sigA := .low, sigB := none, brake := none } }
  | .dualInverted => { T with pins := { T.pins with sigA := .low, sigB := some .high, brake := none } }
  | .brakeEnable => { T with pins := { T.pins with sigA := .low, sigB := none, brake := some .low } }

/-- Step 4: the supervisor, with the boot time `t0` as the time of the last sample. -/
def bootSupervisor (t0 : Nat) (T : TrackUnit) : TrackUnit :=
  { T with sup := { trip := none, reading := 0, lastSampleTime := t0, powerReq := false, brakeReq := false } }

/-- Step 5: the encoder and the queue; the ghost trace begins here. -/
def bootEncoder (T : TrackUnit) : TrackUnit :=
  { T with
    enc := { sub := .idle, half := .second, pre := 0, byteIdx := 0, bitPos := 0, pkt := [] }
    slot := none
    ring := []
    wire := [] }

/-- Step 6: the timer is started and its compare interrupt enabled. -/
def bootTimer (p : BlockParams) (T : TrackUnit) : TrackUnit :=
  { T with compare := p.halfOne, timerOn := true, pending := false }

/-- All the steps of one unit, in their order. -/
def bootUnit (p : BlockParams) (c : TrackConfig) (t0 : Nat) (T : TrackUnit) : TrackUnit :=
  bootTimer p (bootEncoder (bootSupervisor t0 (bootSignalPins (bootEnableLow (bootBuild c T)))))

/-- Boot with construction inputs and boot time `t0` (70_reset_and_hazards.md R182, R183), from any earlier state: the
units go into the registry (step 2) and the main loop is entered with no operation yet (step 7). -/
def boot (p : BlockParams) (cm cp : TrackConfig) (t0 : Nat) (before : State) : Out :=
  if inputsOk p cm cp then
    .next
      { before with
        params := p
        main := bootUnit p cm t0 before.main
        prog := bootUnit p cp t0 before.prog
        clock := t0
        schedule := []
        issued := []
        result := none }
  else .refused .badConfiguration

end Sys2Proof.Machine
end

