-- ==== Sys2Proof/Machine/Encoder.lean ====
section
/-!
DEFINITION. The waveform encoder (40_encoder.md): the operation TICK and the functions it is made of.
-/

namespace Sys2Proof.Machine

/-- `curBit(T)` (10_state.md R15): the value of the bit the position names; `none` where the position names a byte or a
bit the packet does not have (R35). -/
def curBit (o : BitOrder) (e : Encoder) : Option Bit :=
  match e.sub with
  | .idle => some true
  | .preamble => some true
  | .ending => some true
  | .data => groupBit
  | .checksum => groupBit
where
  /-- The bit at `bitPos` of the 9-bit group of byte `byteIdx`. -/
  groupBit : Option Bit :=
    if e.bitPos = 0 then some false
    else if 8 < e.bitPos then none
    else e.pkt[e.byteIdx]?.map fun b => wireBit o b e.bitPos

/-- `fetch(T)` (40_encoder.md R85, R86): load the slot's packet, or idle; a malformed packet is consumed and dropped. -/
def fetchPacket (p : BlockParams) (T : TrackUnit) : TrackUnit :=
  match nextPacket T with
  | (some q, T') =>
    if valid p.maxPacketBytes q then
      { T' with enc := { T'.enc with pkt := q, sub := .preamble, pre := 1, byteIdx := 0, bitPos := 0 } }
    else goIdle T'
  | (none, T') => goIdle T'
where
  /-- The `else` arm of R85. -/
  goIdle (T' : TrackUnit) : TrackUnit :=
    { T' with enc := { T'.enc with pkt := [], sub := .idle, pre := 0, byteIdx := 0, bitPos := 0 } }

/-- From `PREAMBLE` (40_encoder.md R83). -/
def nextFromPreamble (T : TrackUnit) : TrackUnit :=
  if T.enc.pre < T.cfg.preamble then { T with enc := { T.enc with pre := T.enc.pre + 1 } }
  else { T with enc := { T.enc with pre := 0, sub := .data, byteIdx := 0, bitPos := 0 } }

/-- From `DATA` or `CHECKSUM` (40_encoder.md R87). -/
def nextFromGroup (T : TrackUnit) : TrackUnit :=
  if T.enc.bitPos < 8 then { T with enc := { T.enc with bitPos := T.enc.bitPos + 1 } }
  else if T.enc.byteIdx < T.enc.pkt.length - 1 then
    { T with enc := { T.enc with
        byteIdx := T.enc.byteIdx + 1
        bitPos := 0
        sub := if T.enc.byteIdx + 1 = T.enc.pkt.length - 1 then .checksum else .data } }
  else { T with enc := { T.enc with sub := .ending, byteIdx := 0, bitPos := 0 } }

/-- `nextBit(T)` (40_encoder.md R82, R83, R87, R88). -/
def nextBit (p : BlockParams) (T : TrackUnit) : TrackUnit :=
  match T.enc.sub with
  | .idle => fetchPacket p T
  | .preamble => nextFromPreamble T
  | .data => nextFromGroup T
  | .checksum => nextFromGroup T
  | .ending => fetchPacket p { T with enc := { T.enc with pkt := [] } }

/-- The body of TICK on a track unit (40_encoder.md R80): the position is advanced first, the pins are driven second. -/
def halfTransition (p : BlockParams) (T : TrackUnit) : Option TrackUnit :=
  match T.enc.half with
  | .first => drive { T with enc := { T.enc with half := .second } } .low
  | .second => drive { nextBit p T with enc := { (nextBit p T).enc with half := .first } } .high
where
  /-- Drive the half that starts, at the half-period of the bit the position names. -/
  drive (T' : TrackUnit) (l : Level) : Option TrackUnit :=
    (curBit p.bitOrder T'.enc).map fun b => emit T' l (halfPeriod p b)

/-- `interruptHandler()`: the service of one compare interrupt of track `t` (60_exceptions.md R156, R161, R163). -/
def serveTick (t : Track) (s : State) : Out :=
  if (s.unit t).timerOn = false then .refused .timerOff
  else
    match halfTransition s.params (interruptEntry (s.unit t)) with
    | some T => finish t (interruptReturn T) none s
    | none => .fault .noValue

/-- TICK (40_encoder.md R80). A word with reserved head bits does nothing (30_encoding.md R72). -/
def execTick (t : Track) (rsv : BitVec 3) (s : State) : Out :=
  if rsv ≠ 0 then answer none s else serveTick t s

end Sys2Proof.Machine
end

