-- ==== Sys2Proof/Machine/Queue.lean ====
section
/-!
DEFINITION. The packet queue (41_queue.md): the operations ENQ, CANCEL and SERVICE.
-/

namespace Sys2Proof.Machine

/-- Append an entry to a ring and refill: what every accepted ENQ ends with (41_queue.md R100). -/
def acceptEntry (ring : List Entry) (e : Entry) (T : TrackUnit) : TrackUnit :=
  refill { T with ring := ring ++ [e] }

/-- ENQ (41_queue.md R100 to R104). -/
def execEnq (t : Track) (rsv : BitVec 3) (f : EnqFlags) (tag : Byte) (pkt : Packet) (s : State) : Out :=
  match checkEnq s.params rsv f pkt with
  | some r => reject r s
  | none =>
    if f.periodic && tagInRing tag (s.unit t).ring then
      finish t (acceptEntry (removeTag tag (s.unit t).ring) (entryOf f tag pkt) (s.unit t)) (some .success) s
    else if (s.unit t).cfg.cap ≤ (s.unit t).ring.length then reject .queueFull s
    else finish t (acceptEntry (s.unit t).ring (entryOf f tag pkt) (s.unit t)) (some .success) s

/-- CANCEL (41_queue.md R105). -/
def execCancel (t : Track) (rsv : BitVec 3) (tag : Byte) (s : State) : Out :=
  if rsv ≠ 0 then reject .badOperand s
  else if tagInRing tag (s.unit t).ring then
    finish t { s.unit t with ring := removeTag tag (s.unit t).ring } (some .success) s
  else reject .notFound s

/-- SERVICE (41_queue.md R107). A word with reserved head bits does nothing (30_encoding.md R72). -/
def execService (t : Track) (rsv : BitVec 3) (s : State) : Out :=
  if rsv ≠ 0 then answer none s else finish t (refill (s.unit t)) none s

end Sys2Proof.Machine
end

