-- ==== Sys2Proof/Machine/Reserved.lean ====
section
/-!
DEFINITION. The reserved operation numbers 0xC to 0xF (30_encoding.md R72; 60_exceptions.md R160 f): one byte consumed,
no state change, `rejected(UNSUPPORTED)`, whatever the low nibble is.
-/

namespace Sys2Proof.Machine

/-- RESERVED_C (30_encoding.md R72). -/
def execReservedC (s : State) : Out := reject .unsupported s

/-- RESERVED_D (30_encoding.md R72). -/
def execReservedD (s : State) : Out := reject .unsupported s

/-- RESERVED_E (30_encoding.md R72). -/
def execReservedE (s : State) : Out := reject .unsupported s

/-- RESERVED_F (30_encoding.md R72). -/
def execReservedF (s : State) : Out := reject .unsupported s

end Sys2Proof.Machine
end

