-- ==== Sys2Proof/Machine/Supervisor.lean ====
section
/-!
DEFINITION. The power supervisor (42_supervisor.md): the operations CHECK, PWRON, PWROFF, BRKON, BRKOFF, QPWR, QTRIP,
QCUR.
-/

namespace Sys2Proof.Machine

/-- CHECK on a track unit at time `n` (42_supervisor.md R120, R129): sample and trip first, retry second. -/
def checkUnit (n raw : Nat) (T : TrackUnit) : TrackUnit :=
  retryPart n (samplePart n raw T)

/-- CHECK (42_supervisor.md R120). `now` and `raw` are the environment's answers; answers that break its laws are no
schedule (R124, R125; 93_implementation_defined.md U5). A word with reserved head bits does nothing (30_encoding.md
R72). -/
def execCheck (t : Track) (rsv : BitVec 3) (now raw : Nat) (s : State) : Out :=
  if rsv ≠ 0 then answer none s
  else if 2 ^ s.params.adcBits ≤ raw then .refused .analogOutOfRange
  else if now < s.clock then .refused .clockWentBack
  else finish t (checkUnit now raw (s.unit t)) none { s with clock := now }

/-- PWRON (42_supervisor.md R130). -/
def execPwron (t : Track) (rsv : BitVec 3) (s : State) : Out :=
  if rsv ≠ 0 then reject .badOperand s else finish t (setPower true (s.unit t)) (some .success) s

/-- PWROFF (42_supervisor.md R131). -/
def execPwroff (t : Track) (rsv : BitVec 3) (s : State) : Out :=
  if rsv ≠ 0 then reject .badOperand s else finish t (setPower false (s.unit t)) (some .success) s

/-- BRKON (42_supervisor.md R132). -/
def execBrkon (t : Track) (rsv : BitVec 3) (s : State) : Out :=
  if rsv ≠ 0 then reject .badOperand s
  else if (s.unit t).cfg.scheme ≠ .brakeEnable then reject .unsupported s
  else finish t (setBrake true (s.unit t)) (some .success) s

/-- BRKOFF (42_supervisor.md R133). -/
def execBrkoff (t : Track) (rsv : BitVec 3) (s : State) : Out :=
  if rsv ≠ 0 then reject .badOperand s
  else if (s.unit t).cfg.scheme ≠ .brakeEnable then reject .unsupported s
  else finish t (setBrake false (s.unit t)) (some .success) s

/-- QPWR (42_supervisor.md R134): whether the enable pin is `HIGH`. -/
def execQpwr (t : Track) (rsv : BitVec 3) (s : State) : Out :=
  if rsv ≠ 0 then reject .badOperand s
  else answer (some (.answer (decide ((s.unit t).pins.enable = .high)))) s

/-- QTRIP (42_supervisor.md R135). -/
def execQtrip (t : Track) (rsv : BitVec 3) (s : State) : Out :=
  if rsv ≠ 0 then reject .badOperand s else answer (some (.answer (s.unit t).sup.tripped)) s

/-- QCUR (42_supervisor.md R136): the smoothed reading in milliamps, exactly. -/
def execQcur (t : Track) (rsv : BitVec 3) (s : State) : Out :=
  if rsv ≠ 0 then reject .badOperand s else answer (some (.current (milliamps (s.unit t)))) s

end Sys2Proof.Machine
end

