-- ==== Sys2Proof/Machine/Wire.lean ====
section
/-!
DEFINITION. The FRAME rows: a frame on the wire of a track is what the encoder's TICKs emit for one packet
(30_encoding.md R63; 40_encoder.md R94). A FRAME row runs exactly the TICKs of that frame, where the encoder sends that
frame next (notes/assumptions/6.md). Also the armed duration of a trace (70_reset_and_hazards.md R198).
-/

namespace Sys2Proof.Machine

/-- `n` TICKs of track `t` one after another, stopping where one stops. -/
def runTicks : Nat → Track → State → Out
  | 0, _, s => .next s
  | n + 1, t, s =>
    match execTick t 0 s with
    | .next s' => runTicks n t s'
    | .fault r => .fault r
    | .refused r => .refused r

/-- How many TICKs a frame takes: two halves for each of its `N + 9·L + 1` bits (30_encoding.md R63). -/
def frameTicks (preamble len : Nat) : Nat := 2 * (preamble + 9 * len + 1)

/-- Whether the encoder is at a bit boundary where it asks for a packet: at the end of an idle bit or of a packet-end
bit (40_encoder.md R82, R88). -/
def Encoder.asksForPacket (e : Encoder) : Bool :=
  decide (e.half = .second) && (decide (e.sub = .idle) || decide (e.sub = .ending))

/-- Whether the frame of packet `q` is what the unit sends next: the encoder asks for a packet, and the slot holds `q`,
and `q` may be sent (40_encoder.md R82, R85, R86, R88). -/
def sendsNext (p : BlockParams) (q : Packet) (T : TrackUnit) : Bool :=
  T.enc.asksForPacket && decide (T.slot = some q) && valid p.maxPacketBytes q

/-- The transmission of the frame of packet `q` on track `t`. -/
def transmit (t : Track) (q : Packet) (s : State) : Out :=
  if (s.unit t).timerOn = false then .refused .timerOff
  else if sendsNext s.params q (s.unit t) then runTicks (frameTicks (s.unit t).cfg.preamble q.length) t s
  else .refused .frameNotNext

/-- FRAME2 (30_encoding.md R63). -/
def execFrame2 (t : Track) (a b : Byte) (s : State) : Out := transmit t [a, b] s

/-- FRAME3 (30_encoding.md R63). -/
def execFrame3 (t : Track) (a b c : Byte) (s : State) : Out := transmit t [a, b, c] s

/-- FRAME4 (30_encoding.md R63). -/
def execFrame4 (t : Track) (a b c d : Byte) (s : State) : Out := transmit t [a, b, c, d] s

/-- FRAME5 (30_encoding.md R63). -/
def execFrame5 (t : Track) (a b c d e : Byte) (s : State) : Out := transmit t [a, b, c, d, e] s

/-- FRAME6 (30_encoding.md R63). -/
def execFrame6 (t : Track) (a b c d e f : Byte) (s : State) : Out := transmit t [a, b, c, d, e, f] s

/-- The sum of the armed durations of a run of halves (70_reset_and_hazards.md R198). -/
def armedTotal (halves : List Half) : Rat := (halves.map Half.duration).sum

end Sys2Proof.Machine
end

