-- ==== Sys2Proof/Machine/Dispatch.lean ====
section
/-!
DEFINITION. The dispatch: one arm per constructor of Instr, each one direct call of that instruction's meaning.
-/

namespace Sys2Proof.Machine

def exec (i : Instr) (s : State) : Host.Outcome State Fault Refusal :=
  match i with
  | .tick t rsv => Sys2Proof.Machine.execTick t rsv s
  | .check t rsv now raw => Sys2Proof.Machine.execCheck t rsv now raw s
  | .service t rsv => Sys2Proof.Machine.execService t rsv s
  | .enq t rsv flags tag pkt => Sys2Proof.Machine.execEnq t rsv flags tag pkt s
  | .cancel t rsv tag => Sys2Proof.Machine.execCancel t rsv tag s
  | .pwron t rsv => Sys2Proof.Machine.execPwron t rsv s
  | .pwroff t rsv => Sys2Proof.Machine.execPwroff t rsv s
  | .brkon t rsv => Sys2Proof.Machine.execBrkon t rsv s
  | .brkoff t rsv => Sys2Proof.Machine.execBrkoff t rsv s
  | .qpwr t rsv => Sys2Proof.Machine.execQpwr t rsv s
  | .qtrip t rsv => Sys2Proof.Machine.execQtrip t rsv s
  | .qcur t rsv => Sys2Proof.Machine.execQcur t rsv s
  | .reservedC _ => Sys2Proof.Machine.execReservedC s
  | .reservedD _ => Sys2Proof.Machine.execReservedD s
  | .reservedE _ => Sys2Proof.Machine.execReservedE s
  | .reservedF _ => Sys2Proof.Machine.execReservedF s
  | .frame2 t a b => Sys2Proof.Machine.execFrame2 t a b s
  | .frame3 t a b c => Sys2Proof.Machine.execFrame3 t a b c s
  | .frame4 t a b c d => Sys2Proof.Machine.execFrame4 t a b c d s
  | .frame5 t a b c d e => Sys2Proof.Machine.execFrame5 t a b c d e s
  | .frame6 t a b c d e f => Sys2Proof.Machine.execFrame6 t a b c d e f s

end Sys2Proof.Machine
end

