-- ==== Sys2Proof/Machine/Step.lean ====
section
/-!
DEFINITION. One step of the block: a pending tick is served first (60_exceptions.md R160 b), and otherwise the next
operation, issued or of the schedule, runs as one atomic step (20_memory.md R44). An illegal configuration is refused
(93_implementation_defined.md U7).
-/

namespace Sys2Proof.Machine

/-- One step. -/
def step (s : State) : Host.Outcome State Fault Refusal :=
  if s.configOk then
    match pendingTick s with
    | some t => serveTick t s
    | none =>
      match fetchOperation s with
      | .ok (i, s') => exec i s'
      | .error r => .refused r
  else .refused .badConfiguration

/-- The state with operations issued to be performed next, given as operations (notes/assumptions/25.md). -/
def State.issue (s : State) (ops : List Instr) : State := { s with issued := ops }

/-- The state with a program loaded in step words. -/
def State.load (s : State) (bytes : List Byte) : State := { s with schedule := bytes }

/-- The state with one table word placed at the head of the schedule, with no tick pending and no operation issued, so
that the next step runs that word (notes/assumptions/4.md). -/
def State.withFetchWord (s : State) (nbits w : Nat) : State :=
  { s with
    main := { s.main with pending := false }
    prog := { s.prog with pending := false }
    schedule := tableBytes nbits w
    issued := [] }

end Sys2Proof.Machine
end

