-- ==== Sys2Proof/Machine/Assembly.lean ====
section
/-!
DEFINITION. The assembly of 95_test_vectors.md as syntax trees (30_encoding.md R73) and its pseudo-operations (R74),
each with its expansion into operations. The text form itself is not parsed (notes/assumptions/11.md).
-/

namespace Sys2Proof.Machine

/-- The byte list of an ENQ line: the bytes as written, or closed with `+`, their checksum (30_encoding.md R74). -/
inductive AsmBytes where
  | plain (bs : List Byte)
  | plus (bs : List Byte)
  deriving DecidableEq, Repr

/-- The packet of a byte list. -/
def AsmBytes.packet : AsmBytes → Packet
  | .plain bs => bs
  | .plus bs => bs ++ [checksum bs]

/-- One line of assembly: the thirteen forms of 30_encoding.md R73 and the pseudo-operations of R74. -/
inductive AsmLine where
  | tick (t : Track)
  | check (t : Track) (now raw : Nat)
  | service (t : Track)
  | enqOnce (t : Track) (r : Nat) (bs : AsmBytes)
  | enqEvery (t : Track) (tag : Byte) (bs : AsmBytes)
  | cancel (t : Track) (tag : Byte)
  | pwron (t : Track)
  | pwroff (t : Track)
  | brkon (t : Track)
  | brkoff (t : Track)
  | qpwr (t : Track)
  | qtrip (t : Track)
  | qcur (t : Track)
  | ticks (t : Track) (n : Nat)
  | bits (t : Track) (n : Nat)
  | loop (now rawM rawP : Nat)
  deriving DecidableEq, Repr

/-- The operations a line stands for. -/
def AsmLine.expand : AsmLine → List Instr
  | .tick t => [.tick t 0]
  | .check t now raw => [.check t 0 now raw]
  | .service t => [.service t 0]
  | .enqOnce t r bs => [.enq t 0 { periodic := false, rsv := 0, repeats := r } 0 bs.packet]
  | .enqEvery t tag bs => [.enq t 0 { periodic := true, rsv := 0, repeats := 0 } tag bs.packet]
  | .cancel t tag => [.cancel t 0 tag]
  | .pwron t => [.pwron t 0]
  | .pwroff t => [.pwroff t 0]
  | .brkon t => [.brkon t 0]
  | .brkoff t => [.brkoff t 0]
  | .qpwr t => [.qpwr t 0]
  | .qtrip t => [.qtrip t 0]
  | .qcur t => [.qcur t 0]
  | .ticks t n => List.replicate n (.tick t 0)
  | .bits t n => List.replicate (2 * n) (.tick t 0)
  | .loop now rawM rawP => [.check .main 0 now rawM, .service .main 0, .check .prog 0 now rawP, .service .prog 0]

/-- The operations of a program. -/
def expandAll (lines : List AsmLine) : List Instr := lines.flatMap AsmLine.expand

end Sys2Proof.Machine
end

