-- ==== Sys2Proof/Safety.lean ====
section
/-!
DEFINITION. What counts as a good state: the invariants of 10_state.md R14, R18, R23, R24, R28 and of the supervisor
(42_supervisor.md R122, R125), and what it means for the ghost trace to decode (30_encoding.md R66). Also the words the
statements use: the FRAME row of a packet, a run of hand-offs, a run of samples.
-/

namespace Sys2Proof.Safety

open Sys2Proof Sys2Proof.Machine

/-- A property of both track units of a state. -/
def Each (P : BlockParams → TrackUnit → Prop) (s : State) : Prop := P s.params s.main ∧ P s.params s.prog

/-! ### The encoder -/

/-- The invariants of the sequencer position (10_state.md R14), with the ranges of R13. -/
structure EncoderInv (p : BlockParams) (T : TrackUnit) : Prop where
  idle_iff      : T.enc.sub = .idle ↔ T.enc.pkt = []
  pkt_valid     : T.enc.sub ≠ .idle → valid p.maxPacketBytes T.enc.pkt = true
  data_index    : T.enc.sub = .data → T.enc.byteIdx + 1 < T.enc.pkt.length
  chk_index     : T.enc.sub = .checksum → T.enc.byteIdx + 1 = T.enc.pkt.length
  preamble_pre  : T.enc.sub = .preamble → 1 ≤ T.enc.pre ∧ T.enc.pre ≤ T.cfg.preamble
  other_pre     : T.enc.sub ≠ .preamble → T.enc.pre = 0
  outside_group : T.enc.sub ≠ .data → T.enc.sub ≠ .checksum → T.enc.byteIdx = 0 ∧ T.enc.bitPos = 0
  bit_range     : T.enc.bitPos ≤ 8

/-- The signal pins and the compare register follow the position (10_state.md R14, R23, R27, R28): `sigA` is high
exactly in the first half, `sigB` is there exactly in `DUAL_INVERTED` and is its complement, and the armed duration is
the half-period of the bit on the wire. -/
structure SignalInv (p : BlockParams) (T : TrackUnit) : Prop where
  sigA_half : T.pins.sigA = .high ↔ T.enc.half = .first
  sigB_dual : T.pins.sigB = if T.cfg.scheme = .dualInverted then some (complement T.pins.sigA) else none
  armed     : ∀ b, curBit p.bitOrder T.enc = some b → T.compare = halfPeriod p b

/-- Where a receiver stands that has read every bit up to and with the one on the wire, when the encoder is at this
position. -/
def ScanPhase.Follows (o : BitOrder) (e : Encoder) : ScanPhase → Prop
  | .ones c =>
    (e.sub = .idle ∨ (e.sub = .preamble ∧ e.pre ≤ c) ∨ (e.sub = .ending ∧ c = 1))
  | .group done bits =>
    (e.sub = .data ∨ e.sub = .checksum) ∧ done = e.pkt.take e.byteIdx ∧
      ∃ b, e.pkt[e.byteIdx]? = some b ∧ bits = (byteBits o b).take e.bitPos

/-- The trace with the bit on the wire finished: in the first half its second half is still to come, at the armed
duration (40_encoder.md R81). -/
def finishedWire (T : TrackUnit) : List Half :=
  match T.enc.half with
  | .first => T.wire ++ [⟨.low, T.compare⟩]
  | .second => T.wire

/-- The trace holds whole bits: it ends in a first half exactly when a first half is on the wire. -/
def wireParity (T : TrackUnit) : Prop :=
  match T.enc.half with
  | .first => ∃ w d, T.wire = w ++ [⟨.high, d⟩] ∧ w.length % 2 = 0 ∧ T.compare = d
  | .second => T.wire.length % 2 = 0

/-- The packets a receiver has read from the trace (30_encoding.md R66), `none` when the trace is malformed. -/
def packetsOnWire (p : BlockParams) (T : TrackUnit) : Option (List Packet) :=
  (bitsOf p.halfOne (finishedWire T)).bind (framesOf p.bitOrder T.cfg.preamble)

/-- The ghost trace decodes (30_encoding.md R66): its halves pair into bits, its bits are well-formed frames, and the
receiver stands where the encoder's position is. -/
def TraceInv (p : BlockParams) (T : TrackUnit) : Prop :=
  wireParity T ∧
    ∃ bits σ, bitsOf p.halfOne (finishedWire T) = some bits ∧
      scanBits p.bitOrder T.cfg.preamble .start bits = some σ ∧ ScanPhase.Follows p.bitOrder T.enc σ.phase

/-! ### The queue -/

/-- An entry of the ring is well formed (10_state.md R18). -/
structure EntryOk (p : BlockParams) (e : Entry) : Prop where
  pkt_valid : valid p.maxPacketBytes e.pkt = true
  periodic  : e.periodic = true → e.repeats = 0
  oneShot   : e.periodic = false → 1 ≤ e.repeats ∧ e.repeats ≤ p.maxRepeat ∧ e.tag = 0

/-- The tags of the periodic entries of a ring. -/
def periodicTags (ring : List Entry) : List Byte := (ring.filter Entry.periodic).map Entry.tag

/-- The storage of the queue is in its form (10_state.md R18; 41_queue.md R103): the ring is within its capacity, its
entries are well formed, no two periodic entries share a tag, and the slot holds a valid packet when it is ready. -/
structure QueueInv (p : BlockParams) (T : TrackUnit) : Prop where
  capacity : T.ring.length ≤ T.cfg.cap
  entries  : ∀ e ∈ T.ring, EntryOk p e
  tags     : (periodicTags T.ring).Nodup
  slot     : ∀ q, T.slot = some q → valid p.maxPacketBytes q = true

/-- Service the queue and let the encoder take the packet, `n` times: the packets handed over, in order
(41_queue.md R108; 40_encoder.md R84). -/
def handOffs : Nat → TrackUnit → List (Option Packet) × TrackUnit
  | 0, T => ([], T)
  | n + 1, T =>
    let taken := nextPacket (refill T)
    let rest := handOffs n taken.2
    (taken.1 :: rest.1, rest.2)

/-! ### The supervisor -/

/-- The enable invariant (10_state.md R24). -/
def PowerInv (_p : BlockParams) (T : TrackUnit) : Prop :=
  T.pins.enable = if T.sup.powerReq = true ∧ T.sup.tripped = false then .high else .low

/-- The brake pin is there exactly in `BRAKE_ENABLE` and follows the brake request (10_state.md R23, R27;
42_supervisor.md R132, R133). -/
def BrakeInv (_p : BlockParams) (T : TrackUnit) : Prop :=
  T.pins.brake = (if T.cfg.scheme = .brakeEnable then some (brakeLevel T.sup.brakeReq) else none) ∧
    (T.cfg.scheme ≠ .brakeEnable → T.sup.brakeReq = false)

/-- The smoothed reading is a reading the converter could give (42_supervisor.md R122). -/
def ReadingInv (p : BlockParams) (T : TrackUnit) : Prop :=
  0 ≤ T.sup.reading ∧ T.sup.reading ≤ 2 ^ p.adcBits - 1

/-- The times the supervisor remembers are times the clock has reached (42_supervisor.md R125), on both units. -/
def ClockInv (s : State) : Prop :=
  ∀ t, (s.unit t).sup.lastSampleTime ≤ s.clock ∧ ∀ n, (s.unit t).sup.trip = some n → n ≤ s.clock

/-- The reading after the samples of a list, oldest first (42_supervisor.md R122). -/
def smoothAll (alpha reading : Rat) : List Nat → Rat
  | [] => reading
  | raw :: raws => smoothAll alpha (smooth alpha reading raw) raws

/-! ### Words for statements -/

/-- The FRAME row of a packet: there is one for each legal length of the table, 2 to 6. -/
def frameInstr (t : Track) : Packet → Option Instr
  | [a, b] => some (.frame2 t a b)
  | [a, b, c] => some (.frame3 t a b c)
  | [a, b, c, d] => some (.frame4 t a b c d)
  | [a, b, c, d, e] => some (.frame5 t a b c d e)
  | [a, b, c, d, e, f] => some (.frame6 t a b c d e f)
  | _ => none

/-- A track unit whose TICK has moved the position to `e` and starts a half of a bit of value `bit` at level `l`
(40_encoder.md R89; 10_state.md R26): the signal pins, the compare register and the ghost trace follow, and the tick is
no longer pending. -/
def driven (p : BlockParams) (T : TrackUnit) (e : Encoder) (l : Level) (bit : Bit) : TrackUnit :=
  { T with
    enc := e
    pins := { T.pins with
      sigA := l
      sigB := if T.cfg.scheme = .dualInverted then some (if l = .high then .low else .high) else T.pins.sigB }
    compare := if bit = true then p.halfOne else p.halfZero
    pending := false
    wire := T.wire ++ [{ level := l, duration := if bit = true then p.halfOne else p.halfZero }] }

/-- The operands of an ENQ whose head and flags are legal (41_queue.md R101, first two lines) and whose repeat count is in
the range of R100. -/
def enqOperandsLegal (p : BlockParams) (rsv : BitVec 3) (f : EnqFlags) : Prop :=
  rsv = 0 ∧ f.rsv = 0 ∧ (f.periodic = true ↔ f.repeats = 0) ∧ (f.periodic = false → f.repeats ≤ p.maxRepeat)

/-- An entry is the periodic entry of a tag (41_queue.md R103, R105). -/
def IsPeriodicOf (tag : Byte) (e : Entry) : Prop := e.periodic = true ∧ e.tag = tag

/-- The compare interrupts of both units are enabled (60_exceptions.md R157). -/
def TimersOn (s : State) : Prop := s.main.timerOn = true ∧ s.prog.timerOn = true

/-- The reserved head bits of an instruction, 0 where it has none. -/
def reservedBits : Instr → BitVec 3
  | .tick _ rsv => rsv
  | .check _ rsv _ _ => rsv
  | .service _ rsv => rsv
  | .enq _ rsv _ _ _ => rsv
  | .cancel _ rsv _ => rsv
  | .pwron _ rsv => rsv
  | .pwroff _ rsv => rsv
  | .brkon _ rsv => rsv
  | .brkoff _ rsv => rsv
  | .qpwr _ rsv => rsv
  | .qtrip _ rsv => rsv
  | .qcur _ rsv => rsv
  | .reservedC _ => 0
  | .reservedD _ => 0
  | .reservedE _ => 0
  | .reservedF _ => 0
  | .frame2 _ _ _ => 0
  | .frame3 _ _ _ _ => 0
  | .frame4 _ _ _ _ _ => 0
  | .frame5 _ _ _ _ _ _ => 0
  | .frame6 _ _ _ _ _ _ _ => 0

/-- A good state: everything above together (10_state.md R14, R24; 60_exceptions.md R165). -/
structure Good (s : State) : Prop where
  encoder : Each EncoderInv s
  signal  : Each SignalInv s
  trace   : Each TraceInv s
  queue   : Each QueueInv s
  power   : Each PowerInv s
  brake   : Each BrakeInv s
  reading : Each ReadingInv s
  clock   : ClockInv s
  timers  : TimersOn s

end Sys2Proof.Safety
end

