-- ==== Sys2Proof/Certificates/Slice0/Obligations.lean ====
section
/-!
DEFINITION. The statements for the provers, from the numbered rules of spec/. Each is about every state, configuration
and operand its hypotheses admit. The configuration of the block is part of the state, so no statement rests on the
example values of notes/assumptions/2.md but where it says so.
-/

open Sys2Proof Sys2Proof.Machine Sys2Proof.Safety

/-! ### Step words -/

/-- 30_encoding.md R69, R72, R75 on words written out from the spec, and the opcode table's rows: a head byte matches
one row when its operation number is reserved or its reserved bits are 0, and none otherwise. -/
def Obligations.StepWordsDecodeAsTheTableSays : Prop :=
  decodeStep 10 [0x00] = .ok (.tick .main 0, []) ∧
  decodeStep 10 [0x10, 0x0A, 0x00, 0x00, 0x00, 0x58, 0x02] = .ok (.check .main 0 10 600, []) ∧
  decodeStep 10 [0x21, 0x00] = .ok (.service .prog 0, [0x00]) ∧
  decodeStep 10 [0x30, 0x80, 0x09, 0x03, 0x03, 0x3F, 0x3C] =
    .ok (.enq .main 0 { periodic := true, rsv := 0, repeats := 0 } 9 [0x03, 0x3F, 0x3C], []) ∧
  decodeStep 10 [0x40, 0x07] = .ok (.cancel .main 0 7, []) ∧
  decodeStep 10 [0x51] = .ok (.pwron .prog 0, []) ∧
  decodeStep 10 [0xB1] = .ok (.qcur .prog 0, []) ∧
  decodeStep 10 [0x02] = .ok (.tick .main 1, []) ∧
  decodeStep 10 [0xD1] = .ok (.reservedD 1, []) ∧
  decodeStep 10 [0x10, 0x0A, 0x00, 0x00, 0x00, 0x00, 0x04] = .error .analogOutOfRange ∧
  ∀ h : Byte, (stepRows.filter fun r => r.hits h).length =
    if 12 ≤ (headOp h).toNat ∨ headRsv h = 0 then 1 else 0

/-- Decoding the encoding of any well-formed instruction gives it back, every operand at every value: a step word also
at the head of a longer stream, which is left as it was, and a frame pattern under either bit order. -/
def Obligations.DecodeOfEncodeIsTheInstruction : Prop :=
  ∀ (p : BlockParams) (i : Instr), wellFormed p i = true →
    decode p (encode p.bitOrder i) = some i ∧
    ∀ bytes rest, encode p.bitOrder i = .step bytes → decodeStep p.adcBits (bytes ++ rest) = .ok (i, rest)

/-- Each step word has one meaning: what the decoder reads is exactly the encoding of the instruction it gives. -/
def Obligations.WhatDecodesIsTheEncoding : Prop :=
  ∀ (p : BlockParams) (o : BitOrder) (bs rest : List Byte) (i : Instr),
    decodeStep p.adcBits bs = .ok (i, rest) →
      wellFormed p i = true ∧ ∃ bytes, encode o i = .step bytes ∧ bs = bytes ++ rest

/-- A stream that ends inside an operation is refused, by the decoder and by the step. -/
def Obligations.TruncatedStepWordsAreRefused : Prop :=
  ∀ (p : BlockParams) (i : Instr) (bytes : List Byte) (k : Nat), wellFormed p i = true →
    encode p.bitOrder i = .step bytes → 0 < k → k < bytes.length →
      decodeStep p.adcBits (bytes.take k) = .error .truncated ∧
      ∀ s : State, s.configOk = true → s.main.pending = false → s.prog.pending = false → s.params = p →
        s.issued = [] → s.schedule = bytes.take k → step s = .refused .truncated

/-- One step is the meaning of the operation decoded at the head of the schedule, with the schedule moved past it, or of
the first issued operation where there is one (given as an operation and not as a word: the model's choice,
notes/assumptions/25.md). That a pending tick is served before either, and `MAIN` before `PROG`, is the model's choice
among the orders 60_exceptions.md R160 allows (notes/assumptions/5.md). An illegal configuration is refused, and so is
the end of a schedule (notes/assumptions/10.md). -/
def Obligations.StepRunsTheDecodedOperation : Prop :=
  ∀ s : State,
    (s.configOk = false → step s = .refused .badConfiguration) ∧
    (s.configOk = true →
      (s.main.pending = true → step s = exec (.tick .main 0) s) ∧
      (s.main.pending = false → s.prog.pending = true → step s = exec (.tick .prog 0) s) ∧
      (s.main.pending = false → s.prog.pending = false →
        (∀ i rest, s.issued = i :: rest → step s = exec i { s with issued := rest }) ∧
        (s.issued = [] → ∀ i rest, decodeStep s.params.adcBits s.schedule = .ok (i, rest) →
          step s = exec i { s with schedule := rest }) ∧
        (s.issued = [] → s.schedule = [] → step s = .refused .scheduleEnded)))

/-- A compare match makes the tick pending, and one TICK serves it and clears it (60_exceptions.md R158). That the very
next step serves it, before any other operation, is the model's choice (notes/assumptions/5.md: R160 b allows any
interleaving); that a second match before the first is served is refused, as breaking the contract of R158, is
notes/assumptions/20.md. -/
def Obligations.ACompareMatchIsServedByOneTick : Prop :=
  ∀ (s : State) (t : Track), s.configOk = true → (s.unit t).timerOn = true → s.main.pending = false →
    s.prog.pending = false →
      compareMatch t s = .next (s.setUnit t { s.unit t with pending := true }) ∧
      compareMatch t (s.setUnit t { s.unit t with pending := true }) = .refused .matchUnserved ∧
      step (s.setUnit t { s.unit t with pending := true }) =
        exec (.tick t 0) (s.setUnit t { s.unit t with pending := true }) ∧
      ∀ s', step (s.setUnit t { s.unit t with pending := true }) = .next s' →
        (s'.unit t).pending = false ∧ s'.schedule = s.schedule ∧ s'.issued = s.issued

/-- The status bytes of the results, and which operations return one (30_encoding.md R71): TICK, CHECK and SERVICE, and
the TICKs of a frame, return nothing; every other operation returns a result. -/
def Obligations.ResultsHaveTheirStatusBytes : Prop :=
  Result.status .success = 0x00 ∧ Result.status (.answer false) = 0x00 ∧ Result.status (.answer true) = 0x01 ∧
  (∀ q, Result.status (.current q) = 0x00) ∧
  Result.status (.rejected .tooShort) = 0x10 ∧ Result.status (.rejected .tooLong) = 0x11 ∧
  Result.status (.rejected .badChecksum) = 0x12 ∧ Result.status (.rejected .queueFull) = 0x13 ∧
  Result.status (.rejected .badOperand) = 0x14 ∧ Result.status (.rejected .unsupported) = 0x15 ∧
  Result.status (.rejected .notFound) = 0x16 ∧
  ∀ (i : Instr) (s s' : State), exec i s = .next s' →
    (s'.result = none ↔ instrContext i = .interrupt ∨ (∃ t rsv now raw, i = .check t rsv now raw) ∨
      ∃ t rsv, i = .service t rsv)

/-- Reserved words. An operation number 0xC to 0xF is one byte long and `UNSUPPORTED` whatever the rest of the head
byte is; reserved head bits on a defined operation change nothing and are `BAD_OPERAND` where the operation has a
result. -/
def Obligations.ReservedWordsChangeNothing : Prop :=
  (∀ (s : State) (adcBits : Nat) (h : Byte) (rest : List Byte), 12 ≤ (headOp h).toNat →
    ∃ i, decodeStep adcBits (h :: rest) = .ok (i, rest) ∧
      exec i s = .next { s with result := some (.rejected .unsupported) }) ∧
  (∀ (s : State) (low : BitVec 4),
    exec (.reservedC low) s = .next { s with result := some (.rejected .unsupported) } ∧
    exec (.reservedD low) s = .next { s with result := some (.rejected .unsupported) } ∧
    exec (.reservedE low) s = .next { s with result := some (.rejected .unsupported) } ∧
    exec (.reservedF low) s = .next { s with result := some (.rejected .unsupported) }) ∧
  ∀ (s : State) (i : Instr), reservedBits i ≠ 0 →
    exec i s = .next { s with result :=
      match i with
      | .tick _ _ => none
      | .check _ _ _ _ => none
      | .service _ _ => none
      | _ => some (.rejected .badOperand) }

/-! ### The wire format -/

/-- A frame's length in bits and in halves, and the bit at each of its positions (30_encoding.md R63), the bits of a
byte in either order of R62. -/
def Obligations.FrameFieldsStandAtTheirPositions : Prop :=
  ∀ (o : BitOrder) (n : Nat) (p : Packet),
    (frame o n p).length = n + 9 * p.length + 1 ∧
    (∀ q : BlockParams, (halvesOf q (frame o n p)).length = 2 * (n + 9 * p.length + 1)) ∧
    (∀ i < n, (frame o n p)[i]? = some true) ∧
    (∀ i < p.length, (frame o n p)[n + 9 * i]? = some false) ∧
    (∀ i b, p[i]? = some b → ∀ k, 1 ≤ k → k ≤ 8 →
      (frame o n p)[n + 9 * i + k]? =
        some (match o with | .msbFirst => b.getLsbD (8 - k) | .lsbFirst => b.getLsbD (k - 1))) ∧
    (frame o n p)[n + 9 * p.length]? = some true

/-- A receiver reads back exactly the packets of a stream of frames with any number of idle 1 bits before, between and
after them (30_encoding.md R66, R67): the round-trip law, for packets of any non-zero length. -/
def Obligations.AStreamOfFramesDecodesToItsPackets : Prop :=
  ∀ (o : BitOrder) (n : Nat) (frames : List (Nat × Packet)) (tail : Nat), (∀ f ∈ frames, f.2 ≠ []) →
    framesOf o n (frames.flatMap (fun f => List.replicate f.1 true ++ frame o n f.2) ++ List.replicate tail true) =
      some (frames.map Prod.snd)

/-- The halves of a run of bits pair back into the bits (30_encoding.md R61, R66), where the two half-periods differ. -/
def Obligations.HalvesOfBitsPairBackIntoTheBits : Prop :=
  ∀ (p : BlockParams) (bits : List Bit), p.halfOne < p.halfZero →
    bitsOf p.halfOne (halvesOf p bits) = some bits ∧ (halvesOf p bits).length = 2 * bits.length

/-- The armed duration of a frame with `z` zero bits among its byte bits (70_reset_and_hazards.md R198). -/
def Obligations.ArmedDurationOfAFrame : Prop :=
  ∀ (p : BlockParams) (n z : Nat) (q : Packet),
    z = (q.flatMap (byteBits p.bitOrder)).count false →
      armedTotal (halvesOf p (frame p.bitOrder n q)) =
        ((n : Rat) + 1 + 8 * q.length - z) * (2 * p.halfOne) + ((q.length : Rat) + z) * (2 * p.halfZero)

/-- A packet is valid exactly when its length is in range and its last byte is the exclusive-or of those before it,
which is to say that the exclusive-or of all its bytes is 0 (30_encoding.md R64). -/
def Obligations.ValidMeansTheBytesXorToZero : Prop :=
  (∀ (maxLen : Nat) (p : Packet),
    valid maxLen p = true ↔ 2 ≤ p.length ∧ p.length ≤ maxLen ∧ checksum p = 0) ∧
  (∀ (maxLen : Nat) (p : Packet) (b : Byte),
    valid maxLen (p ++ [b]) = true ↔ 2 ≤ p.length + 1 ∧ p.length + 1 ≤ maxLen ∧ b = checksum p) ∧
  checksum [] = 0 ∧ (∀ bs b, checksum (bs ++ [b]) = checksum bs ^^^ b) ∧ valid 6 [0x03, 0x3F, 0x3C] = true

/-! ### TICK -/

/-- The bit the position names (10_state.md R15), by sub-state and position. -/
def Obligations.CurrentBitIsTheBitOfThePosition : Prop :=
  ∀ (o : BitOrder) (e : Encoder),
    (e.sub = .idle ∨ e.sub = .preamble ∨ e.sub = .ending → curBit o e = some true) ∧
    (e.sub = .data ∨ e.sub = .checksum →
      (e.bitPos = 0 → curBit o e = some false) ∧
      ∀ b, e.pkt[e.byteIdx]? = some b → 1 ≤ e.bitPos → e.bitPos ≤ 8 →
        curBit o e =
          some (match o with | .msbFirst => b.getLsbD (8 - e.bitPos) | .lsbFirst => b.getLsbD (e.bitPos - 1)))

/-- In the middle of a bit TICK changes nothing of the position but the half, and starts the second half of the same
bit (40_encoder.md R81); the slot is not touched, and the half has the duration of the first half, the one armed. -/
def Obligations.TickInTheMiddleOfABit : Prop :=
  ∀ (s : State) (t : Track) (b : Bit), (s.unit t).timerOn = true → (s.unit t).enc.half = .first →
    curBit s.params.bitOrder (s.unit t).enc = some b →
      exec (.tick t 0) s = .next { s.setUnit t
        (driven s.params (s.unit t) { (s.unit t).enc with half := .second } .low b) with result := none } ∧
      (SignalInv s.params (s.unit t) →
        (driven s.params (s.unit t) { (s.unit t).enc with half := .second } .low b).compare = (s.unit t).compare)

/-- At the end of an idle bit or of a packet-end bit, a valid packet in the slot is loaded, the slot is freed and the
first preamble bit starts. -/
def Obligations.TickLoadsAValidPacket : Prop :=
  ∀ (s : State) (t : Track) (q : Packet), (s.unit t).timerOn = true → (s.unit t).enc.half = .second →
    ((s.unit t).enc.sub = .idle ∨ (s.unit t).enc.sub = .ending) → (s.unit t).slot = some q →
    valid s.params.maxPacketBytes q = true →
      exec (.tick t 0) s = .next { s.setUnit t
        (driven s.params { s.unit t with slot := none }
          { sub := .preamble, half := .first, pre := 1, byteIdx := 0, bitPos := 0, pkt := q } .high true)
        with result := none }

/-- With no packet in the slot, or a malformed one, the encoder idles; the malformed packet is consumed and nothing is
reported. -/
def Obligations.TickIdlesWithoutAValidPacket : Prop :=
  ∀ (s : State) (t : Track), (s.unit t).timerOn = true → (s.unit t).enc.half = .second →
    ((s.unit t).enc.sub = .idle ∨ (s.unit t).enc.sub = .ending) →
    (∀ q, (s.unit t).slot = some q → valid s.params.maxPacketBytes q = false) →
      exec (.tick t 0) s = .next { s.setUnit t
        (driven s.params { s.unit t with slot := none }
          { sub := .idle, half := .first, pre := 0, byteIdx := 0, bitPos := 0, pkt := [] } .high true)
        with result := none }

/-- From the preamble: another preamble bit, or the start bit of byte 0. -/
def Obligations.TickInThePreamble : Prop :=
  ∀ (s : State) (t : Track), (s.unit t).timerOn = true → (s.unit t).enc.half = .second →
    (s.unit t).enc.sub = .preamble →
      ((s.unit t).enc.pre < (s.unit t).cfg.preamble →
        exec (.tick t 0) s = .next { s.setUnit t
          (driven s.params (s.unit t)
            { (s.unit t).enc with half := .first, pre := (s.unit t).enc.pre + 1 } .high true) with result := none }) ∧
      ((s.unit t).cfg.preamble ≤ (s.unit t).enc.pre →
        exec (.tick t 0) s = .next { s.setUnit t
          (driven s.params (s.unit t)
            { (s.unit t).enc with sub := .data, half := .first, pre := 0, byteIdx := 0, bitPos := 0 } .high false)
          with result := none })

/-- From a byte group: the next bit of the byte, the separator before the next byte, or the packet-end bit. -/
def Obligations.TickInAByteGroup : Prop :=
  ∀ (s : State) (t : Track), (s.unit t).timerOn = true → (s.unit t).enc.half = .second →
    ((s.unit t).enc.sub = .data ∨ (s.unit t).enc.sub = .checksum) →
      (∀ b, (s.unit t).enc.bitPos < 8 → (s.unit t).enc.pkt[(s.unit t).enc.byteIdx]? = some b →
        exec (.tick t 0) s = .next { s.setUnit t
          (driven s.params (s.unit t)
            { (s.unit t).enc with half := .first, bitPos := (s.unit t).enc.bitPos + 1 } .high
            (match s.params.bitOrder with
              | .msbFirst => b.getLsbD (7 - (s.unit t).enc.bitPos)
              | .lsbFirst => b.getLsbD (s.unit t).enc.bitPos)) with result := none }) ∧
      (8 ≤ (s.unit t).enc.bitPos → (s.unit t).enc.byteIdx + 1 < (s.unit t).enc.pkt.length →
        exec (.tick t 0) s = .next { s.setUnit t
          (driven s.params (s.unit t)
            { (s.unit t).enc with
              sub := if (s.unit t).enc.byteIdx + 2 = (s.unit t).enc.pkt.length then .checksum else .data
              half := .first
              byteIdx := (s.unit t).enc.byteIdx + 1
              bitPos := 0 } .high false) with result := none }) ∧
      (8 ≤ (s.unit t).enc.bitPos → (s.unit t).enc.pkt.length ≤ (s.unit t).enc.byteIdx + 1 →
        exec (.tick t 0) s = .next { s.setUnit t
          (driven s.params (s.unit t)
            { (s.unit t).enc with sub := .ending, half := .first, byteIdx := 0, bitPos := 0 } .high true)
          with result := none })

/-- TICK always completes on a state that meets the position's invariants, and leaves one more half, with the level
opposite to the half before it and the duration armed. Where it stops, in states no run reaches: it is refused exactly
when the interrupt is not enabled (the model's reading, notes/assumptions/20.md), and it faults exactly when the half
to start belongs to a bit that the packet does not have (the model's reading of 10_state.md R35,
notes/assumptions/14.md), in the middle of a bit or at the boundary before a bit of a byte. -/
def Obligations.TickCompletesUnderThePositionInvariant : Prop :=
  ∀ (s : State) (t : Track),
    ((s.unit t).timerOn = true → EncoderInv s.params (s.unit t) →
      ∃ s' h, exec (.tick t 0) s = .next s' ∧ (s'.unit t).wire = (s.unit t).wire ++ [h] ∧
        (s'.unit t).compare = h.duration ∧ (s'.unit t).pins.sigA = h.level ∧
        (h.duration = s.params.halfOne ∨ h.duration = s.params.halfZero) ∧
        (h.level = .high ↔ (s.unit t).enc.half = .second) ∧ ((s'.unit t).enc.half = .first ↔ h.level = .high)) ∧
    (∀ r, exec (.tick t 0) s = .refused r ↔ (s.unit t).timerOn = false ∧ r = .timerOff) ∧
    (exec (.tick t 0) s = .fault .noValue ↔ (s.unit t).timerOn = true ∧
      (((s.unit t).enc.half = .first ∧ curBit s.params.bitOrder (s.unit t).enc = none) ∨
       ((s.unit t).enc.half = .second ∧ ((s.unit t).enc.sub = .data ∨ (s.unit t).enc.sub = .checksum) ∧
         (s.unit t).enc.bitPos < 8 ∧ (s.unit t).enc.pkt[(s.unit t).enc.byteIdx]? = none)))

/-- What TICK leaves unchanged: everything but the position, the slot (which it can only empty), the signal pins, the
compare register, the pending tick, the ghost trace and the result. In the middle of a bit the slot stays too. -/
def Obligations.TickLeavesTheRestUnchanged : Prop :=
  ∀ (s s' : State) (t : Track) (rsv : BitVec 3), exec (.tick t rsv) s = .next s' →
    s'.params = s.params ∧ s'.clock = s.clock ∧ s'.schedule = s.schedule ∧ s'.issued = s.issued ∧ s'.result = none ∧
    s'.unit (otherTrack t) = s.unit (otherTrack t) ∧
    (s'.unit t).cfg = (s.unit t).cfg ∧ (s'.unit t).ring = (s.unit t).ring ∧ (s'.unit t).sup = (s.unit t).sup ∧
    (s'.unit t).pins.enable = (s.unit t).pins.enable ∧ (s'.unit t).pins.brake = (s.unit t).pins.brake ∧
    ((s.unit t).cfg.scheme ≠ .dualInverted → (s'.unit t).pins.sigB = (s.unit t).pins.sigB) ∧
    (s'.unit t).timerOn = (s.unit t).timerOn ∧
    ((s'.unit t).slot = (s.unit t).slot ∨ (s'.unit t).slot = none) ∧
    ((s.unit t).enc.half = .first → (s'.unit t).slot = (s.unit t).slot)

/-- TICK does not read the supervisor or the enable and brake pins (40_encoder.md R90): with any other values there it
does the same, and leaves those values. -/
def Obligations.TickIsIndependentOfTheSupervisor : Prop :=
  ∀ (s s' : State) (t : Track) (rsv : BitVec 3) (v : Supervisor) (en : Level) (br : Option Level),
    exec (.tick t rsv) s = .next s' →
      exec (.tick t rsv)
        (s.setUnit t { s.unit t with sup := v, pins := { (s.unit t).pins with enable := en, brake := br } }) =
      .next (s'.setUnit t { s'.unit t with sup := v, pins := { (s'.unit t).pins with enable := en, brake := br } })

/-- With an empty slot the encoder emits 1 bits for ever (40_encoder.md R92 item 4): after any number of whole bits the
trace has grown by so many 1 bits and the position is where it was. -/
def Obligations.AnEmptySlotGivesAnUnbrokenIdleStream : Prop :=
  ∀ (s : State) (t : Track) (n : Nat), (s.unit t).timerOn = true → (s.unit t).enc.half = .second →
    (s.unit t).enc.sub = .idle → (s.unit t).slot = none → (s.unit t).enc.pre = 0 → (s.unit t).enc.byteIdx = 0 →
    (s.unit t).enc.bitPos = 0 → (s.unit t).enc.pkt = [] →
      ∃ s', runTicks (2 * n) t s = .next s' ∧ (s'.unit t).enc = (s.unit t).enc ∧ (s'.unit t).slot = none ∧
        (s'.unit t).wire = (s.unit t).wire ++ halvesOf s.params (List.replicate n true)

/-! ### The FRAME rows -/

/-- Exactly the frame of a packet goes on the wire (30_encoding.md R63; 40_encoder.md R92 item 3, R94), for every valid
packet of any length: where the encoder asks for a packet and the slot holds this one, the TICKs of the frame append its
halves and nothing else, consume the packet, and end on the packet-end bit; and so does the FRAME row of the packet, for
the lengths that have a row. That a FRAME row stands for these TICKs is the model's reading (notes/assumptions/6.md). -/
def Obligations.AFrameRowEmitsExactlyItsFrame : Prop :=
  ∀ (s : State) (t : Track) (q : Packet), (s.unit t).timerOn = true →
    (s.unit t).enc.half = .second → ((s.unit t).enc.sub = .idle ∨ (s.unit t).enc.sub = .ending) →
    (s.unit t).slot = some q → valid s.params.maxPacketBytes q = true → 1 ≤ (s.unit t).cfg.preamble →
      let sent : State := { s.setUnit t
        { s.unit t with
          enc := { sub := .ending, half := .second, pre := 0, byteIdx := 0, bitPos := 0, pkt := q }
          slot := none
          pins := { (s.unit t).pins with
            sigA := .low
            sigB := if (s.unit t).cfg.scheme = .dualInverted then some .high else (s.unit t).pins.sigB }
          compare := s.params.halfOne
          pending := false
          wire := (s.unit t).wire ++
            halvesOf s.params (frame s.params.bitOrder (s.unit t).cfg.preamble q) } with result := none }
      runTicks (2 * ((s.unit t).cfg.preamble + 9 * q.length + 1)) t s = .next sent ∧
      ∀ i, frameInstr t q = some i → exec i s = .next sent

/-- Where a FRAME row stops: the interrupt of that track is not enabled, so that there is no TICK to run
(60_exceptions.md R157; the model's reading, notes/assumptions/20.md), or its frame is not what the encoder sends next
(the model's reading, notes/assumptions/6.md). -/
def Obligations.AFrameRowStopsWhereItsFrameIsNotNext : Prop :=
  ∀ (s : State) (t : Track) (q : Packet) (i : Instr), frameInstr t q = some i →
    ((s.unit t).timerOn = false → exec i s = .refused .timerOff) ∧
    ((s.unit t).timerOn = true →
      ((s.unit t).enc.half = .first ∨ ((s.unit t).enc.sub ≠ .idle ∧ (s.unit t).enc.sub ≠ .ending) ∨
        (s.unit t).slot ≠ some q ∨ valid s.params.maxPacketBytes q = false) →
      exec i s = .refused .frameNotNext)

/-! ### The queue -/

/-- The rejections of ENQ and their order (41_queue.md R101, R104, R106; 60_exceptions.md R150 to R152, R154, R159,
R160 c): the first check that fails gives the reason, and a rejection changes nothing. A repeat count over `MAX_REPEAT` is
the subject of `ARepeatCountOverItsMaximumIsRejected`. -/
def Obligations.EnqRejectsInItsOrder : Prop :=
  ∀ (s : State) (t : Track) (rsv : BitVec 3) (f : EnqFlags) (tag : Byte) (p : Packet),
    let rejects := fun r => exec (.enq t rsv f tag p) s = .next { s with result := some (.rejected r) }
    (rsv ≠ 0 ∨ f.rsv ≠ 0 → rejects .badOperand) ∧
    ((f.periodic = false ∧ f.repeats = 0) ∨ (f.periodic = true ∧ f.repeats ≠ 0) → rejects .badOperand) ∧
    (enqOperandsLegal s.params rsv f →
      (p.length < 2 → rejects .tooShort) ∧
      (2 ≤ p.length → s.params.maxPacketBytes < p.length → rejects .tooLong) ∧
      (2 ≤ p.length → p.length ≤ s.params.maxPacketBytes → p.getLast? ≠ some (checksum p.dropLast) →
        rejects .badChecksum) ∧
      (valid s.params.maxPacketBytes p = true → (s.unit t).cfg.cap ≤ (s.unit t).ring.length →
        (f.periodic = true → ∀ e ∈ (s.unit t).ring, ¬ IsPeriodicOf tag e) → rejects .queueFull))

/-- An accepted ENQ (41_queue.md R100, R102, R103): the new entry goes to the tail, in place of the periodic entry of
its tag when there is one, which needs no free entry, and the slot is refilled. -/
def Obligations.EnqAppendsOrReplacesAndRefills : Prop :=
  ∀ (s : State) (t : Track) (rsv : BitVec 3) (f : EnqFlags) (tag : Byte) (p : Packet),
    enqOperandsLegal s.params rsv f → valid s.params.maxPacketBytes p = true →
      let e : Entry :=
        { pkt := p
          periodic := f.periodic
          tag := if f.periodic = true then tag else 0
          repeats := if f.periodic = true then 0 else f.repeats }
      let accepts := fun ring => exec (.enq t rsv f tag p) s =
        .next { s.setUnit t (refill { s.unit t with ring := ring ++ [e] }) with result := some .success }
      ((f.periodic = true → ∀ x ∈ (s.unit t).ring, ¬ IsPeriodicOf tag x) →
        (s.unit t).ring.length < (s.unit t).cfg.cap → accepts (s.unit t).ring) ∧
      (∀ before x after, f.periodic = true → (s.unit t).ring = before ++ x :: after → IsPeriodicOf tag x →
        (∀ y ∈ before, ¬ IsPeriodicOf tag y) → accepts (before ++ after))

/-- CANCEL (41_queue.md R105): the periodic entry of the tag goes, the order of the others is kept, the slot is not
refilled; without one the answer is `NOT_FOUND` and nothing changes. -/
def Obligations.CancelRemovesThePeriodicEntry : Prop :=
  ∀ (s : State) (t : Track) (tag : Byte),
    (∀ before x after, (s.unit t).ring = before ++ x :: after → IsPeriodicOf tag x →
      (∀ y ∈ before, ¬ IsPeriodicOf tag y) →
        exec (.cancel t 0 tag) s =
          .next { s.setUnit t { s.unit t with ring := before ++ after } with result := some .success }) ∧
    ((∀ e ∈ (s.unit t).ring, ¬ IsPeriodicOf tag e) →
      exec (.cancel t 0 tag) s = .next { s with result := some (.rejected .notFound) }) ∧
    (∀ rsv : BitVec 3, rsv ≠ 0 →
      exec (.cancel t rsv tag) s = .next { s with result := some (.rejected .badOperand) }) ∧
    ∀ o, encode o (.cancel .main 0 tag) = .step [0x40, tag] ∧ encode o (.cancel .prog 0 tag) = .step [0x41, tag]

/-- SERVICE (41_queue.md R107, R108): the oldest entry is handed to a free slot; a periodic entry goes back to the tail,
a one-shot with transmissions left goes back owing one less, a last one-shot is discarded. With the slot full or the
ring empty nothing happens. -/
def Obligations.ServiceHandsOverTheOldestEntry : Prop :=
  ∀ (s : State) (t : Track),
    (∀ q, (s.unit t).slot = some q → exec (.service t 0) s = .next { s with result := none }) ∧
    ((s.unit t).ring = [] → exec (.service t 0) s = .next { s with result := none }) ∧
    (∀ e rest, (s.unit t).slot = none → (s.unit t).ring = e :: rest →
      exec (.service t 0) s = .next { s.setUnit t
        { s.unit t with
          slot := some e.pkt
          ring := rest ++
            (if e.periodic = true then [e]
             else if 1 < e.repeats then [{ e with repeats := e.repeats - 1 }]
             else []) } with result := none }) ∧
    ∀ o, encode o (.service .main 0) = .step [0x20] ∧ encode o (.service .prog 0) = .step [0x21]

/-- What the queue's operations leave unchanged: everything but the ring, the slot and the result; a packet in the slot
stays there (20_memory.md R50), and CANCEL does not touch the slot. -/
def Obligations.QueueOperationsLeaveTheRestUnchanged : Prop :=
  ∀ (s s' : State) (t : Track) (i : Instr),
    ((∃ rsv f tag p, i = .enq t rsv f tag p) ∨ (∃ rsv tag, i = .cancel t rsv tag) ∨ ∃ rsv, i = .service t rsv) →
    exec i s = .next s' →
      s'.params = s.params ∧ s'.clock = s.clock ∧ s'.schedule = s.schedule ∧ s'.issued = s.issued ∧
      s'.unit (otherTrack t) = s.unit (otherTrack t) ∧
      s'.unit t = { s.unit t with slot := (s'.unit t).slot, ring := (s'.unit t).ring } ∧
      (∀ q, (s.unit t).slot = some q → (s'.unit t).slot = some q) ∧
      ((∃ rsv tag, i = .cancel t rsv tag) → (s'.unit t).slot = (s.unit t).slot)

/-- Every step keeps the queue in its form (10_state.md R18; 41_queue.md R103): capacity, entries, one periodic entry
per tag, and a valid packet in a ready slot, so that the encoder's refusal of a malformed packet (40_encoder.md R86) is
never taken. The range of a repeat count is kept because a count over `MAX_REPEAT` is rejected, which is the model's
choice (notes/assumptions/26.md). -/
def Obligations.EveryStepKeepsTheQueueInvariant : Prop :=
  ∀ s s' : State, Each QueueInv s → step s = .next s' → Each QueueInv s'

/-- A one-shot entry alone in the ring is handed over exactly as often as it owes, and then is gone
(41_queue.md R102, R110). -/
def Obligations.AOneShotIsHandedOverAsOftenAsItOwes : Prop :=
  ∀ (T : TrackUnit) (e : Entry) (n : Nat), T.slot = none → T.ring = [e] → e.periodic = false → 1 ≤ e.repeats →
    handOffs (e.repeats + n) T =
      (List.replicate e.repeats (some e.pkt) ++ List.replicate n none, { T with ring := [] })

/-- Round robin (41_queue.md R109): in as many hand-offs as there are entries, each entry is handed over once, oldest
first, and what is re-appended stands in the same order. -/
def Obligations.TheRingIsServedRoundRobin : Prop :=
  ∀ T : TrackUnit, T.slot = none →
    handOffs T.ring.length T =
      (T.ring.map fun e => some e.pkt,
       { T with ring := T.ring.flatMap fun e =>
          if e.periodic = true then [e]
          else if 1 < e.repeats then [{ e with repeats := e.repeats - 1 }]
          else [] })

/-! ### The supervisor -/

/-- CHECK (42_supervisor.md R120 to R123, R126 to R129): with the environment's answers lawful it completes; a due
sample is taken in every power condition and smoothed exactly, the trip test comes first and is strict, the retry comes
second, is strict and looks at time alone. -/
def Obligations.CheckSamplesTripsAndRetries : Prop :=
  ∀ (s : State) (t : Track) (n raw : Nat), raw < 2 ^ s.params.adcBits → s.clock ≤ n →
      let v := (s.unit t).sup
      let c := (s.unit t).cfg
      let due := c.sampleInterval ≤ n - v.lastSampleTime
      let reading := if due then (raw : Rat) * c.alpha + v.reading * (1 - c.alpha) else v.reading
      let last := if due then n else v.lastSampleTime
      let trips := due ∧ (s.unit t).pins.enable = .high ∧ c.tripMA < reading * c.scale
      let ends := fun (sup : Supervisor) (enable : Level) => exec (.check t 0 n raw) s =
        .next { s.setUnit t { s.unit t with sup := sup, pins := { (s.unit t).pins with enable := enable } } with
          clock := n, result := none }
      (trips → ends { v with trip := some n, reading := reading, lastSampleTime := last } .low) ∧
      (¬ trips → v.trip = none →
        ends { v with reading := reading, lastSampleTime := last } (s.unit t).pins.enable) ∧
      (∀ since, ¬ trips → v.trip = some since → n - since ≤ c.retryInterval →
        ends { v with reading := reading, lastSampleTime := last } (s.unit t).pins.enable) ∧
      (∀ since, ¬ trips → v.trip = some since → c.retryInterval < n - since →
        ends { v with trip := none, reading := reading, lastSampleTime := last }
          (if v.powerReq = true then .high else .low))

/-- Answers of the environment that break its laws are no schedule (42_supervisor.md R124, R125; 30_encoding.md R72):
CHECK refuses them. That `raw` is tested first, and whether or not a sample is due, is the model's reading
(notes/assumptions/7.md); the clock that `now` is held against is notes/assumptions/13.md. -/
def Obligations.CheckRefusesUnlawfulAnswers : Prop :=
  ∀ (s : State) (t : Track) (now raw : Nat),
    (2 ^ s.params.adcBits ≤ raw → exec (.check t 0 now raw) s = .refused .analogOutOfRange) ∧
    (raw < 2 ^ s.params.adcBits → now < s.clock →
      exec (.check t 0 now raw) s = .refused .clockWentBack)

/-- Smoothing (42_supervisor.md R122): the exact recurrence, the raw sample itself when `ALPHA` is 1, a result between
the old reading and the sample and so within the converter's range, and the closed form after `k` equal samples. -/
def Obligations.SmoothingHasItsClosedForm : Prop :=
  (∀ (alpha r : Rat) (raw : Nat), smooth alpha r raw = raw * alpha + r * (1 - alpha) ∧
    (alpha = 1 → smooth alpha r raw = raw)) ∧
  (∀ (alpha r : Rat) (raw adcBits : Nat), 0 < alpha → alpha ≤ 1 →
    min r raw ≤ smooth alpha r raw ∧ smooth alpha r raw ≤ max r raw ∧
    (0 ≤ r → r ≤ 2 ^ adcBits - 1 → raw < 2 ^ adcBits →
      0 ≤ smooth alpha r raw ∧ smooth alpha r raw ≤ 2 ^ adcBits - 1)) ∧
  ∀ (alpha r0 : Rat) (raw k : Nat),
    smoothAll alpha r0 (List.replicate k raw) = (raw : Rat) - ((raw : Rat) - r0) * (1 - alpha) ^ k

/-- A single sample trips only when its current is over the bound of 42_supervisor.md R139; from a reading of 0 the
bound is `tripMA / ALPHA`. -/
def Obligations.ASpikeTripsOnlyAboveItsBound : Prop :=
  ∀ (T : TrackUnit) (n raw : Nat), 0 < T.cfg.alpha → 0 < T.cfg.scale →
    T.cfg.sampleInterval ≤ n - T.sup.lastSampleTime → T.pins.enable = .high → T.sup.trip = none →
      ((checkUnit n raw T).sup.trip = some n ↔
        (T.cfg.tripMA - (1 - T.cfg.alpha) * T.sup.reading * T.cfg.scale) / T.cfg.alpha < (raw : Rat) * T.cfg.scale) ∧
      (T.sup.reading = 0 →
        ((checkUnit n raw T).sup.trip = some n ↔ T.cfg.tripMA / T.cfg.alpha < (raw : Rat) * T.cfg.scale))

/-- The trip law for a settled reading and the retry law (42_supervisor.md R138, R140), and that a trip time does not
move while tripped (R127). -/
def Obligations.TripAndRetryLaws : Prop :=
  ∀ (s : State) (t : Track) (now raw : Nat), raw < 2 ^ s.params.adcBits → s.clock ≤ now → PowerInv s.params (s.unit t) →
      ((s.unit t).cfg.sampleInterval ≤ now - (s.unit t).sup.lastSampleTime → (s.unit t).pins.enable = .high →
        (s.unit t).sup.reading = raw → (s.unit t).cfg.tripMA < (raw : Rat) * (s.unit t).cfg.scale →
          ∃ s', exec (.check t 0 now raw) s = .next s' ∧ (s'.unit t).sup.trip = some now ∧
            (s'.unit t).sup.reading = raw ∧ (s'.unit t).pins.enable = .low) ∧
      (∀ since, (s.unit t).sup.trip = some since → (s.unit t).cfg.retryInterval < now - since →
        ∃ s', exec (.check t 0 now raw) s = .next s' ∧ (s'.unit t).sup.trip = none ∧
          ((s'.unit t).pins.enable = .high ↔ (s.unit t).sup.powerReq = true)) ∧
      (∀ since s', (s.unit t).sup.trip = some since → exec (.check t 0 now raw) s = .next s' →
        (s'.unit t).sup.trip = some since ∨
          ((s'.unit t).sup.trip = none ∧ (s.unit t).cfg.retryInterval < now - since))

/-- PWRON (42_supervisor.md R130, R137): the request is latched; the pin goes `HIGH` unless the unit is tripped. -/
def Obligations.PwronAsksForPower : Prop :=
  ∀ (s : State) (t : Track),
    exec (.pwron t 0) s = .next { s.setUnit t
      { s.unit t with
        sup := { (s.unit t).sup with powerReq := true }
        pins := { (s.unit t).pins with enable := if (s.unit t).sup.trip = none then .high else .low } }
      with result := some .success } ∧
    (∀ rsv : BitVec 3, rsv ≠ 0 → exec (.pwron t rsv) s = .next { s with result := some (.rejected .badOperand) }) ∧
    ∀ o, encode o (.pwron .main 0) = .step [0x50] ∧ encode o (.pwron .prog 0) = .step [0x51]

/-- PWROFF (42_supervisor.md R131): the request is dropped, the pin goes `LOW`, a trip is left as it is. -/
def Obligations.PwroffRemovesPower : Prop :=
  ∀ (s : State) (t : Track),
    exec (.pwroff t 0) s = .next { s.setUnit t
      { s.unit t with
        sup := { (s.unit t).sup with powerReq := false }
        pins := { (s.unit t).pins with enable := .low } }
      with result := some .success } ∧
    (∀ rsv : BitVec 3, rsv ≠ 0 → exec (.pwroff t rsv) s = .next { s with result := some (.rejected .badOperand) }) ∧
    ∀ o, encode o (.pwroff .main 0) = .step [0x60] ∧ encode o (.pwroff .prog 0) = .step [0x61]

/-- BRKON and BRKOFF (42_supervisor.md R132, R133): in a scheme with a brake pin the request and the pin follow; in the
others `UNSUPPORTED` and no change, after the check of the reserved bits (60_exceptions.md R160 d). -/
def Obligations.BrakeOperationsDriveTheBrakePin : Prop :=
  ∀ (s : State) (t : Track),
    ((s.unit t).cfg.scheme = .brakeEnable →
      exec (.brkon t 0) s = .next { s.setUnit t
        { s.unit t with
          sup := { (s.unit t).sup with brakeReq := true }
          pins := { (s.unit t).pins with brake := some .high } } with result := some .success } ∧
      exec (.brkoff t 0) s = .next { s.setUnit t
        { s.unit t with
          sup := { (s.unit t).sup with brakeReq := false }
          pins := { (s.unit t).pins with brake := some .low } } with result := some .success }) ∧
    ((s.unit t).cfg.scheme ≠ .brakeEnable →
      exec (.brkon t 0) s = .next { s with result := some (.rejected .unsupported) } ∧
      exec (.brkoff t 0) s = .next { s with result := some (.rejected .unsupported) }) ∧
    (∀ rsv : BitVec 3, rsv ≠ 0 →
      exec (.brkon t rsv) s = .next { s with result := some (.rejected .badOperand) } ∧
      exec (.brkoff t rsv) s = .next { s with result := some (.rejected .badOperand) }) ∧
    ∀ o, encode o (.brkon .main 0) = .step [0x70] ∧ encode o (.brkon .prog 0) = .step [0x71] ∧
      encode o (.brkoff .main 0) = .step [0x80] ∧ encode o (.brkoff .prog 0) = .step [0x81]

/-- The three status queries answer without changing anything (42_supervisor.md R134 to R136); under the enable
invariant (10_state.md R24) QPWR is false while tripped and false while switched off, and true otherwise. -/
def Obligations.StatusQueriesOnlyAnswer : Prop :=
  ∀ (s : State) (t : Track),
    exec (.qpwr t 0) s = .next { s with result := some (.answer (decide ((s.unit t).pins.enable = .high))) } ∧
    exec (.qtrip t 0) s = .next { s with result := some (.answer (decide ((s.unit t).sup.trip ≠ none))) } ∧
    exec (.qcur t 0) s =
      .next { s with result := some (.current ((s.unit t).sup.reading * (s.unit t).cfg.scale)) } ∧
    (PowerInv s.params (s.unit t) →
      ((s.unit t).sup.tripped = true ∨ (s.unit t).sup.powerReq = false →
        exec (.qpwr t 0) s = .next { s with result := some (.answer false) }) ∧
      ((s.unit t).sup.tripped = false → (s.unit t).sup.powerReq = true →
        exec (.qpwr t 0) s = .next { s with result := some (.answer true) })) ∧
    (∀ rsv : BitVec 3, rsv ≠ 0 →
      exec (.qpwr t rsv) s = .next { s with result := some (.rejected .badOperand) } ∧
      exec (.qtrip t rsv) s = .next { s with result := some (.rejected .badOperand) } ∧
      exec (.qcur t rsv) s = .next { s with result := some (.rejected .badOperand) }) ∧
    ∀ o, encode o (.qpwr .main 0) = .step [0x90] ∧ encode o (.qpwr .prog 0) = .step [0x91] ∧
      encode o (.qtrip .main 0) = .step [0xA0] ∧ encode o (.qtrip .prog 0) = .step [0xA1] ∧
      encode o (.qcur .main 0) = .step [0xB0] ∧ encode o (.qcur .prog 0) = .step [0xB1]

/-- What the supervisor's operations leave unchanged: the encoder, the queue, the signal pins, the timer and the other
unit always; the brake under CHECK and the power operations; the trip, the readings and the request for power under the
brake operations; everything of the unit under the queries; the clock under all but CHECK. -/
def Obligations.SupervisorOperationsLeaveTheRestUnchanged : Prop :=
  ∀ (s s' : State) (t : Track) (i : Instr), exec i s = .next s' →
    ((∃ rsv now raw, i = .check t rsv now raw) ∨ (∃ rsv, i = .pwron t rsv) ∨ (∃ rsv, i = .pwroff t rsv) ∨
      (∃ rsv, i = .brkon t rsv) ∨ (∃ rsv, i = .brkoff t rsv) ∨ (∃ rsv, i = .qpwr t rsv) ∨ (∃ rsv, i = .qtrip t rsv) ∨
      ∃ rsv, i = .qcur t rsv) →
    s'.params = s.params ∧ s'.schedule = s.schedule ∧ s'.issued = s.issued ∧
    s'.unit (otherTrack t) = s.unit (otherTrack t) ∧
    s'.unit t = { s.unit t with
      sup := (s'.unit t).sup
      pins := { (s.unit t).pins with enable := (s'.unit t).pins.enable, brake := (s'.unit t).pins.brake } } ∧
    ((∀ rsv now raw, i ≠ .check t rsv now raw) → s'.clock = s.clock ∧
      (s'.unit t).sup = { (s.unit t).sup with
        powerReq := (s'.unit t).sup.powerReq, brakeReq := (s'.unit t).sup.brakeReq }) ∧
    ((∀ rsv, i ≠ .brkon t rsv) → (∀ rsv, i ≠ .brkoff t rsv) →
      (s'.unit t).sup.brakeReq = (s.unit t).sup.brakeReq ∧ (s'.unit t).pins.brake = (s.unit t).pins.brake) ∧
    ((∀ rsv, i ≠ .pwron t rsv) → (∀ rsv, i ≠ .pwroff t rsv) → (s'.unit t).sup.powerReq = (s.unit t).sup.powerReq) ∧
    ((∃ rsv, i = .brkon t rsv ∨ i = .brkoff t rsv ∨ i = .qpwr t rsv ∨ i = .qtrip t rsv ∨ i = .qcur t rsv) →
      (s'.unit t).pins.enable = (s.unit t).pins.enable)

/-- Every step keeps the enable invariant (10_state.md R24) and the brake pin following the brake request
(42_supervisor.md R132, R133, R141). -/
def Obligations.EveryStepKeepsTheEnableAndBrakeInvariants : Prop :=
  ∀ s s' : State, step s = .next s' → (Each PowerInv s → Each PowerInv s') ∧ (Each BrakeInv s → Each BrakeInv s')

/-- Every step keeps the smoothed reading within the converter's range (42_supervisor.md R122) and the remembered times
within the clock, and the clock never goes back (R125). -/
def Obligations.EveryStepKeepsTheReadingAndTheClock : Prop :=
  ∀ s s' : State, step s = .next s' →
    (Each ReadingInv s → Each ReadingInv s') ∧ (ClockInv s → ClockInv s') ∧ s.clock ≤ s'.clock

/-! ### The whole machine -/

/-- Every step keeps the invariants of the sequencer position (10_state.md R14), and with them the signal pins and the
compare register follow the position. -/
def Obligations.EveryStepKeepsThePositionInvariants : Prop :=
  ∀ s s' : State, Each EncoderInv s → step s = .next s' →
    Each EncoderInv s' ∧ (Each SignalInv s → Each SignalInv s')

/-- Every step keeps the ghost trace decodable (30_encoding.md R66; 40_encoder.md R92 items 1 to 3): its halves pair into
bits, no frame starts after too short a preamble, and a receiver stands where the encoder's position is. That a trace
cut inside a frame is no failure is the model's choice (DESIGN CHOICE, notes/assumptions/8.md). -/
def Obligations.EveryStepKeepsTheTraceDecodable : Prop :=
  ∀ s s' : State, Each EncoderInv s → Each SignalInv s → Each TraceInv s → step s = .next s' → Each TraceInv s'

/-- A receiver of the trace outputs exactly the packets whose packet-end bit has started, in order (the order:
40_encoder.md R92 item 5): one TICK adds the packet in flight when it starts its packet-end bit, and nothing otherwise.
That a trace cut inside a frame decodes, to the completed packets and without the packet in flight, is the model's
choice (DESIGN CHOICE, notes/assumptions/8.md): the pseudocode of 30_encoding.md R66 is silent there, and its last
sentence speaks of the packets loaded. -/
def Obligations.TheTraceDecodesToThePacketsSent : Prop :=
  ∀ (s s' : State) (t : Track), s.params.halfOne < s.params.halfZero → EncoderInv s.params (s.unit t) →
    SignalInv s.params (s.unit t) → TraceInv s.params (s.unit t) → exec (.tick t 0) s = .next s' →
      ∃ sent, packetsOnWire s.params (s.unit t) = some sent ∧
        packetsOnWire s'.params (s'.unit t) =
          some (if (s'.unit t).enc.sub = .ending ∧ (s.unit t).enc.sub ≠ .ending then sent ++ [(s.unit t).enc.pkt]
            else sent)

/-- An operation leaves the other track unit as it is, and a reserved operation number leaves both
(20_memory.md R54; 60_exceptions.md R174). -/
def Obligations.AnOperationLeavesTheOtherTrackUnchanged : Prop :=
  ∀ (i : Instr) (s s' : State), exec i s = .next s' →
    (∀ t, instrTrack i = some t → s'.unit (otherTrack t) = s.unit (otherTrack t)) ∧
    (instrTrack i = none → ∀ t, s'.unit t = s.unit t)

/-- An operation reads nothing of the other track unit (60_exceptions.md R174): with anything else there it does the
same. -/
def Obligations.AnOperationDoesNotReadTheOtherTrack : Prop :=
  ∀ (i : Instr) (s s' : State) (t : Track) (U : TrackUnit), instrTrack i = some t → exec i s = .next s' →
    exec i (s.setUnit (otherTrack t) U) = .next (s'.setUnit (otherTrack t) U)

/-- Operations on different tracks commute (20_memory.md R54; 60_exceptions.md R160 a): in either order they end in the
same state, but for the result field, which holds what the later of the two returned. Two CHECKs take the environment's
answers in the order they run (42_supervisor.md R125), so they commute when both were answered the same time. -/
def Obligations.OperationsOnDifferentTracksCommute : Prop :=
  ∀ (i j : Instr) (s s1 s12 : State) (t : Track), instrTrack i = some t → instrTrack j = some (otherTrack t) →
    (∀ now now' raw raw', i = .check t 0 now raw → j = .check (otherTrack t) 0 now' raw' → now = now') →
    exec i s = .next s1 → exec j s1 = .next s12 →
      ∃ s2 s21, exec j s = .next s2 ∧ exec i s2 = .next s21 ∧ { s21 with result := none } = { s12 with result := none }

/-- Ownership by context (60_exceptions.md R169): an operation of the non-interrupt context leaves the encoder, the
signal pins, the compare register and the trace, and a packet in the slot; one of the interrupt context leaves the
ring, the supervisor, the enable and brake pins and the clock, and can only empty the slot. -/
def Obligations.EachContextWritesOnlyWhatItOwns : Prop :=
  ∀ (i : Instr) (s s' : State) (t : Track), exec i s = .next s' →
    (instrContext i = .nonInterrupt →
      (s'.unit t).enc = (s.unit t).enc ∧ (s'.unit t).pins.sigA = (s.unit t).pins.sigA ∧
      (s'.unit t).pins.sigB = (s.unit t).pins.sigB ∧ (s'.unit t).compare = (s.unit t).compare ∧
      (s'.unit t).wire = (s.unit t).wire ∧ (s'.unit t).pending = (s.unit t).pending ∧
      ∀ q, (s.unit t).slot = some q → (s'.unit t).slot = some q) ∧
    (instrContext i = .interrupt →
      (s'.unit t).ring = (s.unit t).ring ∧ (s'.unit t).sup = (s.unit t).sup ∧
      (s'.unit t).pins.enable = (s.unit t).pins.enable ∧ (s'.unit t).pins.brake = (s.unit t).pins.brake ∧
      s'.clock = s.clock ∧ ((s'.unit t).slot = (s.unit t).slot ∨ (s'.unit t).slot = none))

/-- Which operations change a flag (10_state.md R20): `tripped` only CHECK, `powerReq` only PWRON and PWROFF, `brakeReq`
only BRKON and BRKOFF, each in its direction; `slot.ready` is set only by ENQ and SERVICE and cleared only by TICK (or
by the TICKs of a frame). -/
def Obligations.FlagsChangeOnlyByTheirOperations : Prop :=
  ∀ (i : Instr) (s s' : State) (t : Track), exec i s = .next s' →
    ((s'.unit t).sup.tripped ≠ (s.unit t).sup.tripped → ∃ now raw, i = .check t 0 now raw) ∧
    ((s.unit t).sup.powerReq = false → (s'.unit t).sup.powerReq = true → i = .pwron t 0) ∧
    ((s.unit t).sup.powerReq = true → (s'.unit t).sup.powerReq = false → i = .pwroff t 0) ∧
    ((s.unit t).sup.brakeReq = false → (s'.unit t).sup.brakeReq = true → i = .brkon t 0) ∧
    ((s.unit t).sup.brakeReq = true → (s'.unit t).sup.brakeReq = false → i = .brkoff t 0) ∧
    ((s.unit t).ready = false → (s'.unit t).ready = true →
      (∃ f tag p, i = .enq t 0 f tag p) ∨ i = .service t 0) ∧
    ((s.unit t).ready = true → (s'.unit t).ready = false → i = .tick t 0 ∨ ∃ q, frameInstr t q = some i)

/-- No operation and no step writes the configuration, the shared parameters or the interrupt enable
(10_state.md R25, R29; 60_exceptions.md R157; 70_reset_and_hazards.md R193). -/
def Obligations.TheConfigurationIsNeverWritten : Prop :=
  (∀ (i : Instr) (s s' : State), exec i s = .next s' →
    s'.params = s.params ∧ ∀ t, (s'.unit t).cfg = (s.unit t).cfg ∧ (s'.unit t).timerOn = (s.unit t).timerOn) ∧
  ∀ s s' : State, step s = .next s' →
    s'.params = s.params ∧ s'.configOk = true ∧
      ∀ t, (s'.unit t).cfg = (s.unit t).cfg ∧ (s'.unit t).timerOn = (s.unit t).timerOn

/-- No step faults from a good position with the timers on (60_exceptions.md R165), and what it refuses is only the
configuration, the schedule (its end: notes/assumptions/10.md), the environment's answers, or an issued FRAME row whose
frame is not next (notes/assumptions/6.md). -/
def Obligations.NoStepFaultsFromAGoodPosition : Prop :=
  ∀ s : State, Each EncoderInv s → TimersOn s →
    (∀ r, step s ≠ .fault r) ∧
    ∀ r, step s = .refused r →
      r = .badConfiguration ∨ r = .scheduleEnded ∨ r = .truncated ∨ r = .analogOutOfRange ∨ r = .clockWentBack ∨
        (r = .frameNotNext ∧ ∃ i rest, s.issued = i :: rest ∧ instrContext i = .interrupt)

/-- The pin space shows the latched levels (20_memory.md R40; 10_state.md R23): in a legal configuration with the pins
of its schemes, each pin identifier reads as the level of the pin it was given to. -/
def Obligations.LogicPinsShowTheLatchedLevels : Prop :=
  ∀ (s : State) (t : Track), s.configOk = true → Each SignalInv s → Each BrakeInv s →
    s.logicPin (s.unit t).cfg.sigA = some (s.unit t).pins.sigA ∧
    s.logicPin (s.unit t).cfg.enable = some (s.unit t).pins.enable ∧
    (∀ id, (s.unit t).cfg.sigB = some id → s.logicPin id = some (complement (s.unit t).pins.sigA)) ∧
    ∀ id, (s.unit t).cfg.brake = some id → s.logicPin id = some (brakeLevel (s.unit t).sup.brakeReq)

/-! ### Reset -/

/-- Boot from any earlier state leaves the reset values (10_state.md R34, the spec's own decision D27;
70_reset_and_hazards.md R180, R183), and a configuration that breaks a constraint is refused. The constraints are those
of R182 and the bounds of 00_scope.md R6 on `MAX_PACKET_BYTES` and `ADC_BITS`, with the supervisor's constants per unit,
as R6 allows, and with logic pins and analog pins as two spaces (the model's reading, notes/assumptions/9.md). -/
def Obligations.BootLeavesTheResetValues : Prop :=
  ∀ (p : BlockParams) (cm cp : TrackConfig) (t0 : Nat) (before : State),
    (inputsOk p cm cp = true ↔
      0 < p.halfOne ∧ p.halfOne < p.halfZero ∧ 2 ≤ p.maxPacketBytes ∧ p.maxPacketBytes ≤ 255 ∧ 1 ≤ p.adcBits ∧
      10 ≤ cm.preamble ∧ 20 ≤ cp.preamble ∧
      (∀ c, c = cm ∨ c = cp → 1 ≤ c.cap ∧ 0 < c.scale ∧ 0 ≤ c.tripMA ∧ 0 < c.alpha ∧ c.alpha ≤ 1 ∧
        1 ≤ c.sampleInterval ∧
        (c.sigB.isSome = true ↔ c.scheme = .dualInverted) ∧ (c.brake.isSome = true ↔ c.scheme = .brakeEnable)) ∧
      ([cm.sigA, cm.enable, cp.sigA, cp.enable] ++ cm.sigB.toList ++ cm.brake.toList ++ cp.sigB.toList ++
        cp.brake.toList).Nodup ∧
      cm.sense ≠ cp.sense ∧ cm.timer ≠ cp.timer) ∧
    (inputsOk p cm cp = false → boot p cm cp t0 before = .refused .badConfiguration) ∧
    (inputsOk p cm cp = true →
      ∃ s, boot p cm cp t0 before = .next s ∧ s = State.resetWith p cm cp t0 ∧ s.params = p ∧ s.clock = t0 ∧
        s.schedule = [] ∧ s.issued = [] ∧ s.result = none ∧
        s.main.cfg = cm ∧ s.prog.cfg = cp ∧
        ∀ t, (s.unit t).enc = { sub := .idle, half := .second, pre := 0, byteIdx := 0, bitPos := 0, pkt := [] } ∧
          (s.unit t).slot = none ∧ (s.unit t).ring = [] ∧
          (s.unit t).sup = { trip := none, reading := 0, lastSampleTime := t0, powerReq := false, brakeReq := false } ∧
          (s.unit t).pins =
            { sigA := .low
              sigB := if (s.unit t).cfg.scheme = .dualInverted then some .high else none
              enable := .low
              brake := if (s.unit t).cfg.scheme = .brakeEnable then some .low else none } ∧
          (s.unit t).compare = p.halfOne ∧ (s.unit t).timerOn = true ∧ (s.unit t).pending = false ∧
          (s.unit t).wire = [])

/-- The state after reset is good, for every legal configuration and boot time, and `State.reset` is one of them. -/
def Obligations.TheResetStateIsGood : Prop :=
  (∀ (p : BlockParams) (cm cp : TrackConfig) (t0 : Nat), inputsOk p cm cp = true →
    Good (State.resetWith p cm cp t0) ∧ (State.resetWith p cm cp t0).configOk = true) ∧
  Good State.reset ∧ State.reset.configOk = true

/-! ### The repeat count -/

/-- A one-shot ENQ whose repeat count is over `MAX_REPEAT`, outside the operand's range of 41_queue.md R100, is rejected
as `BAD_OPERAND` and changes nothing (the model's choice: R101 does not test it, notes/assumptions/26.md). A step word
carries a count of at most 15, so with the default `MAX_REPEAT` no step word meets it. -/
def Obligations.ARepeatCountOverItsMaximumIsRejected : Prop :=
  (∀ (s : State) (t : Track) (rsv : BitVec 3) (f : EnqFlags) (tag : Byte) (p : Packet),
    f.periodic = false → s.params.maxRepeat < f.repeats →
      exec (.enq t rsv f tag p) s = .next { s with result := some (.rejected .badOperand) }) ∧
  ∀ (adcBits : Nat) (bytes rest : List Byte) (t : Track) (rsv : BitVec 3) (f : EnqFlags) (tag : Byte) (p : Packet),
    decodeStep adcBits bytes = .ok (.enq t rsv f tag p, rest) → f.repeats ≤ 15
end

