-- ==== Sys2Proof/Laws/State.lean ====
section
/-!
SUPPORT. One lemma per field for the updates of the state that the operations make: setting a unit, loading a schedule,
placing a table word, and the unit updates of the supervisor, the pins and the queue.
-/

namespace Sys2Proof.Machine

@[simp] theorem unit_main (s : State) : s.unit .main = s.main := rfl
@[simp] theorem unit_prog (s : State) : s.unit .prog = s.prog := rfl

@[simp] theorem setUnit_main (s : State) (T : TrackUnit) : s.setUnit .main T = { s with main := T } := rfl
@[simp] theorem setUnit_prog (s : State) (T : TrackUnit) : s.setUnit .prog T = { s with prog := T } := rfl

@[simp] theorem setUnit_params (s : State) (t : Track) (T : TrackUnit) : (s.setUnit t T).params = s.params := by
  cases t <;> rfl
@[simp] theorem setUnit_clock (s : State) (t : Track) (T : TrackUnit) : (s.setUnit t T).clock = s.clock := by
  cases t <;> rfl
@[simp] theorem setUnit_schedule (s : State) (t : Track) (T : TrackUnit) :
    (s.setUnit t T).schedule = s.schedule := by
  cases t <;> rfl
@[simp] theorem setUnit_issued (s : State) (t : Track) (T : TrackUnit) : (s.setUnit t T).issued = s.issued := by
  cases t <;> rfl
@[simp] theorem setUnit_result (s : State) (t : Track) (T : TrackUnit) : (s.setUnit t T).result = s.result := by
  cases t <;> rfl

/-- Reading back the unit that was set. -/
@[simp] theorem unit_setUnit_same (s : State) (t : Track) (T : TrackUnit) : (s.setUnit t T).unit t = T := by
  cases t <;> rfl

/-- Setting one unit leaves the other. -/
@[simp] theorem unit_setUnit_other (s : State) (t : Track) (T : TrackUnit) :
    (s.setUnit t T).unit (otherTrack t) = s.unit (otherTrack t) := by
  cases t <;> rfl

/-- Setting a unit to what it is changes nothing. -/
@[simp] theorem setUnit_unit (s : State) (t : Track) : s.setUnit t (s.unit t) = s := by
  cases t <;> rfl

/-- The later of two settings of one unit stands. -/
@[simp] theorem setUnit_setUnit (s : State) (t : Track) (T U : TrackUnit) :
    (s.setUnit t T).setUnit t U = s.setUnit t U := by
  cases t <;> rfl

/-- Settings of the two units commute (20_memory.md R54). -/
theorem setUnit_comm (s : State) (t : Track) (T U : TrackUnit) :
    (s.setUnit t T).setUnit (otherTrack t) U = (s.setUnit (otherTrack t) U).setUnit t T := by
  cases t <;> rfl

@[simp] theorem otherTrack_otherTrack (t : Track) : otherTrack (otherTrack t) = t := by cases t <;> rfl
theorem otherTrack_ne (t : Track) : otherTrack t ≠ t := by cases t <;> decide

@[simp] theorem unit_withResult (s : State) (r : Option Result) (t : Track) :
    ({ s with result := r } : State).unit t = s.unit t := by cases t <;> rfl
@[simp] theorem unit_withSchedule (s : State) (bs : List Byte) (t : Track) :
    ({ s with schedule := bs } : State).unit t = s.unit t := by cases t <;> rfl
@[simp] theorem unit_withIssued (s : State) (ops : List Instr) (t : Track) :
    ({ s with issued := ops } : State).unit t = s.unit t := by cases t <;> rfl
@[simp] theorem unit_withClock (s : State) (n : Nat) (t : Track) :
    ({ s with clock := n } : State).unit t = s.unit t := by cases t <;> rfl

/-! ### The state an operation ends in -/

/-- The state `finish t T r s` ends in. -/
def finished (t : Track) (T : TrackUnit) (r : Option Result) (s : State) : State :=
  { s.setUnit t T with result := r }

theorem finish_eq (t : Track) (T : TrackUnit) (r : Option Result) (s : State) :
    finish t T r s = .next (finished t T r s) := rfl
@[simp] theorem finished_unit (t : Track) (T : TrackUnit) (r : Option Result) (s : State) :
    (finished t T r s).unit t = T := by cases t <;> rfl
@[simp] theorem finished_unit_other (t : Track) (T : TrackUnit) (r : Option Result) (s : State) :
    (finished t T r s).unit (otherTrack t) = s.unit (otherTrack t) := by cases t <;> rfl
@[simp] theorem finished_params (t : Track) (T : TrackUnit) (r : Option Result) (s : State) :
    (finished t T r s).params = s.params := by cases t <;> rfl
@[simp] theorem finished_clock (t : Track) (T : TrackUnit) (r : Option Result) (s : State) :
    (finished t T r s).clock = s.clock := by cases t <;> rfl
@[simp] theorem finished_schedule (t : Track) (T : TrackUnit) (r : Option Result) (s : State) :
    (finished t T r s).schedule = s.schedule := by cases t <;> rfl
@[simp] theorem finished_issued (t : Track) (T : TrackUnit) (r : Option Result) (s : State) :
    (finished t T r s).issued = s.issued := by cases t <;> rfl
@[simp] theorem finished_result (t : Track) (T : TrackUnit) (r : Option Result) (s : State) :
    (finished t T r s).result = r := by cases t <;> rfl
@[simp] theorem finished_finished (t : Track) (T U : TrackUnit) (r q : Option Result) (s : State) :
    finished t U q (finished t T r s) = finished t U q s := by cases t <;> rfl

@[simp] theorem load_schedule (s : State) (bs : List Byte) : (s.load bs).schedule = bs := rfl
@[simp] theorem load_issued (s : State) (bs : List Byte) : (s.load bs).issued = s.issued := rfl
@[simp] theorem load_main (s : State) (bs : List Byte) : (s.load bs).main = s.main := rfl
@[simp] theorem load_prog (s : State) (bs : List Byte) : (s.load bs).prog = s.prog := rfl
@[simp] theorem load_params (s : State) (bs : List Byte) : (s.load bs).params = s.params := rfl

@[simp] theorem issue_issued (s : State) (ops : List Instr) : (s.issue ops).issued = ops := rfl
@[simp] theorem issue_schedule (s : State) (ops : List Instr) : (s.issue ops).schedule = s.schedule := rfl
@[simp] theorem issue_main (s : State) (ops : List Instr) : (s.issue ops).main = s.main := rfl
@[simp] theorem issue_prog (s : State) (ops : List Instr) : (s.issue ops).prog = s.prog := rfl
@[simp] theorem issue_params (s : State) (ops : List Instr) : (s.issue ops).params = s.params := rfl
@[simp] theorem issue_clock (s : State) (ops : List Instr) : (s.issue ops).clock = s.clock := rfl

@[simp] theorem withFetchWord_schedule (s : State) (nbits w : Nat) :
    (s.withFetchWord nbits w).schedule = tableBytes nbits w := rfl
@[simp] theorem withFetchWord_issued (s : State) (nbits w : Nat) : (s.withFetchWord nbits w).issued = [] := rfl
@[simp] theorem withFetchWord_params (s : State) (nbits w : Nat) : (s.withFetchWord nbits w).params = s.params := rfl
@[simp] theorem withFetchWord_pendingTick (s : State) (nbits w : Nat) : pendingTick (s.withFetchWord nbits w) = none :=
  rfl
@[simp] theorem withFetchWord_configOk (s : State) (nbits w : Nat) : (s.withFetchWord nbits w).configOk = s.configOk :=
  rfl

@[simp] theorem driveEnable_sup (T : TrackUnit) : (driveEnable T).sup = T.sup := rfl
@[simp] theorem driveEnable_enable (T : TrackUnit) : (driveEnable T).pins.enable = enableLevel T.sup := rfl
@[simp] theorem driveEnable_cfg (T : TrackUnit) : (driveEnable T).cfg = T.cfg := rfl
@[simp] theorem emit_enc (T : TrackUnit) (l : Level) (d : Rat) : (emit T l d).enc = T.enc := rfl
@[simp] theorem emit_wire (T : TrackUnit) (l : Level) (d : Rat) : (emit T l d).wire = T.wire ++ [⟨l, d⟩] := rfl
@[simp] theorem emit_compare (T : TrackUnit) (l : Level) (d : Rat) : (emit T l d).compare = d := rfl
@[simp] theorem emit_sigA (T : TrackUnit) (l : Level) (d : Rat) : (emit T l d).pins.sigA = l := rfl
@[simp] theorem emit_cfg (T : TrackUnit) (l : Level) (d : Rat) : (emit T l d).cfg = T.cfg := rfl
@[simp] theorem emit_slot (T : TrackUnit) (l : Level) (d : Rat) : (emit T l d).slot = T.slot := rfl
@[simp] theorem emit_ring (T : TrackUnit) (l : Level) (d : Rat) : (emit T l d).ring = T.ring := rfl
@[simp] theorem emit_sup (T : TrackUnit) (l : Level) (d : Rat) : (emit T l d).sup = T.sup := rfl
@[simp] theorem emit_enable (T : TrackUnit) (l : Level) (d : Rat) : (emit T l d).pins.enable = T.pins.enable := rfl
@[simp] theorem emit_brake (T : TrackUnit) (l : Level) (d : Rat) : (emit T l d).pins.brake = T.pins.brake := rfl
@[simp] theorem emit_timerOn (T : TrackUnit) (l : Level) (d : Rat) : (emit T l d).timerOn = T.timerOn := rfl
@[simp] theorem emit_pending (T : TrackUnit) (l : Level) (d : Rat) : (emit T l d).pending = T.pending := rfl

end Sys2Proof.Machine
end

