-- ==== Sys2Proof/Laws/Ops.lean ====
section
/-!
SUPPORT. What each shared operation can do, said once: how an operation ends, the slot and the ring, the encoder's next
bit and half, the supervisor's parts, and one step. Provers cite these and need not unfold the operations.
-/

namespace Sys2Proof.Machine

/-! ### How an operation ends -/

theorem finish_next_iff {t : Track} {T : TrackUnit} {r : Option Result} {s s' : State} :
    finish t T r s = .next s' ↔ s' = { s.setUnit t T with result := r } := by
  simp only [finish, Host.Outcome.next.injEq]; exact eq_comm

theorem answer_next_iff {r : Option Result} {s s' : State} :
    answer r s = .next s' ↔ s' = { s with result := r } := by
  simp only [answer, Host.Outcome.next.injEq]; exact eq_comm

theorem reject_next_iff {r : Reason} {s s' : State} :
    reject r s = .next s' ↔ s' = { s with result := some (.rejected r) } := answer_next_iff

/-! ### The slot and the ring -/

theorem nextPacket_fst (T : TrackUnit) : (nextPacket T).1 = T.slot := by
  unfold nextPacket; split <;> simp_all

theorem nextPacket_snd (T : TrackUnit) : (nextPacket T).2 = { T with slot := none } := by
  obtain ⟨cfg, enc, slot, ring, sup, pins, compare, timerOn, pending, wire⟩ := T
  cases slot <;> rfl

theorem refill_full {T : TrackUnit} {q : Packet} (h : T.slot = some q) : refill T = T := by
  unfold refill; simp [h]

theorem refill_empty {T : TrackUnit} (h : T.ring = []) : refill T = T := by
  unfold refill; cases hs : T.slot <;> simp [h]

theorem refill_cons {T : TrackUnit} {e : Entry} {rest : List Entry} (hs : T.slot = none) (hr : T.ring = e :: rest) :
    refill T = { T with slot := some e.pkt, ring := rest ++ reappend e } := by
  unfold refill; simp [hs, hr]

/-- Everything `refill` can do. -/
theorem refill_cases (T : TrackUnit) :
    refill T = T ∨ ∃ e rest, T.slot = none ∧ T.ring = e :: rest ∧
      refill T = { T with slot := some e.pkt, ring := rest ++ reappend e } := by
  rcases hs : T.slot with _ | q
  · rcases hr : T.ring with _ | ⟨e, rest⟩
    · exact .inl (refill_empty hr)
    · exact .inr ⟨e, rest, rfl, rfl, refill_cons hs hr⟩
  · exact .inl (refill_full hs)

/-- `refill` changes the slot and the ring only, and never a full slot. -/
theorem refill_frame (T : TrackUnit) :
    refill T = { T with slot := (refill T).slot, ring := (refill T).ring } ∧
      ∀ q, T.slot = some q → (refill T).slot = some q := by
  rcases refill_cases T with h | ⟨e, rest, hs, hr, h⟩
  · rw [h]; exact ⟨rfl, fun q hq => hq⟩
  · rw [h]; refine ⟨rfl, ?_⟩; simp [hs]

theorem hasTag_iff (tag : Byte) (e : Entry) : Entry.hasTag tag e = true ↔ e.periodic = true ∧ e.tag = tag := by
  simp [Entry.hasTag]

theorem tagInRing_iff (tag : Byte) (ring : List Entry) :
    tagInRing tag ring = true ↔ ∃ e ∈ ring, e.periodic = true ∧ e.tag = tag := by
  simp [tagInRing, hasTag_iff]

theorem tagInRing_eq_false (tag : Byte) (ring : List Entry) :
    tagInRing tag ring = false ↔ ∀ e ∈ ring, ¬ (e.periodic = true ∧ e.tag = tag) := by
  rw [← Bool.not_eq_true, tagInRing_iff]; simp

/-- Removing a tag from a ring split at its first entry of that tag. -/
theorem removeTag_split {tag : Byte} {before after : List Entry} {x : Entry} (hx : x.periodic = true ∧ x.tag = tag)
    (hb : ∀ y ∈ before, ¬ (y.periodic = true ∧ y.tag = tag)) :
    removeTag tag (before ++ x :: after) = before ++ after := by
  unfold removeTag
  rw [List.eraseP_append_right]
  · simp [(hasTag_iff tag x).2 hx]
  · intro b hmem h; exact hb b hmem ((hasTag_iff tag b).1 h)

/-! ### The checks of ENQ -/

theorem valid_iff (maxLen : Nat) (p : Packet) :
    valid maxLen p = true ↔ 2 ≤ p.length ∧ p.length ≤ maxLen ∧ p.getLast? = some (checksum p.dropLast) := by
  simp [valid, minPacketBytes, and_assoc]

/-- The checks let through exactly a legal class and count and a valid packet. -/
theorem checkEnq_none_iff (q : BlockParams) (rsv : BitVec 3) (f : EnqFlags) (p : Packet) :
    checkEnq q rsv f p = none ↔
      (rsv = 0 ∧ f.rsv = 0 ∧ (f.periodic = true ↔ f.repeats = 0) ∧ (f.periodic = false → f.repeats ≤ q.maxRepeat)) ∧
        valid q.maxPacketBytes p = true := by
  rw [valid_iff]
  unfold checkEnq minPacketBytes
  by_cases h1 : rsv ≠ 0 ∨ f.rsv ≠ 0
  · rw [if_pos h1]; simp only [reduceCtorEq, false_iff]; tauto
  · rw [if_neg h1]
    by_cases h2 : (f.periodic = false ∧ f.repeats = 0) ∨ (f.periodic = true ∧ f.repeats ≠ 0)
    · rw [if_pos h2]; simp only [reduceCtorEq, false_iff]
      rcases h2 with ⟨a, b⟩ | ⟨a, b⟩
      · simp [a, b]
      · intro h; exact b (h.1.2.2.1.1 a)
    · rw [if_neg h2]
      by_cases h3 : f.periodic = false ∧ q.maxRepeat < f.repeats
      · rw [if_pos h3]; simp only [reduceCtorEq, false_iff]
        intro h; exact absurd (h.1.2.2.2 h3.1) (by omega)
      · rw [if_neg h3]
        have hper : f.periodic = true ↔ f.repeats = 0 := by
          cases hp : f.periodic <;> simp [hp] at h2 ⊢ <;> omega
        have hmax : f.periodic = false → f.repeats ≤ q.maxRepeat := fun h => by
          by_contra hc; exact h3 ⟨h, by omega⟩
        rw [and_iff_right (show rsv = 0 ∧ f.rsv = 0 ∧ _ ∧ _ from ⟨by tauto, by tauto, hper, hmax⟩)]
        split
        · simp; omega
        · split
          · simp; omega
          · split <;> simp_all; omega

/-! ### The encoder -/

/-- Everything `fetchPacket` can do: load the slot's valid packet, or idle; the slot is free afterwards. -/
theorem fetchPacket_cases (p : BlockParams) (T : TrackUnit) :
    (∃ q, T.slot = some q ∧ valid p.maxPacketBytes q = true ∧
      fetchPacket p T = { T with
        slot := none
        enc := { T.enc with pkt := q, sub := .preamble, pre := 1, byteIdx := 0, bitPos := 0 } }) ∨
    ((∀ q, T.slot = some q → valid p.maxPacketBytes q = false) ∧
      fetchPacket p T = { T with
        slot := none
        enc := { T.enc with pkt := [], sub := .idle, pre := 0, byteIdx := 0, bitPos := 0 } }) := by
  obtain ⟨cfg, enc, slot, ring, sup, pins, compare, timerOn, pending, wire⟩ := T
  rcases slot with _ | q
  · right; simp [fetchPacket, nextPacket, fetchPacket.goIdle]
  · by_cases hv : valid p.maxPacketBytes q = true
    · left; exact ⟨q, rfl, hv, by simp [fetchPacket, nextPacket, hv]⟩
    · right; simp [fetchPacket, nextPacket, fetchPacket.goIdle, hv]

/-- `nextBit` changes the position and the slot only, and the slot only to empty it. -/
theorem nextBit_frame (p : BlockParams) (T : TrackUnit) :
    nextBit p T = { T with enc := (nextBit p T).enc, slot := (nextBit p T).slot } ∧
      ((nextBit p T).slot = T.slot ∨ (nextBit p T).slot = none) := by
  unfold nextBit
  split
  · rcases fetchPacket_cases p T with ⟨q, -, -, h⟩ | ⟨-, h⟩ <;> rw [h] <;> exact ⟨rfl, .inr rfl⟩
  · unfold nextFromPreamble; split <;> exact ⟨rfl, .inl rfl⟩
  · unfold nextFromGroup; split
    · exact ⟨rfl, .inl rfl⟩
    · split <;> exact ⟨rfl, .inl rfl⟩
  · unfold nextFromGroup; split
    · exact ⟨rfl, .inl rfl⟩
    · split <;> exact ⟨rfl, .inl rfl⟩
  · rcases fetchPacket_cases p { T with enc := { T.enc with pkt := [] } } with ⟨q, -, -, h⟩ | ⟨-, h⟩ <;> rw [h] <;>
      exact ⟨rfl, .inr rfl⟩

/-- Everything a half-transition can do: the second half of the same bit, or the first half of the next. -/
theorem halfTransition_some_iff (p : BlockParams) (T T' : TrackUnit) :
    halfTransition p T = some T' ↔
      (T.enc.half = .first ∧ ∃ b, curBit p.bitOrder T.enc = some b ∧
        T' = emit { T with enc := { T.enc with half := .second } } .low (halfPeriod p b)) ∨
      (T.enc.half = .second ∧ ∃ b, curBit p.bitOrder (nextBit p T).enc = some b ∧
        T' = emit { nextBit p T with enc := { (nextBit p T).enc with half := .first } } .high (halfPeriod p b)) := by
  have hc : ∀ (e : Encoder) (h : Phase), curBit p.bitOrder { e with half := h } = curBit p.bitOrder e := by
    intro e h; rfl
  unfold halfTransition halfTransition.drive
  cases T.enc.half <;> simp [hc, eq_comm]

/-- Everything the service of a tick can do. -/
theorem serveTick_next {t : Track} {s s' : State} (h : serveTick t s = .next s') :
    (s.unit t).timerOn = true ∧ ∃ T, halfTransition s.params (interruptEntry (s.unit t)) = some T ∧
      s' = { s.setUnit t T with result := none } := by
  unfold serveTick at h
  split at h
  · cases h
  · rename_i hon
    cases hT : halfTransition s.params (interruptEntry (s.unit t)) with
    | none => rw [hT] at h; cases h
    | some T =>
      rw [hT] at h
      exact ⟨by simpa using hon, T, rfl, finish_next_iff.1 h⟩

theorem serveTick_of_some {t : Track} {s : State} {T : TrackUnit} (hon : (s.unit t).timerOn = true)
    (hT : halfTransition s.params (interruptEntry (s.unit t)) = some T) :
    serveTick t s = .next { s.setUnit t T with result := none } := by
  simp [serveTick, hon, hT, finish, interruptReturn]

/-- Everything TICK can do. -/
theorem execTick_next {t : Track} {rsv : BitVec 3} {s s' : State} (h : execTick t rsv s = .next s') :
    (rsv ≠ 0 ∧ s' = { s with result := none }) ∨ (rsv = 0 ∧ serveTick t s = .next s') := by
  unfold execTick at h
  split at h
  · exact .inl ⟨‹_›, answer_next_iff.1 h⟩
  · rename_i hr
    exact .inr ⟨by simpa using hr, h⟩

@[simp] theorem execTick_zero (t : Track) (s : State) : execTick t 0#3 s = serveTick t s := by simp [execTick]

/-- A run of ticks is the ticks one after another. -/
theorem runTicks_succ (n : Nat) (t : Track) (s : State) :
    runTicks (n + 1) t s =
      match serveTick t s with
      | .next s' => runTicks n t s'
      | .fault r => .fault r
      | .refused r => .refused r := by
  cases h : serveTick t s <;> simp [runTicks, h]

/-- A property every tick keeps is kept by a run of ticks. -/
theorem runTicks_induct {P : State → Prop} (t : Track) (hstep : ∀ s s', P s → serveTick t s = .next s' → P s') :
    ∀ (n : Nat) (s s' : State), P s → runTicks n t s = .next s' → P s' := by
  intro n
  induction n with
  | zero => intro s s' hs h; cases h; exact hs
  | succ n ih =>
    intro s s' hs h
    rw [runTicks_succ] at h
    cases hT : serveTick t s with
    | next s1 => rw [hT] at h; exact ih s1 s' (hstep s s1 hs hT) h
    | fault r => rw [hT] at h; cases h
    | refused r => rw [hT] at h; cases h

/-- A run of ticks in two parts. -/
theorem runTicks_add (m n : Nat) (t : Track) (s s1 : State) (h : runTicks m t s = .next s1) :
    runTicks (m + n) t s = runTicks n t s1 := by
  induction m generalizing s with
  | zero => cases h; simp
  | succ m ih =>
    rw [show m + 1 + n = (m + n) + 1 by omega, runTicks_succ]
    rw [runTicks_succ] at h
    cases hT : serveTick t s with
    | next s2 => rw [hT] at h; exact ih s2 h
    | fault r => rw [hT] at h; cases h
    | refused r => rw [hT] at h; cases h

/-- What a transmission can do: run its ticks, where the frame is next. -/
theorem transmit_next {t : Track} {q : Packet} {s s' : State} (h : transmit t q s = .next s') :
    (s.unit t).timerOn = true ∧ sendsNext s.params q (s.unit t) = true ∧
      runTicks (frameTicks (s.unit t).cfg.preamble q.length) t s = .next s' := by
  unfold transmit at h
  split at h
  · cases h
  · rename_i hon
    split at h
    · exact ⟨by simpa using hon, ‹_›, h⟩
    · cases h

theorem sendsNext_iff (p : BlockParams) (q : Packet) (T : TrackUnit) :
    sendsNext p q T = true ↔ T.enc.half = .second ∧ (T.enc.sub = .idle ∨ T.enc.sub = .ending) ∧
      T.slot = some q ∧ valid p.maxPacketBytes q = true := by
  simp [sendsNext, Encoder.asksForPacket, and_assoc]

/-- From the preamble, the next bit is `nextFromPreamble`'s. -/
theorem nextBit_preamble {p : BlockParams} {T : TrackUnit} (h : T.enc.sub = .preamble) :
    nextBit p T = nextFromPreamble T := by
  unfold nextBit; rw [h]

/-- From a byte group, the next bit is `nextFromGroup`'s. -/
theorem nextBit_group {p : BlockParams} {T : TrackUnit} (h : T.enc.sub = .data ∨ T.enc.sub = .checksum) :
    nextBit p T = nextFromGroup T := by
  unfold nextBit; rcases h with h | h <;> rw [h]

/-- From an idle bit or a packet-end bit, the next bit is what `fetchPacket` loads. -/
theorem nextBit_asks {p : BlockParams} {T : TrackUnit} (h : T.enc.sub = .idle ∨ T.enc.sub = .ending) :
    ∃ q, nextBit p T = fetchPacket p { T with enc := { T.enc with pkt := q } } := by
  unfold nextBit
  rcases h with h | h <;> rw [h]
  · exact ⟨T.enc.pkt, rfl⟩
  · exact ⟨[], rfl⟩

/-! ### The supervisor -/

/-- `samplePart` in its three cases. -/
theorem samplePart_cases (n raw : Nat) (T : TrackUnit) :
    (¬ T.cfg.sampleInterval ≤ n - T.sup.lastSampleTime ∧ samplePart n raw T = T) ∨
    (T.cfg.sampleInterval ≤ n - T.sup.lastSampleTime ∧ overcurrent (takeSample n raw T) = false ∧
      samplePart n raw T = takeSample n raw T) ∨
    (T.cfg.sampleInterval ≤ n - T.sup.lastSampleTime ∧ overcurrent (takeSample n raw T) = true ∧
      samplePart n raw T = enterTripped n (takeSample n raw T)) := by
  unfold samplePart sampleDue
  by_cases hd : T.cfg.sampleInterval ≤ n - T.sup.lastSampleTime
  · cases ho : overcurrent (takeSample n raw T) <;> simp [hd]
  · simp [hd]

/-- `retryPart` in its two cases. -/
theorem retryPart_cases (n : Nat) (T : TrackUnit) :
    ((∃ since, T.sup.trip = some since ∧ T.cfg.retryInterval < n - since) ∧ retryPart n T = leaveTripped T) ∨
    ((∀ since, T.sup.trip = some since → n - since ≤ T.cfg.retryInterval) ∧ retryPart n T = T) := by
  unfold retryPart retryDue
  cases ht : T.sup.trip with
  | none => simp
  | some since =>
    by_cases hr : T.cfg.retryInterval < n - since
    · left; exact ⟨⟨since, rfl, hr⟩, by simp [hr]⟩
    · right; refine ⟨fun m hm => ?_, by simp [hr]⟩
      cases hm; omega

/-- CHECK changes the supervisor and the enable pin only. -/
theorem checkUnit_frame (n raw : Nat) (T : TrackUnit) :
    checkUnit n raw T = { T with
      sup := (checkUnit n raw T).sup
      pins := { T.pins with enable := (checkUnit n raw T).pins.enable } } := by
  have h1 : ∀ U : TrackUnit, retryPart n U =
      { U with sup := (retryPart n U).sup, pins := { U.pins with enable := (retryPart n U).pins.enable } } := by
    intro U
    rcases retryPart_cases n U with ⟨-, h⟩ | ⟨-, h⟩
    · rw [h]; rfl
    · rw [h]
  unfold checkUnit
  rw [h1 (samplePart n raw T)]
  rcases samplePart_cases n raw T with ⟨-, h⟩ | ⟨-, -, h⟩ | ⟨-, -, h⟩ <;>
    simp only [h, enterTripped, takeSample, driveEnable]

/-- Everything CHECK can do. -/
theorem execCheck_next {t : Track} {rsv : BitVec 3} {now raw : Nat} {s s' : State}
    (h : execCheck t rsv now raw s = .next s') :
    (rsv ≠ 0 ∧ s' = { s with result := none }) ∨
    (rsv = 0 ∧ raw < 2 ^ s.params.adcBits ∧ s.clock ≤ now ∧
      s' = { s.setUnit t (checkUnit now raw (s.unit t)) with clock := now, result := none }) := by
  unfold execCheck at h
  split at h
  · exact .inl ⟨‹_›, answer_next_iff.1 h⟩
  · split at h
    · cases h
    · split at h
      · cases h
      · refine .inr ⟨by simpa using ‹¬ rsv ≠ 0›, by omega, by omega, ?_⟩
        rw [finish_next_iff.1 h]
        cases t <;> rfl

/-! ### The schedule and the step -/

/-- The two places the next operation comes from. -/
theorem fetchOperation_ok {s s' : State} {i : Instr} (h : fetchOperation s = .ok (i, s')) :
    (∃ rest, s.issued = i :: rest ∧ s' = { s with issued := rest }) ∨
    (s.issued = [] ∧ ∃ rest, decodeStep s.params.adcBits s.schedule = .ok (i, rest) ∧
      s' = { s with schedule := rest }) := by
  unfold fetchOperation at h
  cases hi : s.issued with
  | cons j rest =>
    simp only [hi, Except.ok.injEq, Prod.mk.injEq] at h
    exact .inl ⟨rest, by rw [h.1], h.2.symm⟩
  | nil =>
    refine .inr ⟨rfl, ?_⟩
    cases hd : decodeStep s.params.adcBits s.schedule with
    | ok ir =>
      obtain ⟨j, rest⟩ := ir
      simp only [hi, hd, Except.ok.injEq, Prod.mk.injEq] at h
      exact ⟨rest, by rw [h.1], h.2.symm⟩
    | error e => simp [hi, hd] at h

/-- Everything one step can do. -/
theorem step_next {s s' : State} (h : step s = .next s') :
    s.configOk = true ∧
      ((∃ t, pendingTick s = some t ∧ serveTick t s = .next s') ∨
       (pendingTick s = none ∧ ∃ i rest, s.issued = i :: rest ∧ exec i { s with issued := rest } = .next s') ∨
       (pendingTick s = none ∧ ∃ i rest, s.issued = [] ∧
          decodeStep s.params.adcBits s.schedule = .ok (i, rest) ∧ exec i { s with schedule := rest } = .next s')) := by
  unfold step at h
  split at h
  · refine ⟨‹_›, ?_⟩
    cases hp : pendingTick s with
    | some t => rw [hp] at h; exact .inl ⟨t, rfl, h⟩
    | none =>
      rw [hp] at h
      right
      cases hf : fetchOperation s with
      | ok ir =>
        obtain ⟨i, s1⟩ := ir
        rw [hf] at h
        obtain ⟨rest, hi, rfl⟩ | ⟨hi, rest, hd, rfl⟩ := fetchOperation_ok hf
        · exact .inl ⟨rfl, i, rest, hi, h⟩
        · exact .inr ⟨rfl, i, rest, hi, hd, h⟩
      | error r => rw [hf] at h; cases h
  · cases h

end Sys2Proof.Machine
end

