-- ==== Sys2Proof/Laws/Effect.lean ====
section
/-!
SUPPORT. Everything an operation can do when it answers a next state, said once for all instructions: `Effect` lists
the ways, `exec_next` says there are no others. An invariant of the machine is one case per way.
-/

namespace Sys2Proof.Machine

open Sys2Proof.Safety

/-- The ways an instruction can change the state. -/
inductive Effect (s : State) : Instr → State → Prop
  /-- Nothing but the result changes: a rejection, a query, a word with reserved bits, a reserved operation number. -/
  | onlyResult (i : Instr) (r : Option Result) : Effect s i { s with result := r }
  /-- A half-transition. -/
  | halfStep (t : Track) (s' : State) (h : serveTick t s = .next s') : Effect s (.tick t 0) s'
  /-- A poll of the supervisor. -/
  | poll (t : Track) (now raw : Nat) (hraw : raw < 2 ^ s.params.adcBits)
      (hnow : s.clock ≤ now) :
      Effect s (.check t 0 now raw)
        (finished t (checkUnit now raw (s.unit t)) none { s with clock := now })
  /-- A refill by SERVICE. -/
  | refilled (t : Track) : Effect s (.service t 0) (finished t (refill (s.unit t)) none s)
  /-- An accepted ENQ that takes a free entry. -/
  | appended (t : Track) (f : EnqFlags) (tag : Byte) (p : Packet) (hlegal : enqOperandsLegal s.params 0 f)
      (hvalid : valid s.params.maxPacketBytes p = true)
      (hnew : f.periodic = true → tagInRing tag (s.unit t).ring = false)
      (hroom : (s.unit t).ring.length < (s.unit t).cfg.cap) :
      Effect s (.enq t 0 f tag p)
        (finished t (acceptEntry (s.unit t).ring (entryOf f tag p) (s.unit t)) (some .success) s)
  /-- An accepted ENQ that replaces the periodic entry of its tag. -/
  | replaced (t : Track) (f : EnqFlags) (tag : Byte) (p : Packet) (hlegal : enqOperandsLegal s.params 0 f)
      (hvalid : valid s.params.maxPacketBytes p = true) (hper : f.periodic = true)
      (hold : tagInRing tag (s.unit t).ring = true) :
      Effect s (.enq t 0 f tag p)
        (finished t (acceptEntry (removeTag tag (s.unit t).ring) (entryOf f tag p) (s.unit t)) (some .success) s)
  /-- A CANCEL that finds its entry. -/
  | cancelled (t : Track) (tag : Byte) (hold : tagInRing tag (s.unit t).ring = true) :
      Effect s (.cancel t 0 tag)
        (finished t { s.unit t with ring := removeTag tag (s.unit t).ring } (some .success) s)
  /-- PWRON. -/
  | powerOn (t : Track) : Effect s (.pwron t 0) (finished t (setPower true (s.unit t)) (some .success) s)
  /-- PWROFF. -/
  | powerOff (t : Track) : Effect s (.pwroff t 0) (finished t (setPower false (s.unit t)) (some .success) s)
  /-- BRKON in a scheme with a brake pin. -/
  | brakeOn (t : Track) (hscheme : (s.unit t).cfg.scheme = .brakeEnable) :
      Effect s (.brkon t 0) (finished t (setBrake true (s.unit t)) (some .success) s)
  /-- BRKOFF in a scheme with a brake pin. -/
  | brakeOff (t : Track) (hscheme : (s.unit t).cfg.scheme = .brakeEnable) :
      Effect s (.brkoff t 0) (finished t (setBrake false (s.unit t)) (some .success) s)
  /-- The transmission of a frame. -/
  | transmitted (t : Track) (q : Packet) (i : Instr) (s' : State) (hi : frameInstr t q = some i)
      (h : transmit t q s = .next s') : Effect s i s'

theorem execEnq_next {t : Track} {rsv : BitVec 3} {f : EnqFlags} {tag : Byte} {p : Packet} {s s' : State}
    (h : execEnq t rsv f tag p s = .next s') : Effect s (.enq t rsv f tag p) s' := by
  unfold execEnq at h
  split at h
  · rw [reject_next_iff.1 h]; exact .onlyResult _ _
  · rename_i hk
    obtain ⟨⟨rfl, hlegal⟩, hv⟩ := (checkEnq_none_iff _ _ _ _).1 hk
    split at h
    · rename_i hold
      rw [Bool.and_eq_true] at hold
      rw [finish_next_iff.1 h]
      exact .replaced t f tag p ⟨rfl, hlegal⟩ hv hold.1 hold.2
    · rename_i hnew
      split at h
      · rw [reject_next_iff.1 h]; exact .onlyResult _ _
      · rw [finish_next_iff.1 h]
        exact .appended t f tag p ⟨rfl, hlegal⟩ hv (fun hp => by simpa [hp] using hnew) (by omega)

theorem execCancel_next {t : Track} {rsv : BitVec 3} {tag : Byte} {s s' : State}
    (h : execCancel t rsv tag s = .next s') : Effect s (.cancel t rsv tag) s' := by
  unfold execCancel at h
  split at h
  · rw [reject_next_iff.1 h]; exact .onlyResult _ _
  · rename_i hr
    obtain rfl : rsv = 0 := by simpa using hr
    split at h
    · rw [finish_next_iff.1 h]; exact .cancelled t tag ‹_›
    · rw [reject_next_iff.1 h]; exact .onlyResult _ _

theorem execService_next {t : Track} {rsv : BitVec 3} {s s' : State} (h : execService t rsv s = .next s') :
    Effect s (.service t rsv) s' := by
  unfold execService at h
  split at h
  · rw [answer_next_iff.1 h]; exact .onlyResult _ _
  · rename_i hr
    obtain rfl : rsv = 0 := by simpa using hr
    rw [finish_next_iff.1 h]; exact .refilled t

theorem execPwron_next {t : Track} {rsv : BitVec 3} {s s' : State} (h : execPwron t rsv s = .next s') :
    Effect s (.pwron t rsv) s' := by
  unfold execPwron at h
  split at h
  · rw [reject_next_iff.1 h]; exact .onlyResult _ _
  · rename_i hr
    obtain rfl : rsv = 0 := by simpa using hr
    rw [finish_next_iff.1 h]; exact .powerOn t

theorem execPwroff_next {t : Track} {rsv : BitVec 3} {s s' : State} (h : execPwroff t rsv s = .next s') :
    Effect s (.pwroff t rsv) s' := by
  unfold execPwroff at h
  split at h
  · rw [reject_next_iff.1 h]; exact .onlyResult _ _
  · rename_i hr
    obtain rfl : rsv = 0 := by simpa using hr
    rw [finish_next_iff.1 h]; exact .powerOff t

theorem execBrkon_next {t : Track} {rsv : BitVec 3} {s s' : State} (h : execBrkon t rsv s = .next s') :
    Effect s (.brkon t rsv) s' := by
  unfold execBrkon at h
  split at h
  · rw [reject_next_iff.1 h]; exact .onlyResult _ _
  · rename_i hr
    obtain rfl : rsv = 0 := by simpa using hr
    split at h
    · rw [reject_next_iff.1 h]; exact .onlyResult _ _
    · rename_i hs
      rw [finish_next_iff.1 h]; exact .brakeOn t (by simpa using hs)

theorem execBrkoff_next {t : Track} {rsv : BitVec 3} {s s' : State} (h : execBrkoff t rsv s = .next s') :
    Effect s (.brkoff t rsv) s' := by
  unfold execBrkoff at h
  split at h
  · rw [reject_next_iff.1 h]; exact .onlyResult _ _
  · rename_i hr
    obtain rfl : rsv = 0 := by simpa using hr
    split at h
    · rw [reject_next_iff.1 h]; exact .onlyResult _ _
    · rename_i hs
      rw [finish_next_iff.1 h]; exact .brakeOff t (by simpa using hs)

/-- An operation that only answers, after the check of its reserved bits, changes nothing but the result. -/
theorem queryLike_next {rsv : BitVec 3} {r : Option Result} {i : Instr} {s s' : State}
    (h : (if rsv ≠ 0 then reject .badOperand s else answer r s) = .next s') : Effect s i s' := by
  split at h
  · rw [reject_next_iff.1 h]; exact .onlyResult _ _
  · rw [answer_next_iff.1 h]; exact .onlyResult _ _

/-- Everything any instruction can do when it answers a next state. -/
theorem exec_next {i : Instr} {s s' : State} (h : exec i s = .next s') : Effect s i s' := by
  cases i with
  | tick t rsv =>
    rcases execTick_next h with ⟨-, rfl⟩ | ⟨rfl, h⟩
    · exact .onlyResult _ _
    · exact .halfStep t s' h
  | check t rsv now raw =>
    rcases execCheck_next h with ⟨-, rfl⟩ | ⟨rfl, hraw, hnow, rfl⟩
    · exact .onlyResult _ _
    · have := Effect.poll (s := s) t now raw hraw hnow
      cases t <;> exact this
  | service t rsv => exact execService_next h
  | enq t rsv f tag p => exact execEnq_next h
  | cancel t rsv tag => exact execCancel_next h
  | pwron t rsv => exact execPwron_next h
  | pwroff t rsv => exact execPwroff_next h
  | brkon t rsv => exact execBrkon_next h
  | brkoff t rsv => exact execBrkoff_next h
  | qpwr t rsv => exact queryLike_next h
  | qtrip t rsv => exact queryLike_next h
  | qcur t rsv => exact queryLike_next h
  | reservedC low => rw [reject_next_iff.1 h]; exact .onlyResult _ _
  | reservedD low => rw [reject_next_iff.1 h]; exact .onlyResult _ _
  | reservedE low => rw [reject_next_iff.1 h]; exact .onlyResult _ _
  | reservedF low => rw [reject_next_iff.1 h]; exact .onlyResult _ _
  | frame2 t a b => exact .transmitted t [a, b] _ s' rfl h
  | frame3 t a b c => exact .transmitted t [a, b, c] _ s' rfl h
  | frame4 t a b c d => exact .transmitted t [a, b, c, d] _ s' rfl h
  | frame5 t a b c d e => exact .transmitted t [a, b, c, d, e] _ s' rfl h
  | frame6 t a b c d e f => exact .transmitted t [a, b, c, d, e, f] _ s' rfl h

/-- The step-word decoder never gives a FRAME row: a frame stands on the wire, not in the schedule. -/
theorem decodeStep_not_frame {adcBits : Nat} {bs rest : List Byte} {i : Instr}
    (h : decodeStep adcBits bs = .ok (i, rest)) (t : Track) (q : Packet) : frameInstr t q ≠ some i := by
  have hq : ∀ j : Instr, frameInstr t q = some j → instrContext j = .interrupt ∧ ∀ u r, j ≠ .tick u r := by
    intro j hj
    unfold frameInstr at hj
    split at hj <;> cases hj <;> exact ⟨rfl, fun _ _ => by simp⟩
  have hc : instrContext i = .nonInterrupt ∨ ∃ u r, i = .tick u r := by
    unfold decodeStep decodeCheck decodeEnq decodeCancel at h
    repeat' split at h
    all_goals first
      | (simp only [Except.ok.injEq, Prod.mk.injEq] at h
         rw [← h.1]
         first | exact .inl rfl | exact .inr ⟨_, _, rfl⟩)
      | cases h
  intro hj
  obtain ⟨h1, h2⟩ := hq i hj
  rcases hc with hc | ⟨u, r, hc⟩
  · rw [hc] at h1; cases h1
  · exact h2 u r hc

/-- Everything one step can do: serve a pending tick, perform an issued operation, or run an operation of the schedule,
which is no FRAME row. -/
theorem step_effect {s s' : State} (h : step s = .next s') :
    (∃ t, pendingTick s = some t ∧ serveTick t s = .next s') ∨
    (∃ i rest, s.issued = i :: rest ∧ Effect { s with issued := rest } i s') ∨
    ∃ i rest, s.issued = [] ∧ (∀ t q, frameInstr t q ≠ some i) ∧ Effect { s with schedule := rest } i s' := by
  obtain ⟨-, ⟨t, hp, ht⟩ | ⟨-, i, rest, hi, he⟩ | ⟨-, i, rest, hi, hd, he⟩⟩ := step_next h
  · exact .inl ⟨t, hp, ht⟩
  · exact .inr (.inl ⟨i, rest, hi, exec_next he⟩)
  · exact .inr (.inr ⟨i, rest, hi, fun t q => decodeStep_not_frame hd t q, exec_next he⟩)

end Sys2Proof.Machine
end

