-- ==== Sys2Proof/Laws/PerInstr.lean ====
section
/-!
SUPPORT. Statements made of every instruction as syntax, one lemma per constructor. `EncodedLength`: how long the
encoding of each instruction is, by the table of 30_encoding.md R69 for step words and by R63 for frame patterns.
-/

namespace Sys2Proof.Laws.EncodedLength

open Sys2Proof Sys2Proof.Machine

/-- The length 30_encoding.md gives each row: bytes of a step word (R69; R72 for the reserved operation numbers), bits
of a frame after its preamble (R63: `9·L + 1`). -/
def tableLength : Instr → Nat
  | .tick _ _ => 1
  | .check _ _ _ _ => 7
  | .service _ _ => 1
  | .enq _ _ _ _ pkt => 4 + pkt.length
  | .cancel _ _ _ => 2
  | .pwron _ _ => 1
  | .pwroff _ _ => 1
  | .brkon _ _ => 1
  | .brkoff _ _ => 1
  | .qpwr _ _ => 1
  | .qtrip _ _ => 1
  | .qcur _ _ => 1
  | .reservedC _ => 1
  | .reservedD _ => 1
  | .reservedE _ => 1
  | .reservedF _ => 1
  | .frame2 _ _ _ => 9 * 2 + 1
  | .frame3 _ _ _ _ => 9 * 3 + 1
  | .frame4 _ _ _ _ _ => 9 * 4 + 1
  | .frame5 _ _ _ _ _ _ => 9 * 5 + 1
  | .frame6 _ _ _ _ _ _ _ => 9 * 6 + 1

/-- The length of a code: bytes of a step word, bits of a frame pattern. -/
def codeLength : Code → Nat
  | .step bytes => bytes.length
  | .wire _ bits => bits.length

/-- The encoding has the length of its row, under either bit order. -/
def Statement (i : Instr) : Prop := ∀ o : BitOrder, codeLength (encode o i) = tableLength i

theorem tick (t : Track) (rsv : BitVec 3) : Statement (.tick t rsv) := fun _ => rfl
theorem check (t : Track) (rsv : BitVec 3) (now raw : Nat) :
    Statement (.check t rsv now raw) := fun _ => rfl
theorem service (t : Track) (rsv : BitVec 3) : Statement (.service t rsv) := fun _ => rfl
theorem enq (t : Track) (rsv : BitVec 3) (flags : EnqFlags) (tag : Byte) (pkt : Packet) :
    Statement (.enq t rsv flags tag pkt) := by
  intro o
  simp [codeLength, encode, tableLength]
  omega
theorem cancel (t : Track) (rsv : BitVec 3) (tag : Byte) : Statement (.cancel t rsv tag) := fun _ => rfl
theorem pwron (t : Track) (rsv : BitVec 3) : Statement (.pwron t rsv) := fun _ => rfl
theorem pwroff (t : Track) (rsv : BitVec 3) : Statement (.pwroff t rsv) := fun _ => rfl
theorem brkon (t : Track) (rsv : BitVec 3) : Statement (.brkon t rsv) := fun _ => rfl
theorem brkoff (t : Track) (rsv : BitVec 3) : Statement (.brkoff t rsv) := fun _ => rfl
theorem qpwr (t : Track) (rsv : BitVec 3) : Statement (.qpwr t rsv) := fun _ => rfl
theorem qtrip (t : Track) (rsv : BitVec 3) : Statement (.qtrip t rsv) := fun _ => rfl
theorem qcur (t : Track) (rsv : BitVec 3) : Statement (.qcur t rsv) := fun _ => rfl
theorem reservedC (low : BitVec 4) : Statement (.reservedC low) := fun _ => rfl
theorem reservedD (low : BitVec 4) : Statement (.reservedD low) := fun _ => rfl
theorem reservedE (low : BitVec 4) : Statement (.reservedE low) := fun _ => rfl
theorem reservedF (low : BitVec 4) : Statement (.reservedF low) := fun _ => rfl
theorem frame2 (t : Track) (a b : Byte) : Statement (.frame2 t a b) := fun _ => rfl
theorem frame3 (t : Track) (a b c : Byte) : Statement (.frame3 t a b c) := fun _ => rfl
theorem frame4 (t : Track) (a b c d : Byte) : Statement (.frame4 t a b c d) := fun _ => rfl
theorem frame5 (t : Track) (a b c d e : Byte) : Statement (.frame5 t a b c d e) := fun _ => rfl
theorem frame6 (t : Track) (a b c d e f : Byte) : Statement (.frame6 t a b c d e f) := fun _ => rfl

end Sys2Proof.Laws.EncodedLength
end

