-- ==== Sys2Proof/Tests/Slice0.lean ====
section
/-!
SUPPORT. The model's own tests: decoding of words written out from spec/30_encoding.md, refusals of ill-formed terms,
single steps whose expected results are the vectors of spec/95_test_vectors.md and the worked examples of the rules, and
for each obligation with hypotheses a witness that meets them.
-/

namespace Sys2Proof.Tests

open Sys2Proof Sys2Proof.Machine Sys2Proof.Safety

/-! ### Small states -/

/-- A property of the state an outcome goes on to; false where it stops. -/
def after (o : Out) (f : State → Bool) : Bool :=
  match o with
  | .next s => f s
  | .fault _ => false
  | .refused _ => false

/-- The reset state with its main unit changed. -/
def withMain (f : TrackUnit → TrackUnit) : State := { State.reset with main := f State.reset.main }

/-- The reset state with a packet in the main slot and a main ring. -/
def queued (slot : Option Packet) (ring : List Entry) : State := withMain fun T => { T with slot := slot, ring := ring }

/-- The reset state with the main encoder at a position. -/
def atPosition (e : Encoder) : State := withMain fun T => { T with enc := e }

/-- The reset state with the main supervisor and its enable pin changed, and the clock. -/
def supervised (clock : Nat) (v : Supervisor) (enable : Level) : State :=
  { withMain fun T => { T with sup := v, pins := { T.pins with enable := enable } } with clock := clock }

/-- The reset state with a main unit in another control scheme. -/
def inScheme (c : Scheme) (sigB brake : Option PinId) : State :=
  State.resetWith .vectors { TrackConfig.vectorsMain with scheme := c, sigB := sigB, brake := brake } .vectorsProg 0

/-- The packet of vector V1. -/
def pktA : Packet := [0x03, 0x3F, 0x3C]

/-- The packet of vector V7. -/
def pktB : Packet := [0x03, 0x40, 0x43]

/-- A periodic entry. -/
def every (tag : Byte) (p : Packet) : Entry := { pkt := p, periodic := true, tag := tag, repeats := 0 }

/-- A one-shot entry. -/
def once (r : Nat) (p : Packet) : Entry := { pkt := p, periodic := false, tag := 0, repeats := r }

/-- ENQ flags of a one-shot and of a periodic packet. -/
def onceFlags (r : Nat) : EnqFlags := { periodic := false, rsv := 0, repeats := r }
def everyFlags : EnqFlags := { periodic := true, rsv := 0, repeats := 0 }

/-- A supervisor that is on and not tripped, with a reading and the time of its last sample. -/
def running (reading : Rat) (last : Nat) : Supervisor :=
  { trip := none, reading := reading, lastSampleTime := last, powerReq := true, brakeReq := false }

/-- A supervisor tripped at a time. -/
def trippedAt (since : Nat) (reading : Rat) (last : Nat) (on : Bool) : Supervisor :=
  { trip := some since, reading := reading, lastSampleTime := last, powerReq := on, brakeReq := false }

/-! ### Well-formedness refuses what has no encoding -/

theorem test_wellFormed_check_raw : wellFormed .vectors (.check .main 0 10 1024) = false ∧
    wellFormed .vectors (.check .main 0 10 1023) = true ∧ wellFormed .vectors (.check .main 1 10 1024) = true := by
  decide

/-- Answers that do not fit the operand bytes of R69. -/
theorem test_wellFormed_check_width : wellFormed .vectors (.check .main 0 4294967296 0) = false ∧
    wellFormed .vectors (.check .main 0 4294967295 0) = true ∧ wellFormed .vectors (.check .main 1 0 65536) = false ∧
    wellFormed { BlockParams.vectors with adcBits := 17 } (.check .main 0 0 65536) = false ∧
    wellFormed { BlockParams.vectors with adcBits := 17 } (.check .main 0 0 65535) = true := by decide

/-- An ENQ of more than 255 bytes (R69's length byte). -/
theorem test_wellFormed_enq_length (p : Packet) (h : 255 < p.length) :
    wellFormed .vectors (.enq .main 0 everyFlags 0 p) = false :=
  decide_eq_false (by omega)

theorem witness_test_wellFormed_enq_length : ∃ p : Packet, 255 < p.length :=
  ⟨List.replicate 256 0, by rw [List.length_replicate]; decide⟩

/-- A repeat count of more than 15 (R69's four bits). -/
theorem test_wellFormed_enq_repeats : wellFormed .vectors (.enq .main 0 (onceFlags 16) 0 pktA) = false ∧
    wellFormed .vectors (.enq .main 0 (onceFlags 15) 0 pktA) = true := by decide

theorem test_wellFormed_frames : wellFormed .vectors (.frame2 .main 0xFF 0xFE) = false ∧
    wellFormed .vectors (.frame3 .main 0x03 0x3F 0x3D) = false ∧
    wellFormed .vectors (.frame4 .main 1 2 4 8) = false ∧ wellFormed .vectors (.frame5 .main 1 2 4 8 0) = false ∧
    wellFormed .vectors (.frame6 .main 1 2 4 8 16 0) = false ∧
    wellFormed { BlockParams.vectors with maxPacketBytes := 5 } (.frame6 .main 0xC0 0x01 0xEC 0x05 0x55 0x7D) = false ∧
    wellFormed .vectors (.frame6 .main 0xC0 0x01 0xEC 0x05 0x55 0x7D) = true := by decide

/-! ### Decoding of words written out from 30_encoding.md R63, R69, R72 -/

theorem test_decode_tick : decodeStep 10 [0b00000001] = .ok (.tick .prog 0, []) := by decide
theorem test_decode_check : decodeStep 10 [0x10, 0x09, 0x00, 0x00, 0x00, 0xFF, 0x03] = .ok (.check .main 0 9 1023, []) ∧
    decodeStep 10 [0x11, 0x01, 0x02, 0x03, 0x04, 0x05, 0x00] = .ok (.check .prog 0 0x04030201 5, []) := by decide
theorem test_decode_service : decodeStep 10 [0b00100000] = .ok (.service .main 0, []) := by decide
theorem test_decode_enq : decodeStep 10 [0x31, 0x01, 0x00, 0x03, 0x78, 0xEC, 0x94, 0x00] =
      .ok (.enq .prog 0 (onceFlags 1) 0 [0x78, 0xEC, 0x94], [0x00]) ∧
    decodeStep 10 [0x30, 0x01, 0x00, 0x00] = .ok (.enq .main 0 (onceFlags 1) 0 [], []) ∧
    decodeStep 10 [0x30, 0x11, 0x00, 0x00] =
      .ok (.enq .main 0 { periodic := false, rsv := 1, repeats := 1 } 0 [], []) := by decide
theorem test_decode_cancel : decodeStep 10 [0x40, 0x07] = .ok (.cancel .main 0 7, []) := by decide
theorem test_decode_power : decodeStep 10 [0b01010001] = .ok (.pwron .prog 0, []) ∧
    decodeStep 10 [0b01100000] = .ok (.pwroff .main 0, []) := by decide
theorem test_decode_brake : decodeStep 10 [0b01110000] = .ok (.brkon .main 0, []) ∧
    decodeStep 10 [0b10000001] = .ok (.brkoff .prog 0, []) := by decide
theorem test_decode_queries : decodeStep 10 [0b10010000] = .ok (.qpwr .main 0, []) ∧
    decodeStep 10 [0b10100000] = .ok (.qtrip .main 0, []) ∧ decodeStep 10 [0b10110001] = .ok (.qcur .prog 0, []) := by
  decide
/-- Vector V29. -/
theorem test_decode_reserved : decodeStep 10 [0xC0] = .ok (.reservedC 0, []) ∧
    decodeStep 10 [0xD1] = .ok (.reservedD 1, []) ∧ decodeStep 10 [0xEF] = .ok (.reservedE 15, []) ∧
    decodeStep 10 [0xFF, 0x50] = .ok (.reservedF 15, [0x50]) ∧ decodeStep 10 [0x02] = .ok (.tick .main 1, []) ∧
    decodeStep 10 [0x10, 0x0A, 0x00, 0x00, 0x00, 0x00, 0x04] = .error .analogOutOfRange := by decide
theorem test_decode_refusals : decodeStep 10 [] = .error .ended ∧ decodeStep 10 [0x40] = .error .truncated ∧
    decodeStep 10 [0x30, 0x01, 0x00, 0x03, 0x03, 0x3F] = .error .truncated ∧
    decodeStep 10 [0x10, 0x0A, 0x00, 0x00, 0x00, 0x00] = .error .truncated := by decide

/-- The bits of a 0/1 string, first bit first. -/
def bitsOfString (s : String) : List Bit := s.toList.filterMap fun c =>
  if c = '0' then some false else if c = '1' then some true else none

/-- Vectors V2, V1 and V4 after their preambles, and frames of four and five bytes written the same way. -/
theorem test_decode_frames :
    decodeFrame .vectors .prog (bitsOfString "0 11111111 0 11111111 1") = some (.frame2 .prog 0xFF 0xFF) ∧
    decodeFrame .vectors .main (bitsOfString "0 00000011 0 00111111 0 00111100 1") =
      some (.frame3 .main 0x03 0x3F 0x3C) ∧
    decodeFrame .vectors .main (bitsOfString "0 00000001 0 00000010 0 00000100 0 00000111 1") =
      some (.frame4 .main 1 2 4 7) ∧
    decodeFrame .vectors .main (bitsOfString "0 00000001 0 00000010 0 00000100 0 00001000 0 00001111 1") =
      some (.frame5 .main 1 2 4 8 15) ∧
    decodeFrame .vectors .main
        (bitsOfString "0 11000000 0 00000001 0 11101100 0 00000101 0 01010101 0 01111101 1") =
      some (.frame6 .main 0xC0 0x01 0xEC 0x05 0x55 0x7D) ∧
    decodeFrame .vectors .main (bitsOfString "0 00000011 0 00111111 0 00111101 1") = none := by decide

/-- Vector V7: two frames back to back, read by a receiver. -/
theorem test_receiver_reads_two_frames : framesOf .msbFirst 10 (bitsOfString
    ("1111111111 0 00000011 0 00111111 0 00111100 1" ++ "1111111111 0 00000011 0 01000000 0 01000011 1")) =
      some [pktA, pktB] := by decide

/-- The least significant bit of a table word is the least significant bit of the first byte. -/
theorem test_table_word : decodeTableWord 8 0x51 = some (.pwron .prog 0) ∧
    decodeTableWord 16 0x0740 = some (.cancel .main 0 7) ∧
    decodeTableWord 56 0x02580000000A10 = some (.check .main 0 10 600) := by decide
theorem test_step_runs_table_word : after (step (State.reset.withFetchWord 8 0x50)) (fun s =>
    s.main.sup.powerReq ∧ s.result = some .success ∧ s.schedule.length = 258) = true := by decide +kernel

/-! ### TICK -/

/-- Vector V1, TICK 1. -/
theorem test_tick_loads : after (exec (.tick .main 0) (queued (some pktA) [])) (fun s =>
    s.main.slot = none ∧ s.main.enc = ⟨.preamble, .first, 1, 0, 0, pktA⟩ ∧ s.main.wire = [⟨.high, 58⟩]) = true := by
  decide
/-- Vector V8: a malformed packet is consumed and dropped. -/
theorem test_tick_drops_malformed : after (exec (.tick .main 0) (queued (some [0x03, 0x3F, 0x3D]) [])) (fun s =>
    s.main.slot = none ∧ s.main.enc.sub = .idle ∧ s.main.enc.pkt = [] ∧ s.main.compare = 58) = true := by
  decide
/-- Vector V10: after TICK 1 `sigB` is the complement of `sigA`. -/
theorem test_tick_complements_sigB : after (exec (.tick .main 0) (inScheme .dualInverted (some 7) none)) (fun s =>
    s.main.pins.sigA = .high ∧ s.main.pins.sigB = some .low) = true := by decide

/-! ### The queue -/

/-- Vector V13. -/
theorem test_enq_straight_through : after (exec (.enq .main 0 (onceFlags 1) 0 pktA) State.reset) (fun s =>
    s.main.ring = [] ∧ s.main.slot = some pktA ∧ s.result = some .success) = true := by decide
/-- Vector V16 (with `QUEUE_CAP` = 4): the periodic entry of tag 1 is replaced, at the tail, in a full ring. -/
theorem test_enq_replaces : after (exec (.enq .main 0 everyFlags 1 [0x03, 0x3E, 0x3D])
    (queued (some pktA) [every 1 pktA, once 2 pktB, once 2 pktB, once 2 pktB])) (fun s =>
      s.main.ring = [once 2 pktB, once 2 pktB, once 2 pktB, every 1 [0x03, 0x3E, 0x3D]]) = true := by decide
/-- Vector V17. -/
theorem test_cancel : after (exec (.cancel .main 0 7) (queued none [every 7 pktA])) (fun s =>
    s.main.ring = [] ∧ s.main.slot = none ∧ s.result = some .success) = true := by decide
theorem test_cancel_leaves_one_shots : after (exec (.cancel .main 0 0) (queued none [once 1 pktA])) (fun s =>
    s.main.ring = [once 1 pktA] ∧ s.result = some (.rejected .notFound)) = true := by decide
/-- 41_queue.md R107's example. -/
theorem test_service : after (exec (.service .main 0) (queued none [every 1 pktA, once 2 pktB])) (fun s =>
    s.main.slot = some pktA ∧ s.main.ring = [once 2 pktB, every 1 pktA]) = true := by decide

/-! ### The supervisor -/

/-- Vector V22: 1000 counts is exactly the threshold, 1001 is over it. -/
theorem test_check_trips_above : after (exec (.check .main 0 10 1001) (supervised 0 (running 0 0) .high)) (fun s =>
      s.main.sup.trip = some 10 ∧ s.main.pins.enable = .low) = true ∧
    after (exec (.check .main 0 10 1000) (supervised 0 (running 0 0) .high)) (fun s =>
      s.main.sup.trip = none ∧ s.main.sup.reading = 500 ∧ s.main.pins.enable = .high) = true ∧
    after (exec (.check .main 0 10 600)
      { supervised 0 (running 0 0) .high with main.cfg := { TrackConfig.vectorsMain with alpha := 1 } }) (fun s =>
        s.main.sup.trip = some 10 ∧ s.main.sup.reading = 600 ∧ s.prog.cfg.alpha < 1) = true := by decide +kernel
/-- Vector V24: at 130 the unit is still tripped, at 131 it is retried. -/
theorem test_check_retries_after :
    after (exec (.check .main 0 131 0) (supervised 30 (trippedAt 30 525 130 true) .low)) (fun s =>
      s.main.sup.trip = none ∧ s.main.pins.enable = .high) = true ∧
    after (exec (.check .main 0 130 0) (supervised 30 (trippedAt 30 525 130 true) .low)) (fun s =>
      s.main.sup.trip = some 30 ∧ s.main.pins.enable = .low) = true := by decide
/-- Vector V26: while tripped PWRON leaves the pin low. -/
theorem test_pwron : after (exec (.pwron .main 0) State.reset) (fun s => s.main.pins.enable = .high) = true ∧
    after (exec (.pwron .main 0) (supervised 30 (trippedAt 30 525 30 false) .low)) (fun s =>
      s.main.pins.enable = .low ∧ s.main.sup.powerReq = true) = true := by decide
theorem test_pwroff : after (exec (.pwroff .main 0) (supervised 0 (running 0 0) .high)) (fun s =>
    s.main.pins.enable = .low ∧ s.main.sup.powerReq = false) = true := by decide
/-- Vector V27. -/
theorem test_brkon : after (exec (.brkon .main 0) (inScheme .brakeEnable none (some 7))) (fun s =>
      s.main.pins.brake = some .high ∧ s.result = some .success) = true ∧
    after (exec (.brkon .main 0) State.reset) (fun s => s.result = some (.rejected .unsupported)) = true := by
  decide
theorem test_brkoff : after (exec (.brkoff .main 0) (inScheme .brakeEnable none (some 7))) (fun s =>
    s.main.pins.brake = some .low ∧ s.main.sup.brakeReq = false) = true := by decide
/-- Vectors V26 and V28. -/
theorem test_qpwr : after (exec (.qpwr .main 0) State.reset) (fun s => s.result = some (.answer false)) = true := by
  decide
theorem test_qtrip : after (exec (.qtrip .main 0) (supervised 30 (trippedAt 30 525 30 true) .low)) (fun s =>
    s.result = some (.answer true)) = true := by decide
theorem test_qcur : after (exec (.qcur .main 0) (supervised 0 (running 525 0) .high)) (fun s =>
    s.result = some (.current 2625)) = true := by decide +kernel

/-! ### Reserved words and frames -/

/-- Vector V29. -/
theorem test_reserved : after (exec (.reservedC 0) State.reset) (fun s => s.result = some (.rejected .unsupported)) ∧
    after (exec (.reservedD 1) State.reset) (fun s => s.result = some (.rejected .unsupported)) ∧
    after (exec (.reservedE 15) State.reset) (fun s => s.result = some (.rejected .unsupported)) ∧
    after (exec (.reservedF 15) State.reset) (fun s => s.result = some (.rejected .unsupported)) := by decide

/-- Vectors V2 (39 bits, 4692 microseconds armed), V1 (the bits on the wire after the 76 TICKs, and the position) and
V4 (65 bits, 10396 microseconds armed), and frames of four and five bytes by their length. -/
theorem test_frames_on_the_wire :
    after (exec (.frame2 .prog 0xFF 0xFF)
      { State.reset with prog := { State.reset.prog with slot := some [0xFF, 0xFF] } }) (fun s =>
        s.prog.wire.length = 78 ∧ armedTotal s.prog.wire = 4692) = true ∧
    after (exec (.frame3 .main 0x03 0x3F 0x3C) (queued (some pktA) [])) (fun s =>
      bitsOf 58 s.main.wire = some (bitsOfString "1111111111 0 00000011 0 00111111 0 00111100 1") ∧
        s.main.enc = ⟨.ending, .second, 0, 0, 0, pktA⟩) = true ∧
    after (exec (.frame4 .main 1 2 4 7) (queued (some [1, 2, 4, 7]) [])) (fun s =>
      s.main.wire.length = 2 * (10 + 9 * 4 + 1)) = true ∧
    after (exec (.frame5 .main 1 2 4 8 15) (queued (some [1, 2, 4, 8, 15]) [])) (fun s =>
      s.main.wire.length = 2 * (10 + 9 * 5 + 1)) = true ∧
    after (exec (.frame6 .main 0xC0 0x01 0xEC 0x05 0x55 0x7D)
      (queued (some [0xC0, 0x01, 0xEC, 0x05, 0x55, 0x7D]) [])) (fun s =>
        s.main.wire.length = 130 ∧ armedTotal s.main.wire = 10396) = true := by decide +kernel

/-! ### Assembly (30_encoding.md R73, R74) -/

/-- The example of R73, and the pseudo-operations of R74. -/
theorem test_assembly : (AsmLine.enqOnce .main 1 (.plus [0x03, 0x3F])).expand.map (encode .msbFirst) =
      [.step [0x30, 0x01, 0x00, 0x03, 0x03, 0x3F, 0x3C]] ∧
    (AsmLine.bits .prog 2).expand.map (encode .msbFirst) = List.replicate 4 (.step [0x01]) ∧
    (AsmLine.loop 9 1023 5).expand =
      [.check .main 0 9 1023, .service .main 0, .check .prog 0 9 5, .service .prog 0] := by decide

/-! ### Witnesses: states and operands that meet the hypotheses of the obligations -/

/-- A schedule of one word loaded after reset. -/
def loaded (bytes : List Byte) : State := State.reset.load bytes

/-- The position in a byte group of a packet. -/
def groupAt (sub : Sub) (i k : Nat) (q : Packet) : Encoder := ⟨sub, .second, 0, i, k, q⟩

theorem reset_encoderInv : Each EncoderInv State.reset := by constructor <;> constructor <;> decide

theorem reset_signalInv : Each SignalInv State.reset := by
  constructor <;> exact ⟨by decide, by decide, fun b h => by cases h; rfl⟩

theorem reset_traceInv : Each TraceInv State.reset := by
  constructor <;> exact ⟨rfl, [], .start, rfl, rfl, .inl rfl⟩

theorem reset_queueInv : Each QueueInv State.reset := by
  constructor <;> exact ⟨by decide, (fun e he => by cases he), by decide, fun q h => by cases h⟩

theorem reset_clockInv : ClockInv State.reset := by intro t; cases t <;> exact ⟨Nat.le_refl 0, fun n h => by cases h⟩

theorem reset_readingInv : Each ReadingInv State.reset := by
  constructor <;> constructor <;> simp [State.reset, State.resetWith, TrackUnit.reset, BlockParams.vectors] <;> norm_num

theorem reset_configOk : State.reset.configOk = true := by decide +kernel

theorem witness_DecodeOfEncodeIsTheInstruction :
    (wellFormed .vectors (.check .main 0 10 1023) = true ∧ encode .msbFirst (.check .main 0 10 1023) =
      .step [0x10, 0x0A, 0x00, 0x00, 0x00, 0xFF, 0x03]) ∧ wellFormed .vectors (.frame2 .main 0xFF 0xFF) = true := by
  decide

theorem witness_WhatDecodesIsTheEncoding :
    decodeStep 10 [0x10, 0x0A, 0, 0, 0, 0xFF, 0x03, 0x50] = .ok (.check .main 0 10 1023, [0x50]) := by decide

theorem witness_TruncatedStepWordsAreRefused :
    wellFormed .vectors (.cancel .main 0 7) = true ∧ encode .msbFirst (.cancel .main 0 7) = .step [0x40, 0x07] ∧
    0 < 1 ∧ 1 < [0x40, 0x07].length ∧ (loaded [0x40]).configOk = true ∧ (loaded [0x40]).main.pending = false ∧
    (loaded [0x40]).prog.pending = false ∧ (loaded [0x40]).issued = [] ∧
    (loaded [0x40]).schedule = [0x40, 0x07].take 1 :=
  ⟨rfl, rfl, by decide, by decide, reset_configOk, rfl, rfl, rfl, rfl⟩

/-- A block booted at time `2^32` with a converter of 17 bits, and a CHECK issued whose answers have no step word. -/
def bootedLate : State :=
  (State.resetWith { BlockParams.vectors with adcBits := 17 } .vectorsMain .vectorsProg 4294967296).issue
    [.check .main 0 4294967306 65536]

/-- One state for each clause: an illegal configuration, a pending tick of either track, an issued operation, an
operation of the schedule, the end. -/
theorem witness_StepRunsTheDecodedOperation :
    ({ State.reset with params := { BlockParams.vectors with halfZero := 58 } } : State).configOk = false ∧
    (withMain fun T => { T with pending := true }).configOk = true ∧
    ({ State.reset with prog := { State.reset.prog with pending := true } } : State).main.pending = false ∧
    decodeStep (loaded [0x00]).params.adcBits (loaded [0x00]).schedule = .ok (.tick .main 0, []) ∧
    (loaded [0x00]).issued = [] ∧ State.reset.schedule = [] ∧
    (bootedLate.configOk = true ∧ bootedLate.issued = [.check .main 0 4294967306 65536] ∧
      ∃ s, step bootedLate = .next s ∧ s.clock = 4294967306 ∧ s.main.sup.lastSampleTime = 4294967306) :=
  ⟨by decide +kernel, reset_configOk, rfl, by decide, rfl, rfl, by decide +kernel, rfl, _, rfl, rfl, rfl⟩

theorem witness_ACompareMatchIsServedByOneTick : State.reset.configOk = true ∧ State.reset.main.timerOn = true ∧
    State.reset.main.pending = false ∧ State.reset.prog.pending = false ∧
    ∃ s, step (State.reset.setUnit .main { State.reset.main with pending := true }) = .next s :=
  ⟨reset_configOk, rfl, rfl, rfl, _, rfl⟩

theorem witness_ResultsHaveTheirStatusBytes :
    (∃ s, exec (.tick .main 0) State.reset = .next s) ∧ ∃ s, exec (.qpwr .main 0) State.reset = .next s :=
  ⟨⟨_, rfl⟩, _, rfl⟩

theorem witness_ReservedWordsChangeNothing : 12 ≤ (headOp 0xC0).toNat ∧ 12 ≤ (headOp 0xFF).toNat ∧
    reservedBits (.tick .main 1) ≠ 0 ∧ reservedBits (.enq .prog 7 everyFlags 0 []) ≠ 0 := by decide

theorem witness_FrameFieldsStandAtTheirPositions : 0 < 10 ∧ 2 < pktA.length ∧ pktA[2]? = some 0x3C ∧ 1 ≤ 8 ∧ 8 ≤ 8 := by
  decide

theorem witness_AStreamOfFramesDecodesToItsPackets :
    ∀ f ∈ [((1 : Nat), pktA), (0, pktB), (3, [0xFF])], f.2 ≠ [] := by decide

theorem witness_HalvesOfBitsPairBackIntoTheBits : BlockParams.vectors.halfOne < BlockParams.vectors.halfZero := by
  norm_num [BlockParams.vectors]

/-- Vector V1 has 12 zero bits among its 24 byte bits. -/
theorem witness_ArmedDurationOfAFrame : 12 = (pktA.flatMap (byteBits BlockParams.vectors.bitOrder)).count false := by
  decide

/-- The boundary positions of a byte group: its leading 0 bit, and bits 7 and 0 of 0x03. -/
theorem witness_CurrentBitIsTheBitOfThePosition :
    State.reset.main.enc.sub = .idle ∧ (groupAt .data 0 0 pktA).bitPos = 0 ∧
    curBit .msbFirst (groupAt .data 0 0 pktA) = some false ∧ curBit .msbFirst (groupAt .data 0 1 pktA) = some false ∧
    curBit .msbFirst (groupAt .data 0 8 pktA) = some true ∧ (groupAt .data 0 8 pktA).pkt[0]? = some 0x03 := by decide

theorem witness_TickInTheMiddleOfABit :
    let s := atPosition { groupAt .data 0 8 pktA with half := .first }
    s.main.timerOn = true ∧ s.main.enc.half = .first ∧ curBit s.params.bitOrder s.main.enc = some true := by decide

theorem witness_TickInTheMiddleOfABit_sameDuration :
    let s := withMain fun T => { T with enc := { T.enc with half := .first }, pins := { T.pins with sigA := .high } }
    s.main.timerOn = true ∧ s.main.enc.half = .first ∧ curBit s.params.bitOrder s.main.enc = some true ∧
      SignalInv s.params s.main :=
  ⟨rfl, rfl, rfl, by decide, by decide, fun b h => by cases h; rfl⟩

theorem witness_TickLoadsAValidPacket :
    let s := queued (some pktA) []
    s.main.timerOn = true ∧ s.main.enc.half = .second ∧ s.main.enc.sub = .idle ∧ s.main.slot = some pktA ∧
      valid s.params.maxPacketBytes pktA = true := by decide

/-- An empty slot, and a malformed packet (vector V8). -/
theorem witness_TickIdlesWithoutAValidPacket :
    (∀ q, State.reset.main.slot = some q → valid State.reset.params.maxPacketBytes q = false) ∧
    ∀ q, (queued (some [0x03, 0x3F, 0x3D]) []).main.slot = some q → valid 6 q = false :=
  ⟨fun q h => (by cases h), fun q h => (by cases h; decide)⟩

/-- Preamble bits 9 and 10 of 10. -/
theorem witness_TickInThePreamble : (⟨.preamble, .second, 9, 0, 0, pktA⟩ : Encoder).pre < State.reset.main.cfg.preamble ∧
    State.reset.main.cfg.preamble ≤ (⟨.preamble, .second, 10, 0, 0, pktA⟩ : Encoder).pre := by decide

/-- The last bit of a byte, the separator after it, and the end after the checksum byte. -/
theorem witness_TickInAByteGroup :
    ((groupAt .data 1 7 pktA).bitPos < 8 ∧ (groupAt .data 1 7 pktA).pkt[1]? = some 0x3F) ∧
    (8 ≤ (groupAt .data 1 8 pktA).bitPos ∧ (groupAt .data 1 8 pktA).byteIdx + 1 < pktA.length) ∧
    (8 ≤ (groupAt .checksum 2 8 pktA).bitPos ∧ pktA.length ≤ (groupAt .checksum 2 8 pktA).byteIdx + 1) := by decide

/-- A state for each clause. -/
theorem witness_TickCompletesUnderThePositionInvariant :
    (State.reset.main.timerOn = true ∧ EncoderInv State.reset.params State.reset.main) ∧
    (withMain fun T => { T with timerOn := false }).main.timerOn = false ∧
    (curBit .msbFirst { groupAt .data 3 1 pktA with half := .first } = none ∧
      exec (.tick .main 0) (atPosition { groupAt .data 3 1 pktA with half := .first }) = .fault .noValue) ∧
    (groupAt .data 3 7 pktA).half = .second ∧ (groupAt .data 3 7 pktA).bitPos < 8 ∧
    (groupAt .data 3 7 pktA).pkt[3]? = none ∧
    exec (.tick .main 0) (atPosition (groupAt .data 3 7 pktA)) = .fault .noValue ∧
    ∃ s, exec (.tick .main 0) (atPosition (groupAt .data 3 8 pktA)) = .next s :=
  ⟨⟨rfl, reset_encoderInv.1⟩, rfl, ⟨rfl, rfl⟩, rfl, by decide, rfl, rfl, _, rfl⟩

theorem witness_TickLeavesTheRestUnchanged : (∃ s, exec (.tick .main 0) (queued (some pktA) []) = .next s) ∧
    ∃ s, exec (.tick .main 5) State.reset = .next s := ⟨⟨_, rfl⟩, _, rfl⟩

theorem witness_TickIsIndependentOfTheSupervisor : ∃ s, exec (.tick .main 0) (queued (some pktA) []) = .next s := ⟨_, rfl⟩

theorem witness_AnEmptySlotGivesAnUnbrokenIdleStream :
    let T := State.reset.main
    T.timerOn = true ∧ T.enc.half = .second ∧ T.enc.sub = .idle ∧ T.slot = none ∧ T.enc.pre = 0 ∧
      T.enc.byteIdx = 0 ∧ T.enc.bitPos = 0 ∧ T.enc.pkt = [] := by decide

/-- Each of the five FRAME rows, from idle and from a packet-end bit, and a packet of 7 bytes, which has no row. -/
theorem witness_AFrameRowEmitsExactlyItsFrame :
    (∀ q ∈ [[0xFF, 0xFF], pktA, [1, 2, 4, 7], [1, 2, 4, 8, 15], [0xC0, 0x01, 0xEC, 0x05, 0x55, 0x7D]],
      frameInstr .main q ≠ none ∧ valid State.reset.params.maxPacketBytes q = true ∧
      (queued (some q) []).main.slot = some q ∧ (queued (some q) []).main.enc.half = .second ∧
      (queued (some q) []).main.enc.sub = .idle ∧ (queued (some q) []).main.timerOn = true) ∧
    (atPosition ⟨.ending, .second, 0, 0, 0, pktB⟩).main.enc.sub = .ending ∧ 1 ≤ State.reset.main.cfg.preamble ∧
    valid 7 [1, 2, 4, 8, 16, 32, 63] = true ∧ frameInstr .main [1, 2, 4, 8, 16, 32, 63] = none := by
  decide

/-- A state for each way the frame of `pktA` is not next. -/
theorem witness_AFrameRowStopsWhereItsFrameIsNotNext : frameInstr .main pktA = some (.frame3 .main 0x03 0x3F 0x3C) ∧
    (withMain fun T => { T with timerOn := false }).main.timerOn = false ∧
    (atPosition ⟨.idle, .first, 0, 0, 0, []⟩).main.enc.half = .first ∧
    (atPosition (groupAt .data 0 0 pktB)).main.enc.sub = .data ∧ State.reset.main.slot ≠ some pktA ∧
    valid 6 [0x03, 0x3F, 0x3D] = false := by decide

/-- An input for each rejection, at its boundary: vectors V11 and V12. -/
theorem witness_EnqRejectsInItsOrder :
    ((1 : BitVec 3) ≠ 0 ∧ ({ onceFlags 1 with rsv := 1 } : EnqFlags).rsv ≠ 0) ∧
    ((onceFlags 0).periodic = false ∧ (onceFlags 0).repeats = 0) ∧
    (({ everyFlags with repeats := 2 } : EnqFlags).periodic = true ∧ ({ everyFlags with repeats := 2 } : EnqFlags).repeats ≠ 0) ∧
    enqOperandsLegal .vectors 0 (onceFlags 1) ∧ enqOperandsLegal .vectors 0 (onceFlags 15) ∧ enqOperandsLegal .vectors 0 everyFlags ∧
    ([0x03] : Packet).length < 2 ∧ 6 < ([1, 2, 3, 4, 5, 6, 7] : Packet).length ∧
    ([0x03, 0x3F, 0x3D] : Packet).getLast? ≠ some (checksum ([0x03, 0x3F, 0x3D] : Packet).dropLast) ∧
    4 ≤ (List.replicate 4 (once 1 pktB)).length ∧
    ∀ e ∈ List.replicate 4 (once 1 pktB), ¬ (e.periodic = true ∧ e.tag = 2) :=
  ⟨by decide, by decide, by decide, ⟨rfl, rfl, by decide, by decide⟩, ⟨rfl, rfl, by decide, by decide⟩,
    ⟨rfl, rfl, by decide, by decide⟩, by decide,
    by decide, by decide, by decide, by decide⟩

/-- A ring with one free entry; and a full ring whose second entry is the periodic entry of tag 1 (vector V16). -/
theorem witness_EnqAppendsOrReplacesAndRefills : enqOperandsLegal .vectors 0 everyFlags ∧ valid 6 pktA = true ∧
    (queued none (List.replicate 3 (once 1 pktB))).main.ring.length < State.reset.main.cfg.cap ∧
    (queued (some pktB) ([once 2 pktB] ++ every 1 pktA :: [once 1 pktB, once 1 pktB])).main.ring.length = 4 ∧
    IsPeriodicOf 1 (every 1 pktA) ∧ ∀ y ∈ [once 2 pktB], ¬ IsPeriodicOf 1 y :=
  ⟨⟨rfl, rfl, by decide, by decide⟩, by decide, by decide, by decide, ⟨rfl, rfl⟩, by
    intro y hy; rw [List.mem_singleton.1 hy]; rintro ⟨h, -⟩; cases h⟩

/-- A ring with the entry, one with a one-shot of tag 0 only (vector V17), and reserved bits. -/
theorem witness_CancelRemovesThePeriodicEntry :
    (queued none ([] ++ every 7 pktA :: [])).main.ring = [] ++ every 7 pktA :: [] ∧ IsPeriodicOf 7 (every 7 pktA) ∧
    (∀ e ∈ (queued none [once 1 pktA]).main.ring, ¬ IsPeriodicOf 0 e) ∧ (1 : BitVec 3) ≠ 0 :=
  ⟨rfl, ⟨rfl, rfl⟩, (by intro e he; rw [List.mem_singleton.1 he]; rintro ⟨h, -⟩; cases h), by decide⟩

theorem witness_ServiceHandsOverTheOldestEntry : (queued (some pktA) [once 1 pktB]).main.slot = some pktA ∧
    (queued none []).main.ring = [] ∧ ((queued none [once 1 pktA]).main.slot = none ∧
    (queued none [once 1 pktA]).main.ring = once 1 pktA :: [] ∧ ¬ 1 < (once 1 pktA).repeats) ∧
    1 < (once 2 pktA).repeats ∧ (every 1 pktA).periodic = true := by decide

theorem witness_QueueOperationsLeaveTheRestUnchanged :
    (∃ s, exec (.enq .main 0 (onceFlags 2) 0 pktA) State.reset = .next s) ∧
    (∃ s, exec (.cancel .main 0 7) (queued none [every 7 pktA]) = .next s) ∧
    ∃ s, exec (.service .main 0) (queued none [once 2 pktA]) = .next s := ⟨⟨_, rfl⟩, ⟨_, rfl⟩, _, rfl⟩

/-! A good reset state with a TICK word loaded takes a step: the hypotheses of the invariants' statements together. -/

theorem loaded_steps : ∃ s, step (loaded [0x00]) = .next s := ⟨_, rfl⟩

theorem witness_EveryStepKeepsTheQueueInvariant : Each QueueInv (loaded [0x30, 0x01, 0x00, 0x03, 0x03, 0x3F, 0x3C]) ∧
    ∃ s, step (loaded [0x30, 0x01, 0x00, 0x03, 0x03, 0x3F, 0x3C]) = .next s := ⟨reset_queueInv, _, rfl⟩

theorem reset_brakeInv : Each BrakeInv State.reset := ⟨⟨rfl, fun _ => rfl⟩, ⟨rfl, fun _ => rfl⟩⟩

theorem witness_EveryStepKeepsTheEnableAndBrakeInvariants : Each PowerInv (loaded [0x50]) ∧ Each BrakeInv (loaded [0x50]) ∧
    ∃ s, step (loaded [0x50]) = .next s := ⟨⟨rfl, rfl⟩, reset_brakeInv, _, rfl⟩

theorem witness_EveryStepKeepsTheReadingAndTheClock : Each ReadingInv (loaded [0x10, 0x0A, 0, 0, 0, 0x58, 0x02]) ∧
    ClockInv (loaded [0x10, 0x0A, 0, 0, 0, 0x58, 0x02]) ∧
    ∃ s, step (loaded [0x10, 0x0A, 0, 0, 0, 0x58, 0x02]) = .next s := ⟨reset_readingInv, reset_clockInv, _, rfl⟩

theorem witness_EveryStepKeepsThePositionInvariants : Each EncoderInv (loaded [0x00]) ∧ Each SignalInv (loaded [0x00]) ∧
    ∃ s, step (loaded [0x00]) = .next s := ⟨reset_encoderInv, reset_signalInv, loaded_steps⟩

theorem witness_EveryStepKeepsTheTraceDecodable : Each EncoderInv (loaded [0x00]) ∧ Each SignalInv (loaded [0x00]) ∧
    Each TraceInv (loaded [0x00]) ∧ ∃ s, step (loaded [0x00]) = .next s :=
  ⟨reset_encoderInv, reset_signalInv, reset_traceInv, loaded_steps⟩

theorem witness_TheConfigurationIsNeverWritten : (∃ s, exec (.pwron .main 0) State.reset = .next s) ∧
    ∃ s, step (loaded [0x00]) = .next s := ⟨⟨_, rfl⟩, loaded_steps⟩

theorem witness_AOneShotIsHandedOverAsOftenAsItOwes : let T := (queued none [once 15 pktA]).main
    T.slot = none ∧ T.ring = [once 15 pktA] ∧ (once 15 pktA).periodic = false ∧ 1 ≤ (once 15 pktA).repeats ∧
      1 ≤ (once 1 pktA).repeats := by decide

theorem witness_TheRingIsServedRoundRobin : (queued none [every 1 pktA, once 2 pktB]).main.slot = none := rfl

/-- A state and answers for each clause: a trip just above the threshold (vector V22), none exactly at it, a retry just
after the interval and none exactly at it (vector V24). -/
theorem witness_CheckSamplesTripsAndRetries :
    1023 < 2 ^ State.reset.params.adcBits ∧
    (10 ≤ 10 - (running 0 0).lastSampleTime ∧ (2500 : Rat) < ((1001 : Nat) * (1 / 2) + 0 * (1 - 1 / 2)) * 5 ∧
      ¬ (2500 : Rat) < ((1000 : Nat) * (1 / 2) + 0 * (1 - 1 / 2)) * 5) ∧
    ((running 0 0).trip = none ∧ ¬ 10 ≤ 9 - (running 0 0).lastSampleTime) ∧
    ((trippedAt 30 525 130 true).trip = some 30 ∧ 130 - 30 ≤ State.reset.main.cfg.retryInterval) ∧
    (State.reset.main.cfg.retryInterval < 131 - 30 ∧
      (supervised 30 (trippedAt 30 525 130 true) .low).main.pins.enable ≠ .high) :=
  ⟨by decide, ⟨by decide, by norm_num, by norm_num⟩, ⟨rfl, by decide⟩, ⟨rfl, by decide⟩, by decide, by decide⟩

theorem witness_CheckRefusesUnlawfulAnswers : 2 ^ State.reset.params.adcBits ≤ 1024 ∧
    1023 < 2 ^ State.reset.params.adcBits ∧ 9 < (supervised 10 (running 0 10) .high).clock := by decide

theorem witness_SmoothingHasItsClosedForm : (0 : Rat) < 1 / 2 ∧ (1 / 2 : Rat) ≤ 1 ∧ (0 : Rat) < 1 ∧ (1 : Rat) ≤ 1 ∧
    1023 < 2 ^ 10 ∧ (1023 : Rat) ≤ 2 ^ 10 - 1 := by norm_num

theorem witness_ASpikeTripsOnlyAboveItsBound : (0 : Rat) < TrackConfig.vectorsMain.alpha ∧
    0 < TrackConfig.vectorsMain.scale ∧ TrackConfig.vectorsMain.sampleInterval ≤ 10 - (running 0 0).lastSampleTime ∧
    (supervised 0 (running 0 0) .high).main.pins.enable = .high ∧ (running 0 0).trip = none ∧ (running 0 0).reading = 0 :=
  ⟨by decide +kernel, by decide +kernel, by decide, rfl, rfl, rfl⟩

/-- A settled reading over the threshold (vector V20), and a trip whose interval has passed. -/
theorem witness_TripAndRetryLaws :
    (PowerInv .vectors (supervised 20 (running 600 20) .high).main ∧ (running 600 20).reading = (600 : Nat) ∧
      TrackConfig.vectorsMain.tripMA < ((600 : Nat) : Rat) * TrackConfig.vectorsMain.scale) ∧
    PowerInv .vectors (supervised 30 (trippedAt 30 525 130 true) .low).main ∧
    (trippedAt 30 525 130 true).trip = some 30 ∧
    ∃ s, exec (.check .main 0 131 0) (supervised 30 (trippedAt 30 525 130 true) .low) = .next s :=
  ⟨⟨rfl, by decide +kernel, by decide +kernel⟩, rfl, rfl, _, rfl⟩

theorem witness_BrakeOperationsDriveTheBrakePin : (inScheme .brakeEnable none (some 7)).main.cfg.scheme = .brakeEnable ∧
    State.reset.main.cfg.scheme ≠ .brakeEnable ∧ (1 : BitVec 3) ≠ 0 := by decide

/-- The supervisor's operations all go on. -/
theorem witness_SupervisorOperationsLeaveTheRestUnchanged :
    (∃ s, exec (.check .main 0 10 1001) (supervised 0 (running 0 0) .high) = .next s) ∧
    (∃ s, exec (.pwron .main 0) State.reset = .next s) ∧ (∃ s, exec (.pwroff .main 0) State.reset = .next s) ∧
    (∃ s, exec (.brkon .main 0) (inScheme .brakeEnable none (some 7)) = .next s) ∧
    (∃ s, exec (.brkoff .main 0) (inScheme .brakeEnable none (some 7)) = .next s) ∧
    (∃ s, exec (.qpwr .main 0) State.reset = .next s) ∧ (∃ s, exec (.qtrip .main 0) State.reset = .next s) ∧
    ∃ s, exec (.qcur .main 0) State.reset = .next s :=
  ⟨⟨_, rfl⟩, ⟨_, rfl⟩, ⟨_, rfl⟩, ⟨_, rfl⟩, ⟨_, rfl⟩, ⟨_, rfl⟩, ⟨_, rfl⟩, _, rfl⟩

/-- The bits of vector V1 before the packet-end bit: the preamble and the three groups. -/
def v1Bits : List Bit := bitsOfString "1111111111 0 00000011 0 00111111 0 00111100"

/-- The reset state at the end of the checksum's last bit in vector V1, with the halves so far in the trace. -/
def beforeEnd : State := withMain fun T =>
  { T with enc := groupAt .checksum 2 8 pktA, compare := BlockParams.vectors.halfZero, wire := halvesOf .vectors v1Bits }

theorem beforeEnd_encoderInv : EncoderInv beforeEnd.params beforeEnd.main := by constructor <;> decide

theorem beforeEnd_signalInv : SignalInv beforeEnd.params beforeEnd.main :=
  ⟨by decide, by decide, fun b h => by cases h; decide +kernel⟩

theorem beforeEnd_traceInv : TraceInv beforeEnd.params beforeEnd.main :=
  ⟨(by decide : beforeEnd.main.wire.length % 2 = 0), v1Bits, ⟨.group [0x03, 0x3F] [false, false, true, true, true, true, false, false], []⟩,
    by decide +kernel, by decide, .inr rfl, rfl, 0x3C, rfl, by decide⟩

/-- Both sides of the clause: from reset the TICK starts an idle bit and adds nothing; from the end of vector V1's last
byte it starts the packet-end bit, and the packet is added. -/
theorem witness_TheTraceDecodesToThePacketsSent : State.reset.params.halfOne < State.reset.params.halfZero ∧
    (EncoderInv State.reset.params State.reset.main ∧ SignalInv State.reset.params State.reset.main ∧
      TraceInv State.reset.params State.reset.main ∧
      after (exec (.tick .main 0) State.reset) (fun s => s.main.enc.sub != .ending) = true) ∧
    (EncoderInv beforeEnd.params beforeEnd.main ∧ SignalInv beforeEnd.params beforeEnd.main ∧
      TraceInv beforeEnd.params beforeEnd.main ∧ packetsOnWire beforeEnd.params beforeEnd.main = some [] ∧
      after (exec (.tick .main 0) beforeEnd) (fun s =>
        s.main.enc.sub = .ending ∧ packetsOnWire s.params s.main = some [pktA]) = true) :=
  ⟨witness_HalvesOfBitsPairBackIntoTheBits,
    ⟨reset_encoderInv.1, reset_signalInv.1, reset_traceInv.1, by decide⟩,
    beforeEnd_encoderInv, beforeEnd_signalInv, beforeEnd_traceInv, by decide +kernel, by decide +kernel⟩

theorem witness_AnOperationLeavesTheOtherTrackUnchanged : instrTrack (.pwron .prog 0) = some .prog ∧
    (∃ s, exec (.pwron .prog 0) State.reset = .next s) ∧ instrTrack (.reservedC 0) = none ∧
    ∃ s, exec (.reservedC 0) State.reset = .next s := ⟨rfl, ⟨_, rfl⟩, rfl, _, rfl⟩

theorem witness_AnOperationDoesNotReadTheOtherTrack : instrTrack (.check .main 0 10 1001) = some .main ∧
    ∃ s, exec (.check .main 0 10 1001) State.reset = .next s := ⟨rfl, _, rfl⟩

/-- Operations of both tracks, one after the other, the CHECKs with one answer of `now()`. -/
theorem witness_OperationsOnDifferentTracksCommute : instrTrack (.check .main 0 10 600) = some .main ∧
    instrTrack (.check .prog 0 10 5) = some (otherTrack .main) ∧
    (∃ s s', exec (.check .main 0 10 600) State.reset = .next s ∧ exec (.check .prog 0 10 5) s = .next s') ∧
    instrTrack (.reservedC 0) = none := ⟨rfl, rfl, ⟨_, _, rfl, rfl⟩, rfl⟩

/-- Operations of both contexts. -/
theorem witness_EachContextWritesOnlyWhatItOwns : instrContext (.service .main 0) = .nonInterrupt ∧
    (∃ s, exec (.service .main 0) (queued none [once 1 pktA]) = .next s) ∧ instrContext (.tick .main 0) = .interrupt ∧
    ∃ s, exec (.tick .main 0) (queued (some pktA) []) = .next s := ⟨rfl, ⟨_, rfl⟩, rfl, _, rfl⟩

/-- Each flag set and each flag cleared by its operation. -/
theorem witness_FlagsChangeOnlyByTheirOperations :
    after (exec (.pwron .main 0) State.reset) (fun s => s.main.sup.powerReq) = true ∧
    after (exec (.brkon .main 0) (inScheme .brakeEnable none (some 7))) (fun s => s.main.sup.brakeReq) = true ∧
    after (exec (.service .main 0) (queued none [once 1 pktA])) (fun s => s.main.ready) = true ∧
    after (exec (.tick .main 0) (queued (some pktA) [])) (fun s => !s.main.ready) = true ∧
    after (exec (.check .main 0 131 0) (supervised 30 (trippedAt 30 525 130 true) .low)) (fun s => !s.main.sup.tripped) =
      true := by decide

theorem witness_NoStepFaultsFromAGoodPosition : Each EncoderInv State.reset ∧ TimersOn State.reset ∧
    step State.reset = .refused .scheduleEnded ∧
    step (State.reset.issue [.frame2 .main 0xFF 0xFF]) = .refused .frameNotNext :=
  ⟨reset_encoderInv, ⟨rfl, rfl⟩, rfl, rfl⟩

/-- The three schemes, each with its pins, in states that meet the hypotheses together. -/
theorem witness_LogicPinsShowTheLatchedLevels :
    (State.reset.configOk = true ∧ Each SignalInv State.reset ∧ Each BrakeInv State.reset) ∧
    ((inScheme .dualInverted (some 7) none).configOk = true ∧ Each SignalInv (inScheme .dualInverted (some 7) none) ∧
      Each BrakeInv (inScheme .dualInverted (some 7) none) ∧ (inScheme .dualInverted (some 7) none).main.cfg.sigB = some 7) ∧
    ((inScheme .brakeEnable none (some 7)).configOk = true ∧ Each SignalInv (inScheme .brakeEnable none (some 7)) ∧
      Each BrakeInv (inScheme .brakeEnable none (some 7)) ∧ (inScheme .brakeEnable none (some 7)).main.cfg.brake = some 7) :=
  ⟨⟨reset_configOk, reset_signalInv, reset_brakeInv⟩,
    ⟨by decide +kernel, ⟨⟨by decide, by decide, fun b h => (by cases h; rfl)⟩, reset_signalInv.2⟩,
      ⟨⟨rfl, fun _ => rfl⟩, reset_brakeInv.2⟩, rfl⟩,
    ⟨by decide +kernel, ⟨⟨by decide, by decide, fun b h => (by cases h; rfl)⟩, reset_signalInv.2⟩,
      ⟨⟨rfl, fun h => absurd rfl h⟩, reset_brakeInv.2⟩, rfl⟩⟩

/-- Both power conditions that QPWR reads, each under the enable invariant. -/
theorem witness_StatusQueriesOnlyAnswer :
    (PowerInv .vectors (supervised 30 (trippedAt 30 525 30 true) .low).main ∧
      (trippedAt 30 525 30 true).tripped = true) ∧
    (PowerInv .vectors State.reset.main ∧ State.reset.main.sup.powerReq = false) ∧
    (PowerInv .vectors (supervised 0 (running 0 0) .high).main ∧ (running 0 0).tripped = false ∧
      (running 0 0).powerReq = true) ∧ (1 : BitVec 3) ≠ 0 :=
  ⟨⟨rfl, rfl⟩, ⟨rfl, rfl⟩, ⟨rfl, rfl, rfl⟩, by decide⟩

theorem witness_TheResetStateIsGood : inputsOk .vectors .vectorsMain .vectorsProg = true := reset_configOk

theorem witness_BootLeavesTheResetValues : inputsOk .vectors .vectorsMain .vectorsProg = true ∧
    inputsOk .vectors { TrackConfig.vectorsMain with preamble := 9 } .vectorsProg = false ∧
    inputsOk .vectors .vectorsMain { TrackConfig.vectorsProg with preamble := 19 } = false ∧
    inputsOk .vectors .vectorsMain { TrackConfig.vectorsProg with sense := 0 } = false ∧
    inputsOk .vectors .vectorsMain { TrackConfig.vectorsProg with alpha := 1, sampleInterval := 1, retryInterval := 0 } =
      true ∧
    inputsOk .vectors .vectorsMain { TrackConfig.vectorsProg with sampleInterval := 0 } = false ∧
    inputsOk .vectors .vectorsMain { TrackConfig.vectorsProg with alpha := 0 } = false :=
  ⟨reset_configOk, by decide +kernel, by decide +kernel, by decide +kernel, by decide +kernel, by decide +kernel,
    by decide +kernel⟩

/-- A count just over a `MAX_REPEAT` of 3, one just over the default, and a step word with the largest count. -/
theorem witness_ARepeatCountOverItsMaximumIsRejected : (onceFlags 4).periodic = false ∧
    ({ BlockParams.vectors with maxRepeat := 3 } : BlockParams).maxRepeat < (onceFlags 4).repeats ∧
    State.reset.params.maxRepeat < (onceFlags 16).repeats ∧
    decodeStep 10 [0x30, 0x0F, 0x00, 0x03, 0x03, 0x3F, 0x3C] = .ok (.enq .main 0 (onceFlags 15) 0 pktA, []) := by
  decide

end Sys2Proof.Tests
end

section
/-!
PROOFS. What one operation does to a track unit, said once: `UnitMove` lists the ways a unit can change, with the
instruction that causes each; every operation and every step moves each unit in one of these ways. An invariant of one
unit is then one case per move (`step_keeps_each`), and the two frames below say what the moves of each execution
context leave unchanged (60_exceptions.md R169).
-/

namespace Sys2Proof.Machine

open Sys2Proof.Safety

theorem eq_or_eq_otherTrack (t u : Track) : u = t ∨ u = otherTrack t := by
  cases t <;> cases u <;> simp [otherTrack]

theorem each_iff {P : BlockParams → TrackUnit → Prop} {s : State} : Each P s ↔ ∀ t, P s.params (s.unit t) :=
  ⟨fun ⟨hm, hp⟩ t => by cases t; exacts [hm, hp], fun h => ⟨h .main, h .prog⟩⟩

/-! ### The half-transition of one unit -/

/-- A half-transition of a unit whose timer interrupt is enabled: what TICK does to the unit it names. -/
def HalfStep (p : BlockParams) (T T' : TrackUnit) : Prop :=
  T.timerOn = true ∧ halfTransition p (interruptEntry T) = some T'

theorem serveTick_next_iff {t : Track} {s s' : State} :
    serveTick t s = .next s' ↔ ∃ T, HalfStep s.params (s.unit t) T ∧ s' = finished t T none s := by
  constructor
  · intro h
    obtain ⟨hon, T, hT, rfl⟩ := serveTick_next h
    exact ⟨T, ⟨hon, hT⟩, rfl⟩
  · rintro ⟨T, ⟨hon, hT⟩, rfl⟩
    exact serveTick_of_some hon hT

/-- The two half-transitions: the second half of the bit on the wire, or the first half of the next bit. -/
theorem HalfStep.cases {p : BlockParams} {T T' : TrackUnit} (h : HalfStep p T T') :
    (T.enc.half = .first ∧ ∃ b, curBit p.bitOrder T.enc = some b ∧
      T' = emit { interruptEntry T with enc := { T.enc with half := .second } } .low (halfPeriod p b)) ∨
    (T.enc.half = .second ∧ ∃ b, curBit p.bitOrder (nextBit p (interruptEntry T)).enc = some b ∧
      T' = emit { nextBit p (interruptEntry T) with
        enc := { (nextBit p (interruptEntry T)).enc with half := .first } } .high (halfPeriod p b)) :=
  (halfTransition_some_iff p _ T').1 h.2

/-- What any number of TICKs of track `t` leave of the state, and how they move its unit. -/
structure TickedFrom (t : Track) (s s' : State) : Prop where
  params   : s'.params = s.params
  clock    : s'.clock = s.clock
  schedule : s'.schedule = s.schedule
  issued   : s'.issued = s.issued
  other    : s'.unit (otherTrack t) = s.unit (otherTrack t)
  moved    : Relation.ReflTransGen (HalfStep s.params) (s.unit t) (s'.unit t)

theorem TickedFrom.refl (t : Track) (s : State) : TickedFrom t s s := ⟨rfl, rfl, rfl, rfl, rfl, .refl⟩

theorem TickedFrom.tail {t : Track} {s s1 s2 : State} (h : TickedFrom t s s1) (h1 : serveTick t s1 = .next s2) :
    TickedFrom t s s2 := by
  obtain ⟨T, hT, rfl⟩ := serveTick_next_iff.1 h1
  rw [h.params] at hT
  exact ⟨by simp [h.params], by simp [h.clock], by simp [h.schedule], by simp [h.issued], by simp [h.other],
    by simpa using h.moved.tail hT⟩

theorem serveTick_tickedFrom {t : Track} {s s' : State} (h : serveTick t s = .next s') : TickedFrom t s s' :=
  (TickedFrom.refl t s).tail h

theorem transmit_tickedFrom {t : Track} {q : Packet} {s s' : State} (h : transmit t q s = .next s') :
    TickedFrom t s s' :=
  runTicks_induct t (fun _ _ hs h1 => hs.tail h1) _ s s' (.refl t s) (transmit_next h).2.2

/-! ### The moves of a unit -/

/-- The ways an operation `i` can change the unit of track `t` under the parameters `p`. -/
inductive UnitMove (p : BlockParams) (t : Track) : Instr → TrackUnit → TrackUnit → Prop
  /-- Nothing changes. -/
  | same (i : Instr) (T : TrackUnit) : UnitMove p t i T T
  /-- TICK. -/
  | ticked {T T' : TrackUnit} (h : HalfStep p T T') : UnitMove p t (.tick t 0) T T'
  /-- The TICKs of a frame. -/
  | sent {T T' : TrackUnit} {i : Instr} (q : Packet) (hi : frameInstr t q = some i)
      (h : Relation.ReflTransGen (HalfStep p) T T') : UnitMove p t i T T'
  /-- CHECK. -/
  | polled (now raw : Nat) (hraw : raw < 2 ^ p.adcBits) (T : TrackUnit) :
      UnitMove p t (.check t 0 now raw) T (checkUnit now raw T)
  /-- SERVICE. -/
  | refilled (T : TrackUnit) : UnitMove p t (.service t 0) T (refill T)
  /-- ENQ into a free entry. -/
  | appended {f : EnqFlags} {tag : Byte} {q : Packet} {T : TrackUnit} (hlegal : enqOperandsLegal p 0 f)
      (hvalid : valid p.maxPacketBytes q = true) (hnew : f.periodic = true → tagInRing tag T.ring = false)
      (hroom : T.ring.length < T.cfg.cap) :
      UnitMove p t (.enq t 0 f tag q) T (acceptEntry T.ring (entryOf f tag q) T)
  /-- ENQ in place of the periodic entry of its tag. -/
  | replaced {f : EnqFlags} {tag : Byte} {q : Packet} {T : TrackUnit} (hlegal : enqOperandsLegal p 0 f)
      (hvalid : valid p.maxPacketBytes q = true) (hper : f.periodic = true) (hold : tagInRing tag T.ring = true) :
      UnitMove p t (.enq t 0 f tag q) T (acceptEntry (removeTag tag T.ring) (entryOf f tag q) T)
  /-- CANCEL. -/
  | cancelled (tag : Byte) (T : TrackUnit) :
      UnitMove p t (.cancel t 0 tag) T { T with ring := removeTag tag T.ring }
  /-- PWRON. -/
  | poweredOn (T : TrackUnit) : UnitMove p t (.pwron t 0) T (setPower true T)
  /-- PWROFF. -/
  | poweredOff (T : TrackUnit) : UnitMove p t (.pwroff t 0) T (setPower false T)
  /-- BRKON. -/
  | brakedOn {T : TrackUnit} (hscheme : T.cfg.scheme = .brakeEnable) : UnitMove p t (.brkon t 0) T (setBrake true T)
  /-- BRKOFF. -/
  | brakedOff {T : TrackUnit} (hscheme : T.cfg.scheme = .brakeEnable) : UnitMove p t (.brkoff t 0) T (setBrake false T)

/-- Where an operation moves the unit it names and leaves the other, each unit makes a move. -/
theorem unitMove_of_other {p : BlockParams} {i : Instr} {t : Track} {s s' : State}
    (h : UnitMove p t i (s.unit t) (s'.unit t)) (ho : s'.unit (otherTrack t) = s.unit (otherTrack t)) (u : Track) :
    UnitMove p u i (s.unit u) (s'.unit u) := by
  rcases eq_or_eq_otherTrack t u with rfl | rfl
  · exact h
  · rw [ho]; exact .same i _

theorem unitMove_finished {i : Instr} {t : Track} {s : State} {T : TrackUnit} {r : Option Result}
    (h : UnitMove s.params t i (s.unit t) T) (u : Track) :
    UnitMove s.params u i (s.unit u) ((finished t T r s).unit u) :=
  unitMove_of_other (by rwa [finished_unit]) (finished_unit_other t T r s) u

/-- Every way an operation can end leaves the parameters and moves each unit. -/
theorem Effect.unitMove {i : Instr} {s s' : State} (h : Effect s i s') :
    s'.params = s.params ∧ ∀ t, UnitMove s.params t i (s.unit t) (s'.unit t) := by
  cases h with
  | onlyResult i r => exact ⟨rfl, fun t => by rw [unit_withResult]; exact .same i _⟩
  | halfStep t _ h =>
    obtain ⟨T, hT, rfl⟩ := serveTick_next_iff.1 h
    exact ⟨finished_params .., unitMove_finished (.ticked hT)⟩
  | poll t now raw hraw hnow =>
    refine ⟨finished_params .., fun u => ?_⟩
    have := unitMove_finished (s := { s with clock := now }) (r := none)
      (by simpa using UnitMove.polled (t := t) now raw hraw (s.unit t)) u
    simpa using this
  | refilled t => exact ⟨finished_params .., unitMove_finished (.refilled _)⟩
  | appended t f tag q hlegal hvalid hnew hroom =>
    exact ⟨finished_params .., unitMove_finished (.appended hlegal hvalid hnew hroom)⟩
  | replaced t f tag q hlegal hvalid hper hold =>
    exact ⟨finished_params .., unitMove_finished (.replaced hlegal hvalid hper hold)⟩
  | cancelled t tag _ => exact ⟨finished_params .., unitMove_finished (.cancelled tag _)⟩
  | powerOn t => exact ⟨finished_params .., unitMove_finished (.poweredOn _)⟩
  | powerOff t => exact ⟨finished_params .., unitMove_finished (.poweredOff _)⟩
  | brakeOn t hs => exact ⟨finished_params .., unitMove_finished (.brakedOn hs)⟩
  | brakeOff t hs => exact ⟨finished_params .., unitMove_finished (.brakedOff hs)⟩
  | transmitted t q i _ hi h =>
    have hf := transmit_tickedFrom h
    exact ⟨hf.params, unitMove_of_other (.sent q hi hf.moved) hf.other⟩

theorem exec_unitMove {i : Instr} {s s' : State} (h : exec i s = .next s') :
    s'.params = s.params ∧ ∀ t, UnitMove s.params t i (s.unit t) (s'.unit t) :=
  (exec_next h).unitMove

/-- Every step that goes on has a legal configuration, leaves the parameters and moves each unit. -/
theorem step_unitMove {s s' : State} (h : step s = .next s') :
    s.configOk = true ∧ s'.params = s.params ∧ ∃ i, ∀ t, UnitMove s.params t i (s.unit t) (s'.unit t) := by
  obtain ⟨hok, ⟨t, -, ht⟩ | ⟨-, i, rest, -, he⟩ | ⟨-, i, rest, -, -, he⟩⟩ := step_next h
  · obtain ⟨hp, hm⟩ := (Effect.halfStep t s' ht).unitMove
    exact ⟨hok, hp, .tick t 0, hm⟩
  · obtain ⟨hp, hm⟩ := exec_unitMove he
    exact ⟨hok, hp, i, fun t => by simpa using hm t⟩
  · obtain ⟨hp, hm⟩ := exec_unitMove he
    exact ⟨hok, hp, i, fun t => by simpa using hm t⟩

theorem configOk_unit {s : State} (h : s.configOk = true) (t : Track) : unitConfigOk t (s.unit t).cfg = true := by
  simp only [State.configOk, inputsOk, Bool.and_eq_true] at h
  obtain ⟨⟨⟨-, hm⟩, hp⟩, -⟩ := h
  cases t
  exacts [hm, hp]

theorem configOk_params {s : State} (h : s.configOk = true) : paramsOk s.params = true := by
  simp only [State.configOk, inputsOk, Bool.and_eq_true] at h
  exact h.1.1.1

/-- An invariant of one unit that every move keeps under a legal configuration is kept by every step. -/
theorem step_keeps_each {P : BlockParams → TrackUnit → Prop}
    (hP : ∀ {p t i T T'}, paramsOk p = true → unitConfigOk t T.cfg = true → UnitMove p t i T T' → P p T → P p T')
    {s s' : State} (h : step s = .next s') (hs : Each P s) : Each P s' := by
  obtain ⟨hok, hp, i, hm⟩ := step_unitMove h
  rw [each_iff] at hs ⊢
  intro t
  rw [hp]
  exact hP (configOk_params hok) (configOk_unit hok t) (hm t) (hs t)

/-! ### What the moves leave unchanged -/

/-- What an operation of the non-interrupt context leaves of a unit (60_exceptions.md R169). -/
structure HostFrame (T T' : TrackUnit) : Prop where
  cfg     : T'.cfg = T.cfg
  enc     : T'.enc = T.enc
  sigA    : T'.pins.sigA = T.pins.sigA
  sigB    : T'.pins.sigB = T.pins.sigB
  compare : T'.compare = T.compare
  timerOn : T'.timerOn = T.timerOn
  pending : T'.pending = T.pending
  wire    : T'.wire = T.wire
  slot    : ∀ q, T.slot = some q → T'.slot = some q

/-- What TICKs leave of a unit (60_exceptions.md R169; 40_encoder.md R80). -/
structure TickFrame (T T' : TrackUnit) : Prop where
  cfg     : T'.cfg = T.cfg
  ring    : T'.ring = T.ring
  sup     : T'.sup = T.sup
  enable  : T'.pins.enable = T.pins.enable
  brake   : T'.pins.brake = T.pins.brake
  sigB    : T.cfg.scheme ≠ .dualInverted → T'.pins.sigB = T.pins.sigB
  timerOn : T'.timerOn = T.timerOn
  slot    : T'.slot = T.slot ∨ T'.slot = none

theorem HostFrame.refl (T : TrackUnit) : HostFrame T T := ⟨rfl, rfl, rfl, rfl, rfl, rfl, rfl, rfl, fun _ h => h⟩

theorem TickFrame.refl (T : TrackUnit) : TickFrame T T := ⟨rfl, rfl, rfl, rfl, rfl, fun _ => rfl, rfl, .inl rfl⟩

theorem TickFrame.trans {T U V : TrackUnit} (h : TickFrame T U) (k : TickFrame U V) : TickFrame T V where
  cfg := k.cfg.trans h.cfg
  ring := k.ring.trans h.ring
  sup := k.sup.trans h.sup
  enable := k.enable.trans h.enable
  brake := k.brake.trans h.brake
  sigB hs := (k.sigB (by rwa [h.cfg])).trans (h.sigB hs)
  timerOn := k.timerOn.trans h.timerOn
  slot := by
    rcases k.slot with hk | hk
    · rw [hk]; exact h.slot
    · exact .inr hk

/-- Outside `DUAL_INVERTED` `emit` leaves `sigB` (40_encoder.md R89). -/
theorem sigBAfter_of_ne {T : TrackUnit} (h : T.cfg.scheme ≠ .dualInverted) (l : Level) :
    sigBAfter T l = T.pins.sigB := by
  unfold sigBAfter
  split
  · contradiction
  · rfl
  · rfl

theorem sigBAfter_of_dual {T : TrackUnit} (h : T.cfg.scheme = .dualInverted) (l : Level) :
    sigBAfter T l = some (complement l) := by
  simp [sigBAfter, h]

/-- `emit`, whatever the position, writes only what TICK owns. -/
theorem emit_tickFrame (T : TrackUnit) (e : Encoder) (l : Level) (d : Rat) :
    TickFrame T (emit { T with enc := e } l d) :=
  ⟨rfl, rfl, rfl, rfl, rfl, fun hs => sigBAfter_of_ne hs l, rfl, .inl rfl⟩

theorem interruptEntry_tickFrame (T : TrackUnit) : TickFrame T (interruptEntry T) :=
  ⟨rfl, rfl, rfl, rfl, rfl, fun _ => rfl, rfl, .inl rfl⟩

theorem nextBit_tickFrame (p : BlockParams) (T : TrackUnit) : TickFrame T (nextBit p T) := by
  obtain ⟨heq, hslot⟩ := nextBit_frame p T
  refine ⟨?_, ?_, ?_, ?_, ?_, fun _ => ?_, ?_, hslot⟩ <;> rw [heq]

theorem HalfStep.frame {p : BlockParams} {T T' : TrackUnit} (h : HalfStep p T T') : TickFrame T T' := by
  rcases h.cases with ⟨-, b, -, rfl⟩ | ⟨-, b, -, rfl⟩
  · exact (interruptEntry_tickFrame T).trans (emit_tickFrame ..)
  · exact ((interruptEntry_tickFrame T).trans (nextBit_tickFrame p _)).trans (emit_tickFrame ..)

theorem tickFrame_of_halfSteps {p : BlockParams} {T T' : TrackUnit}
    (h : Relation.ReflTransGen (HalfStep p) T T') : TickFrame T T' := by
  induction h with
  | refl => exact .refl T
  | tail _ h1 ih => exact ih.trans h1.frame

theorem refill_hostFrame (T : TrackUnit) : HostFrame T (refill T) := by
  obtain ⟨heq, hslot⟩ := refill_frame T
  refine ⟨?_, ?_, ?_, ?_, ?_, ?_, ?_, ?_, hslot⟩ <;> rw [heq]

theorem acceptEntry_hostFrame (ring : List Entry) (e : Entry) (T : TrackUnit) :
    HostFrame T (acceptEntry ring e T) := by
  obtain ⟨h1, h2, h3, h4, h5, h6, h7, h8, h9⟩ := refill_hostFrame { T with ring := ring ++ [e] }
  exact ⟨h1, h2, h3, h4, h5, h6, h7, h8, h9⟩

theorem checkUnit_hostFrame (n raw : Nat) (T : TrackUnit) : HostFrame T (checkUnit n raw T) := by
  rw [checkUnit_frame]
  exact ⟨rfl, rfl, rfl, rfl, rfl, rfl, rfl, rfl, fun _ h => h⟩

theorem frameInstr_context {t : Track} {q : Packet} {i : Instr} (h : frameInstr t q = some i) :
    instrContext i = .interrupt := by
  unfold frameInstr at h
  split at h <;> cases h <;> rfl

/-- A move is of the context of its instruction: one of the non-interrupt context, or some half-transitions. -/
theorem UnitMove.frame {p : BlockParams} {t : Track} {i : Instr} {T T' : TrackUnit} (h : UnitMove p t i T T') :
    (instrContext i = .nonInterrupt ∧ HostFrame T T') ∨
      (instrContext i = .interrupt ∧ Relation.ReflTransGen (HalfStep p) T T') := by
  cases h with
  | same =>
    cases hc : instrContext i
    · exact .inr ⟨rfl, .refl⟩
    · exact .inl ⟨rfl, .refl T⟩
  | ticked h => exact .inr ⟨rfl, .single h⟩
  | sent q hi h => exact .inr ⟨frameInstr_context hi, h⟩
  | polled now raw => exact .inl ⟨rfl, checkUnit_hostFrame now raw T⟩
  | refilled => exact .inl ⟨rfl, refill_hostFrame T⟩
  | appended => exact .inl ⟨rfl, acceptEntry_hostFrame ..⟩
  | replaced => exact .inl ⟨rfl, acceptEntry_hostFrame ..⟩
  | cancelled | poweredOn | poweredOff | brakedOn | brakedOff =>
    exact .inl ⟨rfl, rfl, rfl, rfl, rfl, rfl, rfl, rfl, rfl, fun _ h => h⟩

theorem UnitMove.cfg_timerOn {p : BlockParams} {t : Track} {i : Instr} {T T' : TrackUnit} (h : UnitMove p t i T T') :
    T'.cfg = T.cfg ∧ T'.timerOn = T.timerOn := by
  rcases h.frame with ⟨-, hf⟩ | ⟨-, hs⟩
  · exact ⟨hf.cfg, hf.timerOn⟩
  · have hf := tickFrame_of_halfSteps hs
    exact ⟨hf.cfg, hf.timerOn⟩

end Sys2Proof.Machine
end

section
/-!
PROOFS. The queue invariant (10_state.md R18; 41_queue.md R103): the tags of a ring, the refill, an accepted entry and
a removed one, and with them every step.
-/

namespace Sys2Proof.Machine

open Sys2Proof.Safety

@[simp] theorem periodicTags_append (xs ys : List Entry) :
    periodicTags (xs ++ ys) = periodicTags xs ++ periodicTags ys := by
  simp [periodicTags]

theorem periodicTags_cons (e : Entry) (ring : List Entry) :
    periodicTags (e :: ring) = periodicTags [e] ++ periodicTags ring :=
  periodicTags_append [e] ring

theorem periodicTags_single (e : Entry) : periodicTags [e] = if e.periodic = true then [e.tag] else [] := by
  cases h : e.periodic <;> simp [periodicTags, h]

theorem mem_periodicTags (tag : Byte) (ring : List Entry) :
    tag ∈ periodicTags ring ↔ tagInRing tag ring = true := by
  simp [periodicTags, tagInRing_iff, and_assoc]

theorem periodicTags_sublist {xs ys : List Entry} (h : xs.Sublist ys) :
    (periodicTags xs).Sublist (periodicTags ys) :=
  (h.filter _).map _

/-- The re-appended entry has the tag of the entry handed over (41_queue.md R108). -/
theorem periodicTags_reappend (e : Entry) : periodicTags (reappend e) = periodicTags [e] := by
  unfold reappend
  split
  · rfl
  · split <;> simp_all [periodicTags]

theorem length_reappend_le (e : Entry) : (reappend e).length ≤ 1 := by
  unfold reappend
  split
  · simp
  · split <;> simp

theorem entryOk_of_mem_reappend {p : BlockParams} {e x : Entry} (h : EntryOk p e) (hx : x ∈ reappend e) :
    EntryOk p x := by
  unfold reappend at hx
  split at hx
  · rw [List.mem_singleton.1 hx]; exact h
  · split at hx
    · rw [List.mem_singleton.1 hx]
      refine ⟨h.pkt_valid, fun hp => absurd hp ‹_›, fun hp => ?_⟩
      obtain ⟨-, hmax, htag⟩ := h.oneShot hp
      exact ⟨by dsimp only; omega, by dsimp only; omega, htag⟩
    · cases hx

theorem queueInv_refill {p : BlockParams} {T : TrackUnit} (h : QueueInv p T) : QueueInv p (refill T) := by
  rcases refill_cases T with heq | ⟨e, rest, -, hr, heq⟩
  · rw [heq]; exact h
  · rw [heq]
    obtain ⟨hcap, hent, htags, -⟩ := h
    rw [hr] at hcap hent htags
    rw [periodicTags_cons] at htags
    refine ⟨?_, fun x hx => ?_, ?_, fun q hq => ?_⟩
    · have := length_reappend_le e
      simp only [List.length_append, List.length_cons] at hcap ⊢
      omega
    · rcases List.mem_append.1 hx with hx | hx
      · exact hent x (List.mem_cons_of_mem e hx)
      · exact entryOk_of_mem_reappend (hent e List.mem_cons_self) hx
    · rw [periodicTags_append, periodicTags_reappend]
      exact (List.perm_append_comm.nodup_iff).1 htags
    · obtain rfl : e.pkt = q := by simpa using hq
      exact (hent e List.mem_cons_self).pkt_valid

/-- A smaller ring, its entries in the same order, keeps the queue in its form. -/
theorem queueInv_sublist {p : BlockParams} {T : TrackUnit} {ring : List Entry} (h : QueueInv p T)
    (hsub : ring.Sublist T.ring) : QueueInv p { T with ring := ring } :=
  ⟨hsub.length_le.trans h.capacity, fun e he => h.entries e (hsub.mem he), h.tags.sublist (periodicTags_sublist hsub),
    h.slot⟩

/-- A well-formed new entry at the tail of a ring with a free entry, refilled, keeps the queue in its form. -/
theorem queueInv_acceptEntry {p : BlockParams} {T : TrackUnit} {ring : List Entry} {e : Entry} (h : QueueInv p T)
    (hsub : ring.Sublist T.ring) (hroom : ring.length < T.cfg.cap) (he : EntryOk p e)
    (hnew : e.periodic = true → tagInRing e.tag ring = false) : QueueInv p (acceptEntry ring e T) := by
  obtain ⟨-, hent, htags, hslot⟩ := queueInv_sublist h hsub
  refine queueInv_refill ⟨?_, fun x hx => ?_, ?_, hslot⟩
  · simpa using hroom
  · rcases List.mem_append.1 hx with hx | hx
    · exact hent x hx
    · rw [List.mem_singleton.1 hx]; exact he
  · rw [periodicTags_append, periodicTags_single]
    split
    · have hnot : e.tag ∉ periodicTags ring := by rw [mem_periodicTags, hnew ‹_›]; exact Bool.false_ne_true
      exact htags.append (List.nodup_singleton _) (by simpa using hnot)
    · simpa using htags

/-- The entry of an accepted ENQ is well formed (41_queue.md R100, R101). -/
theorem entryOk_entryOf {p : BlockParams} {f : EnqFlags} {tag : Byte} {q : Packet} (hlegal : enqOperandsLegal p 0 f)
    (hvalid : valid p.maxPacketBytes q = true) : EntryOk p (entryOf f tag q) := by
  obtain ⟨-, -, hper, hmax⟩ := hlegal
  refine ⟨hvalid, fun hp => ?_, fun hp => ?_⟩ <;> simp only [entryOf] at hp ⊢
  · simp [hp]
  · have : f.repeats ≠ 0 := fun h0 => by simp [hper.2 h0] at hp
    have := hmax hp
    simp [hp]
    omega

theorem removeTag_sublist (tag : Byte) (ring : List Entry) : (removeTag tag ring).Sublist ring :=
  List.eraseP_sublist

/-- Removing a tag that is in the ring frees an entry. -/
theorem length_removeTag_lt {tag : Byte} {ring : List Entry} (h : tagInRing tag ring = true) :
    (removeTag tag ring).length < ring.length := by
  obtain ⟨e, he, htag⟩ := List.any_eq_true.1 h
  have := List.length_eraseP_of_mem he htag
  have := List.length_pos_of_mem he
  unfold removeTag
  omega

/-- With no two periodic entries of one tag, none of that tag is left once it is removed (41_queue.md R103). -/
theorem tagInRing_removeTag {tag : Byte} {ring : List Entry} (hnd : (periodicTags ring).Nodup)
    (h : tagInRing tag ring = true) : tagInRing tag (removeTag tag ring) = false := by
  obtain ⟨e, he, htag⟩ := List.any_eq_true.1 h
  obtain ⟨x, before, after, -, hx, hring, herase⟩ := List.exists_of_eraseP he htag
  obtain ⟨hper, rfl⟩ := (hasTag_iff tag x).1 hx
  rw [hring, periodicTags_append, periodicTags_cons, periodicTags_single, if_pos hper] at hnd
  have hnot : x.tag ∉ periodicTags (before ++ after) := by
    rw [periodicTags_append]
    exact (List.nodup_middle.1 hnd).notMem
  rw [← Bool.not_eq_true, ← mem_periodicTags]
  unfold removeTag
  rwa [herase]

theorem queueInv_move {p : BlockParams} {t : Track} {i : Instr} {T T' : TrackUnit} (hm : UnitMove p t i T T')
    (h : QueueInv p T) : QueueInv p T' := by
  have hticks : ∀ {U}, TickFrame T U → QueueInv p U := fun {U} hf => by
    refine ⟨?_, ?_, ?_, fun q hq => ?_⟩
    · rw [hf.ring, hf.cfg]; exact h.capacity
    · rw [hf.ring]; exact h.entries
    · rw [hf.ring]; exact h.tags
    · rcases hf.slot with hs | hs
      · exact h.slot q (hs ▸ hq)
      · rw [hs] at hq; cases hq
  cases hm with
  | same => exact h
  | ticked hs => exact hticks hs.frame
  | sent q hi hs => exact hticks (tickFrame_of_halfSteps hs)
  | polled => rw [checkUnit_frame]; exact ⟨h.capacity, h.entries, h.tags, h.slot⟩
  | refilled => exact queueInv_refill h
  | appended hlegal hvalid hnew hroom =>
    refine queueInv_acceptEntry h (List.Sublist.refl _) hroom (entryOk_entryOf hlegal hvalid) fun hper => ?_
    simp only [entryOf] at hper ⊢
    rw [if_pos hper]
    exact hnew hper
  | replaced hlegal hvalid hper hold =>
    refine queueInv_acceptEntry h (removeTag_sublist ..) ((length_removeTag_lt hold).trans_le h.capacity)
      (entryOk_entryOf hlegal hvalid) fun _ => ?_
    simp only [entryOf]
    rw [if_pos hper]
    exact tagInRing_removeTag h.tags hold
  | cancelled => exact queueInv_sublist h (removeTag_sublist ..)
  | poweredOn | poweredOff | brakedOn | brakedOff => exact ⟨h.capacity, h.entries, h.tags, h.slot⟩

/-- Settles O31: every move of a unit keeps the queue in its form. -/
theorem everyStepKeepsTheQueueInvariant : Obligations.EveryStepKeepsTheQueueInvariant :=
  fun _ _ hs h => step_keeps_each (P := QueueInv) (fun _ _ hm => queueInv_move hm) h hs

end Sys2Proof.Machine
end

section
/-!
PROOFS. The supervisor's part of a unit: which moves change it, and that every step keeps the enable invariant
(10_state.md R24) and the brake pin following its request (42_supervisor.md R132, R133).
-/

namespace Sys2Proof.Machine

open Sys2Proof.Safety

/-- The supervisor and the two pins it drives are what they were. -/
structure SameSupervisor (T T' : TrackUnit) : Prop where
  sup    : T'.sup = T.sup
  enable : T'.pins.enable = T.pins.enable
  brake  : T'.pins.brake = T.pins.brake

theorem TickFrame.sameSupervisor {T T' : TrackUnit} (h : TickFrame T T') : SameSupervisor T T' :=
  ⟨h.sup, h.enable, h.brake⟩

theorem refill_sameSupervisor (T : TrackUnit) : SameSupervisor T (refill T) := by
  rw [(refill_frame T).1]; exact ⟨rfl, rfl, rfl⟩

theorem acceptEntry_sameSupervisor (ring : List Entry) (e : Entry) (T : TrackUnit) :
    SameSupervisor T (acceptEntry ring e T) := by
  obtain ⟨h1, h2, h3⟩ := refill_sameSupervisor { T with ring := ring ++ [e] }
  exact ⟨h1, h2, h3⟩

/-- The moves that change the supervisor or its pins are those of CHECK and of the power and brake operations. -/
theorem UnitMove.supervisor {p : BlockParams} {t : Track} {i : Instr} {T T' : TrackUnit} (h : UnitMove p t i T T') :
    SameSupervisor T T' ∨
    (∃ now raw, i = .check t 0 now raw ∧ raw < 2 ^ p.adcBits ∧ T' = checkUnit now raw T) ∨
    (i = .pwron t 0 ∧ T' = setPower true T) ∨ (i = .pwroff t 0 ∧ T' = setPower false T) ∨
    (T.cfg.scheme = .brakeEnable ∧
      ((i = .brkon t 0 ∧ T' = setBrake true T) ∨ (i = .brkoff t 0 ∧ T' = setBrake false T))) := by
  cases h with
  | same => exact .inl ⟨rfl, rfl, rfl⟩
  | ticked hs => exact .inl hs.frame.sameSupervisor
  | sent q hi hs => exact .inl (tickFrame_of_halfSteps hs).sameSupervisor
  | refilled => exact .inl (refill_sameSupervisor T)
  | appended => exact .inl (acceptEntry_sameSupervisor ..)
  | replaced => exact .inl (acceptEntry_sameSupervisor ..)
  | cancelled => exact .inl ⟨rfl, rfl, rfl⟩
  | polled now raw hraw => exact .inr (.inl ⟨now, raw, rfl, hraw, rfl⟩)
  | poweredOn => exact .inr (.inr (.inl ⟨rfl, rfl⟩))
  | poweredOff => exact .inr (.inr (.inr (.inl ⟨rfl, rfl⟩)))
  | brakedOn hs => exact .inr (.inr (.inr (.inr ⟨hs, .inl ⟨rfl, rfl⟩⟩)))
  | brakedOff hs => exact .inr (.inr (.inr (.inr ⟨hs, .inr ⟨rfl, rfl⟩⟩)))

/-! ### CHECK -/

/-- CHECK leaves the host's requests and the brake pin. -/
theorem checkUnit_requests (n raw : Nat) (T : TrackUnit) :
    (checkUnit n raw T).sup.powerReq = T.sup.powerReq ∧ (checkUnit n raw T).sup.brakeReq = T.sup.brakeReq ∧
      (checkUnit n raw T).pins.brake = T.pins.brake := by
  have hretry : ∀ U, (retryPart n U).sup.powerReq = U.sup.powerReq ∧ (retryPart n U).sup.brakeReq = U.sup.brakeReq := by
    intro U
    rcases retryPart_cases n U with ⟨-, h⟩ | ⟨-, h⟩ <;> rw [h] <;> exact ⟨rfl, rfl⟩
  have hsample : (samplePart n raw T).sup.powerReq = T.sup.powerReq ∧
      (samplePart n raw T).sup.brakeReq = T.sup.brakeReq := by
    rcases samplePart_cases n raw T with ⟨-, h⟩ | ⟨-, -, h⟩ | ⟨-, -, h⟩ <;> rw [h] <;> exact ⟨rfl, rfl⟩
  refine ⟨(hretry _).1.trans hsample.1, (hretry _).2.trans hsample.2, ?_⟩
  rw [checkUnit_frame]

/-- Driving the enable pin establishes the enable invariant, whatever the supervisor holds (42_supervisor.md R137). -/
theorem powerInv_driveEnable (p : BlockParams) (T : TrackUnit) : PowerInv p (driveEnable T) := rfl

theorem powerInv_checkUnit {p : BlockParams} {T : TrackUnit} (n raw : Nat) (h : PowerInv p T) :
    PowerInv p (checkUnit n raw T) := by
  have hsample : PowerInv p (samplePart n raw T) := by
    rcases samplePart_cases n raw T with ⟨-, heq⟩ | ⟨-, -, heq⟩ | ⟨-, -, heq⟩ <;> rw [heq]
    · exact h
    · exact h
    · exact powerInv_driveEnable p _
  unfold checkUnit
  rcases retryPart_cases n (samplePart n raw T) with ⟨-, heq⟩ | ⟨-, heq⟩ <;> rw [heq]
  · exact powerInv_driveEnable p _
  · exact hsample

/-! ### The invariants -/

theorem powerInv_move {p : BlockParams} {t : Track} {i : Instr} {T T' : TrackUnit} (hm : UnitMove p t i T T')
    (h : PowerInv p T) : PowerInv p T' := by
  rcases hm.supervisor with hf | ⟨now, raw, -, -, rfl⟩ | ⟨-, rfl⟩ | ⟨-, rfl⟩ | ⟨-, ⟨-, rfl⟩ | ⟨-, rfl⟩⟩
  · unfold PowerInv
    rw [hf.sup, hf.enable]
    exact h
  · exact powerInv_checkUnit now raw h
  · exact powerInv_driveEnable p _
  · exact powerInv_driveEnable p _
  · exact h
  · exact h

theorem brakeInv_setBrake {T : TrackUnit} (p : BlockParams) (on : Bool) (hs : T.cfg.scheme = .brakeEnable) :
    BrakeInv p (setBrake on T) := by
  constructor <;> simp [setBrake, hs]

theorem brakeInv_move {p : BlockParams} {t : Track} {i : Instr} {T T' : TrackUnit} (hm : UnitMove p t i T T')
    (h : BrakeInv p T) : BrakeInv p T' := by
  have hcfg := hm.cfg_timerOn.1
  rcases hm.supervisor with hf | ⟨now, raw, -, -, rfl⟩ | ⟨-, rfl⟩ | ⟨-, rfl⟩ | ⟨hs, ⟨-, rfl⟩ | ⟨-, rfl⟩⟩
  · unfold BrakeInv
    rw [hcfg, hf.sup, hf.brake]
    exact h
  · obtain ⟨-, hreq, hpin⟩ := checkUnit_requests now raw T
    unfold BrakeInv
    rw [hcfg, hreq, hpin]
    exact h
  · exact h
  · exact h
  · exact brakeInv_setBrake p true hs
  · exact brakeInv_setBrake p false hs

/-- Settles O44: every move of a unit keeps both invariants. -/
theorem everyStepKeepsTheEnableAndBrakeInvariants : Obligations.EveryStepKeepsTheEnableAndBrakeInvariants :=
  fun _ _ h =>
    ⟨step_keeps_each (P := PowerInv) (fun _ _ hm => powerInv_move hm) h,
     step_keeps_each (P := BrakeInv) (fun _ _ hm => brakeInv_move hm) h⟩

end Sys2Proof.Machine
end

section
/-!
PROOFS. The sequencer position: every half-transition keeps the invariants of 10_state.md R14 and re-establishes the
signal pins and the compare register, and where a half-transition has no value to start.
-/

namespace Sys2Proof.Machine

open Sys2Proof.Safety

/-! ### The position invariant -/

/-- The invariant speaks of the position and the configuration only, and not of the half. -/
theorem encoderInv_of_eq {p : BlockParams} {T T' : TrackUnit} (hcfg : T'.cfg = T.cfg)
    (henc : T'.enc = { T.enc with half := T'.enc.half }) (h : EncoderInv p T) : EncoderInv p T' := by
  constructor <;> rw [henc]
  · exact h.idle_iff
  · exact h.pkt_valid
  · exact h.data_index
  · exact h.chk_index
  · rw [hcfg]; exact h.preamble_pre
  · exact h.other_pre
  · exact h.outside_group
  · exact h.bit_range

theorem two_le_length_of_valid {n : Nat} {q : Packet} (h : valid n q = true) : 2 ≤ q.length :=
  ((valid_iff n q).1 h).1

theorem ne_nil_of_valid {n : Nat} {q : Packet} (h : valid n q = true) : q ≠ [] := by
  rintro rfl
  simpa using two_le_length_of_valid h

/-- Whatever the position was, `fetchPacket` leaves one that meets the invariant. -/
theorem encoderInv_fetchPacket (p : BlockParams) {T : TrackUnit} (hpre : 1 ≤ T.cfg.preamble) :
    EncoderInv p (fetchPacket p T) := by
  rcases fetchPacket_cases p T with ⟨q, -, hv, heq⟩ | ⟨-, heq⟩ <;> rw [heq]
  · constructor <;> simp [hv, hpre, ne_nil_of_valid hv]
  · constructor <;> simp

theorem encoderInv_nextFromPreamble {p : BlockParams} {T : TrackUnit} (h : EncoderInv p T)
    (hsub : T.enc.sub = .preamble) : EncoderInv p (nextFromPreamble T) := by
  have hidle : T.enc.sub ≠ .idle := by simp [hsub]
  have hv := h.pkt_valid hidle
  obtain ⟨hbyte, hbit⟩ := h.outside_group (by simp [hsub]) (by simp [hsub])
  unfold nextFromPreamble
  split
  · constructor <;> simp [hsub, hv, hbyte, hbit, ne_nil_of_valid hv]
    omega
  · constructor <;> simp [hv, ne_nil_of_valid hv]
    have := two_le_length_of_valid hv
    omega

theorem encoderInv_nextFromGroup {p : BlockParams} {T : TrackUnit} (h : EncoderInv p T)
    (hsub : T.enc.sub = .data ∨ T.enc.sub = .checksum) : EncoderInv p (nextFromGroup T) := by
  have hidle : T.enc.sub ≠ .idle := by rcases hsub with hs | hs <;> simp [hs]
  have hv := h.pkt_valid hidle
  have hpre := h.other_pre (by rcases hsub with hs | hs <;> simp [hs])
  unfold nextFromGroup
  split
  · exact ⟨h.idle_iff, h.pkt_valid, h.data_index, h.chk_index, h.preamble_pre, h.other_pre,
      fun hd hc => absurd hsub (by tauto), by dsimp only; omega⟩
  · split
    · by_cases hlast : T.enc.byteIdx + 1 = T.enc.pkt.length - 1
      · constructor <;> simp [hlast, hv, hpre, ne_nil_of_valid hv]
        omega
      · constructor <;> simp [hlast, hv, hpre, ne_nil_of_valid hv]
        omega
    · constructor <;> simp [hv, hpre, ne_nil_of_valid hv]

/-- Moving to the next bit keeps the invariant, in a unit whose preamble has a bit to start. -/
theorem encoderInv_nextBit {p : BlockParams} {T : TrackUnit} (hpre : 1 ≤ T.cfg.preamble) (h : EncoderInv p T) :
    EncoderInv p (nextBit p T) := by
  rcases hs : T.enc.sub
  case idle =>
    obtain ⟨q, heq⟩ := nextBit_asks (p := p) (.inl hs)
    rw [heq]; exact encoderInv_fetchPacket p hpre
  case preamble => rw [nextBit_preamble hs]; exact encoderInv_nextFromPreamble h hs
  case data => rw [nextBit_group (.inl hs)]; exact encoderInv_nextFromGroup h (.inl hs)
  case checksum => rw [nextBit_group (.inr hs)]; exact encoderInv_nextFromGroup h (.inr hs)
  case ending =>
    obtain ⟨q, heq⟩ := nextBit_asks (p := p) (.inr hs)
    rw [heq]; exact encoderInv_fetchPacket p hpre

theorem encoderInv_halfStep {p : BlockParams} {T T' : TrackUnit} (hs : HalfStep p T T') (hpre : 1 ≤ T.cfg.preamble)
    (h : EncoderInv p T) : EncoderInv p T' := by
  have hentry : EncoderInv p (interruptEntry T) := encoderInv_of_eq (T := T) rfl rfl h
  rcases hs.cases with ⟨-, b, -, rfl⟩ | ⟨-, b, -, rfl⟩
  · exact encoderInv_of_eq (T := interruptEntry T) rfl rfl hentry
  · exact encoderInv_of_eq (T := nextBit p (interruptEntry T)) rfl rfl (encoderInv_nextBit hpre hentry)

theorem encoderInv_halfSteps {p : BlockParams} {T T' : TrackUnit} (hs : Relation.ReflTransGen (HalfStep p) T T')
    (hpre : 1 ≤ T.cfg.preamble) (h : EncoderInv p T) : EncoderInv p T' := by
  induction hs with
  | refl => exact h
  | tail hs h1 ih => exact encoderInv_halfStep h1 (by rwa [(tickFrame_of_halfSteps hs).cfg]) ih

theorem one_le_preamble {t : Track} {c : TrackConfig} (h : unitConfigOk t c = true) : 1 ≤ c.preamble := by
  simp only [unitConfigOk, Bool.and_eq_true, decide_eq_true_eq] at h
  obtain ⟨⟨⟨⟨⟨⟨⟨hpre, -⟩, -⟩, -⟩, -⟩, -⟩, -⟩, -⟩ := h
  have : 1 ≤ minPreamble t := by cases t <;> decide
  omega

theorem encoderInv_move {p : BlockParams} {t : Track} {i : Instr} {T T' : TrackUnit}
    (hok : unitConfigOk t T.cfg = true) (hm : UnitMove p t i T T') (h : EncoderInv p T) : EncoderInv p T' := by
  rcases hm.frame with ⟨-, hf⟩ | ⟨-, hs⟩
  · exact encoderInv_of_eq hf.cfg (by rw [hf.enc]) h
  · exact encoderInv_halfSteps hs (one_le_preamble hok) h

/-! ### The signal pins and the compare register -/

/-- A half driven at the half-period of the bit on the wire sets the signal pins and the compare register as the
position says (40_encoder.md R89). -/
theorem signalInv_emit {p : BlockParams} {T : TrackUnit} {l : Level} {b : Bit}
    (hhalf : l = .high ↔ T.enc.half = .first) (hbit : curBit p.bitOrder T.enc = some b)
    (hsigB : T.cfg.scheme ≠ .dualInverted → T.pins.sigB = none) : SignalInv p (emit T l (halfPeriod p b)) := by
  refine ⟨hhalf, ?_, fun c hc => ?_⟩
  · by_cases hd : T.cfg.scheme = .dualInverted
    · rw [emit_cfg, if_pos hd]; exact sigBAfter_of_dual hd l
    · rw [emit_cfg, if_neg hd]; exact (sigBAfter_of_ne hd l).trans (hsigB hd)
  · obtain rfl : b = c := Option.some_inj.1 (hbit.symm.trans hc)
    rfl

theorem signalInv_halfStep {p : BlockParams} {T T' : TrackUnit} (hs : HalfStep p T T') (h : SignalInv p T) :
    SignalInv p T' := by
  have hsigB : T.cfg.scheme ≠ .dualInverted → T.pins.sigB = none := fun hd => by rw [h.sigB_dual, if_neg hd]
  rcases hs.cases with ⟨-, b, hb, rfl⟩ | ⟨-, b, hb, rfl⟩
  · exact signalInv_emit (by simp) hb hsigB
  · have hf := nextBit_tickFrame p (interruptEntry T)
    refine signalInv_emit (by simp) hb fun hd => ?_
    dsimp only at hd ⊢
    rw [hf.cfg] at hd
    rw [hf.sigB hd]
    exact hsigB hd

theorem signalInv_halfSteps {p : BlockParams} {T T' : TrackUnit} (hs : Relation.ReflTransGen (HalfStep p) T T')
    (h : SignalInv p T) : SignalInv p T' := by
  induction hs with
  | refl => exact h
  | tail _ h1 ih => exact signalInv_halfStep h1 ih

theorem signalInv_move {p : BlockParams} {t : Track} {i : Instr} {T T' : TrackUnit} (hm : UnitMove p t i T T')
    (h : SignalInv p T) : SignalInv p T' := by
  rcases hm.frame with ⟨-, hf⟩ | ⟨-, hs⟩
  · refine ⟨?_, ?_, ?_⟩
    · rw [hf.sigA, hf.enc]; exact h.sigA_half
    · rw [hf.sigB, hf.cfg, hf.sigA]; exact h.sigB_dual
    · rw [hf.enc, hf.compare]; exact h.armed
  · exact signalInv_halfSteps hs h

/-- Settles O46: every move of a unit keeps the position's invariants, its preamble being legal, and a half-transition
sets the signal pins and the compare register from the new position. -/
theorem everyStepKeepsThePositionInvariants : Obligations.EveryStepKeepsThePositionInvariants :=
  fun _ _ henc h =>
    ⟨step_keeps_each (P := EncoderInv) (fun _ hok hm => encoderInv_move hok hm) h henc,
     step_keeps_each (P := SignalInv) (fun _ _ hm => signalInv_move hm) h⟩

/-! ### Where the position names no bit -/

/-- The position names no bit exactly in a byte group past its eighth bit or at a byte the packet does not have. -/
theorem curBit_eq_none_iff (o : BitOrder) (e : Encoder) :
    curBit o e = none ↔ (e.sub = .data ∨ e.sub = .checksum) ∧ e.bitPos ≠ 0 ∧
      (8 < e.bitPos ∨ e.pkt[e.byteIdx]? = none) := by
  have hgroup : curBit.groupBit o e = none ↔ e.bitPos ≠ 0 ∧ (8 < e.bitPos ∨ e.pkt[e.byteIdx]? = none) := by
    unfold curBit.groupBit
    split
    · simp [*]
    · split <;> simp [*]
  unfold curBit
  split <;> simp [*]

/-- In a byte group the position names a byte of the packet. -/
theorem byte_ne_none {p : BlockParams} {T : TrackUnit} (h : EncoderInv p T)
    (hsub : T.enc.sub = .data ∨ T.enc.sub = .checksum) : T.enc.pkt[T.enc.byteIdx]? ≠ none := by
  rw [Ne, List.getElem?_eq_none_iff]
  rcases hsub with hs | hs
  · have := h.data_index hs
    omega
  · have := h.chk_index hs
    omega

theorem curBit_ne_none {p : BlockParams} {T : TrackUnit} (h : EncoderInv p T) (o : BitOrder) :
    curBit o T.enc ≠ none := by
  rw [Ne, curBit_eq_none_iff]
  rintro ⟨hsub, -, hbit | hbyte⟩
  · have := h.bit_range
    omega
  · exact byte_ne_none h hsub hbyte

/-- The next bit has no value exactly where it is a bit of a byte that the packet does not have. -/
theorem curBit_nextBit_eq_none_iff (p : BlockParams) (T : TrackUnit) :
    curBit p.bitOrder (nextBit p T).enc = none ↔
      (T.enc.sub = .data ∨ T.enc.sub = .checksum) ∧ T.enc.bitPos < 8 ∧ T.enc.pkt[T.enc.byteIdx]? = none := by
  have hasks : ∀ U, curBit p.bitOrder (fetchPacket p U).enc ≠ none := by
    intro U
    rcases fetchPacket_cases p U with ⟨q, -, -, heq⟩ | ⟨-, heq⟩ <;> rw [heq] <;> simp [curBit_eq_none_iff]
  by_cases hsub : T.enc.sub = .data ∨ T.enc.sub = .checksum
  · rw [nextBit_group hsub, curBit_eq_none_iff]
    unfold nextFromGroup
    split
    · simp [*]
    · split <;> simp <;> omega
  · rcases hs : T.enc.sub
    case idle =>
      obtain ⟨q, heq⟩ := nextBit_asks (p := p) (.inl hs)
      rw [heq]; simp [hasks]
    case preamble =>
      rw [nextBit_preamble hs, curBit_eq_none_iff]
      unfold nextFromPreamble
      split <;> simp [hs]
    case ending =>
      obtain ⟨q, heq⟩ := nextBit_asks (p := p) (.inr hs)
      rw [heq]; simp [hasks]
    all_goals exact absurd hs (by tauto)

theorem halfTransition_eq_none_iff (p : BlockParams) (T : TrackUnit) :
    halfTransition p T = none ↔
      (T.enc.half = .first ∧ curBit p.bitOrder T.enc = none) ∨
      (T.enc.half = .second ∧ (T.enc.sub = .data ∨ T.enc.sub = .checksum) ∧ T.enc.bitPos < 8 ∧
        T.enc.pkt[T.enc.byteIdx]? = none) := by
  have hhalf : ∀ (e : Encoder) (h : Phase), curBit p.bitOrder { e with half := h } = curBit p.bitOrder e :=
    fun _ _ => rfl
  unfold halfTransition halfTransition.drive
  rw [← curBit_nextBit_eq_none_iff p T]
  cases T.enc.half <;> simp [hhalf]

/-- Under the position invariant a unit with its timer on always makes a half-transition (60_exceptions.md R165). -/
theorem exists_halfStep {p : BlockParams} {T : TrackUnit} (hon : T.timerOn = true) (h : EncoderInv p T) :
    ∃ T', HalfStep p T T' := by
  have hne : halfTransition p (interruptEntry T) ≠ none := by
    rw [Ne, halfTransition_eq_none_iff]
    rintro (⟨-, hnone⟩ | ⟨-, hsub, -, hbyte⟩)
    · exact curBit_ne_none h _ hnone
    · exact byte_ne_none h hsub hbyte
  obtain ⟨T', hT⟩ := Option.ne_none_iff_exists'.1 hne
  exact ⟨T', hon, hT⟩

end Sys2Proof.Machine
end

section
/-!
PROOFS. TICK and the whole step: the half that one TICK adds, where it stops and what it leaves unchanged
(40_encoder.md R80); the writes of each execution context (60_exceptions.md R169), the flags and the configuration; and
that no step faults from a good position (R165).
-/

namespace Sys2Proof.Machine

open Sys2Proof.Safety

/-! ### One TICK -/

theorem exec_tick_zero (t : Track) (s : State) : exec (.tick t 0) s = serveTick t s := execTick_zero t s

theorem serveTick_refused_iff {t : Track} {s : State} {r : Refusal} :
    serveTick t s = .refused r ↔ (s.unit t).timerOn = false ∧ r = .timerOff := by
  unfold serveTick
  split
  · simp [*, eq_comm]
  · split <;> simp [*, finish]

theorem serveTick_fault_iff {t : Track} {s : State} {r : Fault} :
    serveTick t s = .fault r ↔
      (s.unit t).timerOn = true ∧ halfTransition s.params (interruptEntry (s.unit t)) = none := by
  unfold serveTick
  cases r
  split
  · simp [*]
  · split <;> simp_all [finish]

theorem halfPeriod_eq (p : BlockParams) (b : Bit) : halfPeriod p b = p.halfOne ∨ halfPeriod p b = p.halfZero := by
  cases b
  · exact .inr rfl
  · exact .inl rfl

/-- The half that a half-transition puts on the wire and arms (40_encoder.md R80, R89). -/
theorem HalfStep.adds_half {p : BlockParams} {T T' : TrackUnit} (h : HalfStep p T T') :
    ∃ l b, T'.wire = T.wire ++ [⟨l, halfPeriod p b⟩] ∧ T'.compare = halfPeriod p b ∧ T'.pins.sigA = l ∧
      (l = .high ↔ T.enc.half = .second) ∧ (T'.enc.half = .first ↔ l = .high) := by
  rcases h.cases with ⟨hhalf, b, -, rfl⟩ | ⟨hhalf, b, -, rfl⟩
  · exact ⟨.low, b, rfl, rfl, rfl, by simp [hhalf], by simp⟩
  · refine ⟨.high, b, ?_, rfl, rfl, by simp [hhalf], by simp⟩
    rw [emit_wire, (nextBit_frame p (interruptEntry T)).1]
    rfl

/-- Settles O20: the position invariant gives every half-transition a bit to start, and without it the two stops are
read off the branches of the service of the tick. -/
theorem tickCompletesUnderThePositionInvariant : Obligations.TickCompletesUnderThePositionInvariant := by
  intro s t
  rw [exec_tick_zero]
  refine ⟨fun hon henc => ?_, fun r => serveTick_refused_iff, ?_⟩
  · obtain ⟨T, hT⟩ := exists_halfStep hon henc
    obtain ⟨l, b, hwire, hcompare, hsigA, hlevel, hhalf⟩ := hT.adds_half
    refine ⟨finished t T none s, ⟨l, halfPeriod s.params b⟩, serveTick_next_iff.2 ⟨T, hT, rfl⟩, ?_⟩
    rw [finished_unit]
    exact ⟨hwire, hcompare, hsigA, halfPeriod_eq s.params b, hlevel, hhalf⟩
  · rw [serveTick_fault_iff, halfTransition_eq_none_iff]
    rfl

/-- In the middle of a bit the slot is not touched (40_encoder.md R81). -/
theorem HalfStep.slot_of_first {p : BlockParams} {T T' : TrackUnit} (h : HalfStep p T T')
    (hhalf : T.enc.half = .first) : T'.slot = T.slot := by
  rcases h.cases with ⟨-, b, -, rfl⟩ | ⟨hsecond, -⟩
  · rfl
  · rw [hhalf] at hsecond
    cases hsecond

/-- Settles O21: the frame of a half-transition; a word with reserved bits changes nothing but the result. -/
theorem tickLeavesTheRestUnchanged : Obligations.TickLeavesTheRestUnchanged := by
  intro s s' t rsv h
  rcases execTick_next h with ⟨-, rfl⟩ | ⟨-, h⟩
  · simp
  · obtain ⟨T, hT, rfl⟩ := serveTick_next_iff.1 h
    have hf := hT.frame
    refine ⟨finished_params .., finished_clock .., finished_schedule .., finished_issued .., finished_result ..,
      finished_unit_other .., ?_⟩
    rw [finished_unit]
    exact ⟨hf.cfg, hf.ring, hf.sup, hf.enable, hf.brake, hf.sigB, hf.timerOn, hf.slot, hT.slot_of_first⟩

/-! ### The writes of each context, the flags and the configuration -/

/-- Only CHECK moves the clock, and never back (42_supervisor.md R125). -/
theorem Effect.clock {i : Instr} {s s' : State} (h : Effect s i s') :
    s'.clock = s.clock ∨ ∃ t now raw, i = .check t 0 now raw ∧ s.clock ≤ now ∧ s'.clock = now := by
  cases h with
  | poll t now raw _ hnow => exact .inr ⟨t, now, raw, rfl, hnow, by simp⟩
  | halfStep t _ h => exact .inl (serveTick_tickedFrom h).clock
  | transmitted t q i _ _ h => exact .inl (transmit_tickedFrom h).clock
  | onlyResult => exact .inl rfl
  | refilled | appended | replaced | cancelled | powerOn | powerOff | brakeOn | brakeOff =>
    exact .inl (finished_clock ..)

/-- Settles O52: each move is of one context, and the frame of that context says what it leaves. -/
theorem eachContextWritesOnlyWhatItOwns : Obligations.EachContextWritesOnlyWhatItOwns := by
  intro i s s' t h
  rcases ((exec_unitMove h).2 t).frame with ⟨hctx, hf⟩ | ⟨hctx, hs⟩
  · refine ⟨fun _ => ?_, fun hint => nomatch hctx.symm.trans hint⟩
    exact ⟨hf.enc, hf.sigA, hf.sigB, hf.compare, hf.wire, hf.pending, hf.slot⟩
  · refine ⟨fun hnon => (nomatch hctx.symm.trans hnon), fun _ => ?_⟩
    have hf := tickFrame_of_halfSteps hs
    have hclock : s'.clock = s.clock := by
      rcases (exec_next h).clock with hc | ⟨u, now, raw, rfl, -⟩
      · exact hc
      · cases hctx
    exact ⟨hf.ring, hf.sup, hf.enable, hf.brake, hclock, hf.slot⟩

theorem UnitMove.tripped {p : BlockParams} {t : Track} {i : Instr} {T T' : TrackUnit} (h : UnitMove p t i T T') :
    T'.sup.tripped = T.sup.tripped ∨ ∃ now raw, i = .check t 0 now raw := by
  rcases h.supervisor with hf | ⟨now, raw, hi, -⟩ | ⟨-, rfl⟩ | ⟨-, rfl⟩ | ⟨-, ⟨-, rfl⟩ | ⟨-, rfl⟩⟩
  · rw [hf.sup]; exact .inl rfl
  · exact .inr ⟨now, raw, hi⟩
  all_goals exact .inl rfl

theorem UnitMove.powerReq {p : BlockParams} {t : Track} {i : Instr} {T T' : TrackUnit} (h : UnitMove p t i T T') :
    T'.sup.powerReq = T.sup.powerReq ∨ (i = .pwron t 0 ∧ T'.sup.powerReq = true) ∨
      (i = .pwroff t 0 ∧ T'.sup.powerReq = false) := by
  rcases h.supervisor with hf | ⟨now, raw, -, -, rfl⟩ | ⟨hi, rfl⟩ | ⟨hi, rfl⟩ | ⟨-, ⟨-, rfl⟩ | ⟨-, rfl⟩⟩
  · rw [hf.sup]; exact .inl rfl
  · exact .inl (checkUnit_requests now raw T).1
  · exact .inr (.inl ⟨hi, rfl⟩)
  · exact .inr (.inr ⟨hi, rfl⟩)
  all_goals exact .inl rfl

theorem UnitMove.brakeReq {p : BlockParams} {t : Track} {i : Instr} {T T' : TrackUnit} (h : UnitMove p t i T T') :
    T'.sup.brakeReq = T.sup.brakeReq ∨ (i = .brkon t 0 ∧ T'.sup.brakeReq = true) ∨
      (i = .brkoff t 0 ∧ T'.sup.brakeReq = false) := by
  rcases h.supervisor with hf | ⟨now, raw, -, -, rfl⟩ | ⟨-, rfl⟩ | ⟨-, rfl⟩ | ⟨-, ⟨hi, rfl⟩ | ⟨hi, rfl⟩⟩
  · rw [hf.sup]; exact .inl rfl
  · exact .inl (checkUnit_requests now raw T).2.1
  · exact .inl rfl
  · exact .inl rfl
  · exact .inr (.inl ⟨hi, rfl⟩)
  · exact .inr (.inr ⟨hi, rfl⟩)

/-- The slot is filled only by ENQ and SERVICE, and only when free, and emptied only by TICKs (10_state.md R20). -/
theorem UnitMove.slot {p : BlockParams} {t : Track} {i : Instr} {T T' : TrackUnit} (h : UnitMove p t i T T') :
    T'.slot = T.slot ∨
    (((∃ f tag q, i = .enq t 0 f tag q) ∨ i = .service t 0) ∧ ∀ q, T.slot = some q → T'.slot = some q) ∨
    ((i = .tick t 0 ∨ ∃ q, frameInstr t q = some i) ∧ T'.slot = none) := by
  cases h with
  | ticked hs => exact hs.frame.slot.imp_right fun hn => .inr ⟨.inl rfl, hn⟩
  | sent q hi hs => exact (tickFrame_of_halfSteps hs).slot.imp_right fun hn => .inr ⟨.inr ⟨q, hi⟩, hn⟩
  | polled => rw [checkUnit_frame]; exact .inl rfl
  | refilled => exact .inr (.inl ⟨.inr rfl, (refill_hostFrame T).slot⟩)
  | appended => exact .inr (.inl ⟨.inl ⟨_, _, _, rfl⟩, (acceptEntry_hostFrame ..).slot⟩)
  | replaced => exact .inr (.inl ⟨.inl ⟨_, _, _, rfl⟩, (acceptEntry_hostFrame ..).slot⟩)
  | same | cancelled | poweredOn | poweredOff | brakedOn | brakedOff => exact .inl rfl

theorem UnitMove.ready_set {p : BlockParams} {t : Track} {i : Instr} {T T' : TrackUnit} (h : UnitMove p t i T T')
    (hbefore : T.ready = false) (hafter : T'.ready = true) : (∃ f tag q, i = .enq t 0 f tag q) ∨ i = .service t 0 := by
  rcases h.slot with hs | ⟨hi, -⟩ | ⟨-, hs⟩
  · have he : T'.ready = T.ready := congrArg Option.isSome hs
    rw [he, hbefore] at hafter
    cases hafter
  · exact hi
  · simp [TrackUnit.ready, hs] at hafter

theorem UnitMove.ready_cleared {p : BlockParams} {t : Track} {i : Instr} {T T' : TrackUnit} (h : UnitMove p t i T T')
    (hbefore : T.ready = true) (hafter : T'.ready = false) : i = .tick t 0 ∨ ∃ q, frameInstr t q = some i := by
  obtain ⟨q, hq⟩ := Option.isSome_iff_exists.1 hbefore
  rcases h.slot with hs | ⟨-, hkeep⟩ | ⟨hi, -⟩
  · simp [TrackUnit.ready, hs, hq] at hafter
  · simp [TrackUnit.ready, hkeep q hq] at hafter
  · exact hi

/-- A flag that one event sets and another clears changes in each direction by its own event only. -/
theorem flag_directions {b b' : Bool} {P Q : Prop} (h : b' = b ∨ (P ∧ b' = true) ∨ (Q ∧ b' = false)) :
    (b = false → b' = true → P) ∧ (b = true → b' = false → Q) := by
  rcases h with rfl | ⟨hP, rfl⟩ | ⟨hQ, rfl⟩
  · cases b' <;> simp
  · simp [hP]
  · simp [hQ]

/-- Settles O53: which moves change each flag, and in which direction. -/
theorem flagsChangeOnlyByTheirOperations : Obligations.FlagsChangeOnlyByTheirOperations := by
  intro i s s' t h
  have hm := (exec_unitMove h).2 t
  obtain ⟨hpowerSet, hpowerCleared⟩ := flag_directions hm.powerReq
  obtain ⟨hbrakeSet, hbrakeCleared⟩ := flag_directions hm.brakeReq
  exact ⟨fun hne => hm.tripped.resolve_left hne, hpowerSet, hpowerCleared, hbrakeSet, hbrakeCleared, hm.ready_set,
    hm.ready_cleared⟩

/-- Settles O54: no move writes the configuration or the interrupt enable. -/
theorem theConfigurationIsNeverWritten : Obligations.TheConfigurationIsNeverWritten := by
  refine ⟨fun i s s' h => ?_, fun s s' h => ?_⟩
  · obtain ⟨hp, hm⟩ := exec_unitMove h
    exact ⟨hp, fun t => (hm t).cfg_timerOn⟩
  · obtain ⟨hok, hp, i, hm⟩ := step_unitMove h
    have hcfg : ∀ t, (s'.unit t).cfg = (s.unit t).cfg := fun t => (hm t).cfg_timerOn.1
    refine ⟨hp, ?_, fun t => (hm t).cfg_timerOn⟩
    have hmain := hcfg .main
    have hprog := hcfg .prog
    simp only [unit_main, unit_prog] at hmain hprog
    unfold State.configOk
    rw [hp, hmain, hprog]
    exact hok

/-! ### Where a step stops -/

/-- An outcome that is a next state. -/
def GoesOn (o : Out) : Prop := ∃ s, o = .next s

theorem goesOn_ite {c : Prop} [Decidable c] {a b : Out} (ha : GoesOn a) (hb : GoesOn b) :
    GoesOn (if c then a else b) := by
  split
  · exact ha
  · exact hb

theorem goesOn_finish (t : Track) (T : TrackUnit) (r : Option Result) (s : State) : GoesOn (finish t T r s) := ⟨_, rfl⟩

theorem goesOn_answer (r : Option Result) (s : State) : GoesOn (answer r s) := ⟨_, rfl⟩

theorem goesOn_reject (r : Reason) (s : State) : GoesOn (reject r s) := ⟨_, rfl⟩

theorem goesOn_execEnq (t : Track) (rsv : BitVec 3) (f : EnqFlags) (tag : Byte) (q : Packet) (s : State) :
    GoesOn (execEnq t rsv f tag q s) := by
  unfold execEnq
  split
  · exact goesOn_reject ..
  · exact goesOn_ite (goesOn_finish ..) (goesOn_ite (goesOn_reject ..) (goesOn_finish ..))

/-- Only TICK, a FRAME row, and a CHECK with unlawful answers can stop. -/
theorem exec_goesOn_or (i : Instr) (s : State) :
    GoesOn (exec i s) ∨ (∃ t, exec i s = serveTick t s) ∨
      (∃ t q, frameInstr t q = some i ∧ exec i s = transmit t q s) ∨
      exec i s = .refused .analogOutOfRange ∨ exec i s = .refused .clockWentBack := by
  cases i with
  | tick t rsv =>
    by_cases hr : rsv = 0
    · subst hr; exact .inr (.inl ⟨t, exec_tick_zero t s⟩)
    · exact .inl ⟨_, (if_pos hr : execTick t rsv s = answer none s)⟩
  | check t rsv now raw =>
    simp only [exec, execCheck]
    split
    · exact .inl (goesOn_answer ..)
    · split
      · exact .inr (.inr (.inr (.inl rfl)))
      · split
        · exact .inr (.inr (.inr (.inr rfl)))
        · exact .inl (goesOn_finish ..)
  | service t rsv => exact .inl (goesOn_ite (goesOn_answer ..) (goesOn_finish ..))
  | enq t rsv f tag q => exact .inl (goesOn_execEnq ..)
  | cancel t rsv tag =>
    exact .inl (goesOn_ite (goesOn_reject ..) (goesOn_ite (goesOn_finish ..) (goesOn_reject ..)))
  | pwron t rsv => exact .inl (goesOn_ite (goesOn_reject ..) (goesOn_finish ..))
  | pwroff t rsv => exact .inl (goesOn_ite (goesOn_reject ..) (goesOn_finish ..))
  | brkon t rsv => exact .inl (goesOn_ite (goesOn_reject ..) (goesOn_ite (goesOn_reject ..) (goesOn_finish ..)))
  | brkoff t rsv => exact .inl (goesOn_ite (goesOn_reject ..) (goesOn_ite (goesOn_reject ..) (goesOn_finish ..)))
  | qpwr t rsv => exact .inl (goesOn_ite (goesOn_reject ..) (goesOn_answer ..))
  | qtrip t rsv => exact .inl (goesOn_ite (goesOn_reject ..) (goesOn_answer ..))
  | qcur t rsv => exact .inl (goesOn_ite (goesOn_reject ..) (goesOn_answer ..))
  | reservedC | reservedD | reservedE | reservedF => exact .inl (goesOn_reject ..)
  | frame2 t a b => exact .inr (.inr (.inl ⟨t, [a, b], rfl, rfl⟩))
  | frame3 t a b c => exact .inr (.inr (.inl ⟨t, [a, b, c], rfl, rfl⟩))
  | frame4 t a b c d => exact .inr (.inr (.inl ⟨t, [a, b, c, d], rfl, rfl⟩))
  | frame5 t a b c d e => exact .inr (.inr (.inl ⟨t, [a, b, c, d, e], rfl, rfl⟩))
  | frame6 t a b c d e f => exact .inr (.inr (.inl ⟨t, [a, b, c, d, e, f], rfl, rfl⟩))

/-- What the TICKs of a unit need so as to go on for ever: a position that meets its invariant, the interrupt enabled
and a preamble of at least one bit. -/
structure TickReady (p : BlockParams) (T : TrackUnit) : Prop where
  encoder  : EncoderInv p T
  timerOn  : T.timerOn = true
  preamble : 1 ≤ T.cfg.preamble

theorem TickReady.halfStep {p : BlockParams} {T T' : TrackUnit} (h : TickReady p T) (hs : HalfStep p T T') :
    TickReady p T' :=
  ⟨encoderInv_halfStep hs h.preamble h.encoder, by rw [hs.frame.timerOn]; exact h.timerOn,
    by rw [hs.frame.cfg]; exact h.preamble⟩

theorem TickReady.exists_finished {t : Track} {s : State} (h : TickReady s.params (s.unit t)) :
    ∃ T, TickReady s.params T ∧ serveTick t s = .next (finished t T none s) := by
  obtain ⟨T, hT⟩ := exists_halfStep h.timerOn h.encoder
  exact ⟨T, h.halfStep hT, serveTick_next_iff.2 ⟨T, hT, rfl⟩⟩

theorem goesOn_serveTick {t : Track} {s : State} (h : TickReady s.params (s.unit t)) : GoesOn (serveTick t s) := by
  obtain ⟨T, -, hT⟩ := h.exists_finished
  exact ⟨_, hT⟩

theorem goesOn_runTicks (n : Nat) {t : Track} {s : State} (h : TickReady s.params (s.unit t)) :
    GoesOn (runTicks n t s) := by
  induction n generalizing s with
  | zero => exact ⟨s, rfl⟩
  | succ n ih =>
    obtain ⟨T, hready, hT⟩ := h.exists_finished
    rw [runTicks_succ, hT]
    exact ih (by simpa using hready)

theorem transmit_goesOn_or {t : Track} {s : State} (q : Packet) (h : TickReady s.params (s.unit t)) :
    GoesOn (transmit t q s) ∨ transmit t q s = .refused .frameNotNext := by
  unfold transmit
  rw [if_neg (by simp [h.timerOn])]
  split
  · exact .inl (goesOn_runTicks _ h)
  · exact .inr rfl

theorem exec_goesOn_or_of_tickReady (i : Instr) {s : State} (h : ∀ t, TickReady s.params (s.unit t)) :
    GoesOn (exec i s) ∨ exec i s = .refused .analogOutOfRange ∨ exec i s = .refused .clockWentBack ∨
      (exec i s = .refused .frameNotNext ∧ ∃ t q, frameInstr t q = some i) := by
  rcases exec_goesOn_or i s with hi | ⟨t, hi⟩ | ⟨t, q, hf, hi⟩ | hi | hi
  · exact .inl hi
  · rw [hi]; exact .inl (goesOn_serveTick (h t))
  · rw [hi]
    exact (transmit_goesOn_or q (h t)).imp_right fun hr => .inr (.inr ⟨hr, t, q, hf⟩)
  · exact .inr (.inl hi)
  · exact .inr (.inr (.inl hi))

theorem fetchOperation_error {s : State} {r : Refusal} (h : fetchOperation s = .error r) :
    r = .scheduleEnded ∨ r = .truncated ∨ r = .analogOutOfRange := by
  unfold fetchOperation at h
  split at h
  · cases h
  · split at h
    · cases h
    · rename_i e _
      obtain rfl : refusalOf e = r := by simpa using h
      cases e <;> simp [refusalOf]

/-- The stops that a step has left from a good position. -/
def NamedStop (s : State) (r : Refusal) : Prop :=
  r = .badConfiguration ∨ r = .scheduleEnded ∨ r = .truncated ∨ r = .analogOutOfRange ∨ r = .clockWentBack ∨
    (r = .frameNotNext ∧ ∃ i rest, s.issued = i :: rest ∧ instrContext i = .interrupt)

theorem step_goesOn_or {s : State} (henc : Each EncoderInv s) (hon : TimersOn s) :
    GoesOn (step s) ∨ ∃ r, step s = .refused r ∧ NamedStop s r := by
  unfold step
  split
  · rename_i hok
    have hready : ∀ t, TickReady s.params (s.unit t) := fun t =>
      ⟨each_iff.1 henc t, by cases t; exacts [hon.1, hon.2], one_le_preamble (configOk_unit hok t)⟩
    split
    · exact .inl (goesOn_serveTick (hready _))
    · split
      · rename_i i s1 hfetch
        have hready1 : ∀ t, TickReady s1.params (s1.unit t) := by
          rcases fetchOperation_ok hfetch with ⟨rest, -, rfl⟩ | ⟨-, rest, -, rfl⟩ <;> simpa using hready
        rcases exec_goesOn_or_of_tickReady i hready1 with hi | hi | hi | ⟨hi, t, q, hf⟩
        · exact .inl hi
        · exact .inr ⟨_, hi, by simp [NamedStop]⟩
        · exact .inr ⟨_, hi, by simp [NamedStop]⟩
        · rcases fetchOperation_ok hfetch with ⟨rest, hissued, -⟩ | ⟨-, rest, hdecode, -⟩
          · refine .inr ⟨_, hi, ?_⟩
            simp [NamedStop, hissued, frameInstr_context hf]
          · exact absurd hf (decodeStep_not_frame hdecode t q)
      · rename_i r hfetch
        refine .inr ⟨r, rfl, ?_⟩
        rcases fetchOperation_error hfetch with rfl | rfl | rfl <;> simp [NamedStop]
  · exact .inr ⟨_, rfl, .inl rfl⟩

/-- Settles O55: a TICK goes on from a position that meets its invariant and leaves such a position, so a frame's TICKs
go on too, and a FRAME row comes only from the issued operations. -/
theorem noStepFaultsFromAGoodPosition : Obligations.NoStepFaultsFromAGoodPosition := by
  intro s henc hon
  rcases step_goesOn_or henc hon with ⟨s', hs⟩ | ⟨r, hs, hr⟩
  · simp [hs]
  · rw [hs]
    refine ⟨fun _ => by simp, fun r' hr' => ?_⟩
    obtain rfl : r = r' := by simpa using hr'
    exact hr

end Sys2Proof.Machine
end

section
/-!
PROOFS. The views of a state and its start: the bit of the position (10_state.md R15), the logic pin space
(20_memory.md R40), the legal configurations (70_reset_and_hazards.md R182), boot and the reset state (10_state.md R34).
-/

namespace Sys2Proof.Machine

open Sys2Proof.Safety

/-! ### The current bit -/

/-- In a byte group the position's bit is the separator at 0 and a bit of its byte after it. -/
theorem curBit_group {o : BitOrder} {e : Encoder} (h : e.sub = .data ∨ e.sub = .checksum) :
    curBit o e = if e.bitPos = 0 then some false else if 8 < e.bitPos then none
      else e.pkt[e.byteIdx]?.map fun b => wireBit o b e.bitPos := by
  rcases h with h | h <;> simp only [curBit, h, curBit.groupBit]

/-- Settles O14: by the sub-state, and in a byte group by `bitPos`. -/
theorem currentBitIsTheBitOfThePosition : Obligations.CurrentBitIsTheBitOfThePosition := by
  intro o e
  refine ⟨?_, fun h => ⟨fun h0 => ?_, fun b hb h1 h8 => ?_⟩⟩
  · rintro (h | h | h) <;> simp only [curBit, h]
  · rw [curBit_group h, if_pos h0]
  · rw [curBit_group h, if_neg (by omega), if_neg (by omega), hb]
    rfl

/-! ### The logic pin space -/

/-- In a list whose keys are distinct, looking up a key finds the value it is paired with. -/
theorem lookup_eq_some_of_mem {k : PinId} {v : Level} {l : List (PinId × Level)} (hnd : (l.map Prod.fst).Nodup)
    (h : (k, v) ∈ l) : l.lookup k = some v := by
  obtain ⟨before, after, rfl⟩ := List.append_of_mem h
  rw [List.map_append, List.map_cons, List.nodup_middle] at hnd
  have hnot : k ∉ before.map Prod.fst := fun hk => hnd.notMem (List.mem_append_left _ hk)
  refine List.lookup_eq_some_iff.2 ⟨before, after, rfl, fun q hq => ?_⟩
  simp only [bne_iff_ne, ne_eq]
  rintro rfl
  exact hnot (List.mem_map_of_mem hq)

theorem mem_pinLevels {T : TrackUnit} {x : PinId × Level} :
    x ∈ T.pinLevels ↔ x = (T.cfg.sigA, T.pins.sigA) ∨ x = (T.cfg.enable, T.pins.enable) ∨
      (T.cfg.sigB = some x.1 ∧ T.pins.sigB = some x.2) ∨ (T.cfg.brake = some x.1 ∧ T.pins.brake = some x.2) := by
  unfold TrackUnit.pinLevels
  cases T.cfg.sigB <;> cases T.pins.sigB <;> cases T.cfg.brake <;> cases T.pins.brake <;>
    simp [Prod.ext_iff, eq_comm]

theorem pinsGiven_iff (c : TrackConfig) :
    pinsGiven c = true ↔
      (c.sigB.isSome = true ↔ c.scheme = .dualInverted) ∧ (c.brake.isSome = true ↔ c.scheme = .brakeEnable) := by
  unfold pinsGiven
  cases c.scheme <;> cases c.sigB <;> cases c.brake <;> simp

theorem none_or_some_of_isSome_eq {α β : Type} {a : Option α} {b : Option β} (h : b.isSome = a.isSome) :
    (a = none ∧ b = none) ∨ ∃ x y, a = some x ∧ b = some y := by
  cases a <;> cases b <;> simp_all

/-- Where the optional pins latched are those given, the pins of the view are those of the configuration. -/
theorem pinLevels_ids {T : TrackUnit} (hB : T.pins.sigB.isSome = T.cfg.sigB.isSome)
    (hK : T.pins.brake.isSome = T.cfg.brake.isSome) : T.pinLevels.map Prod.fst = logicPinsOf T.cfg := by
  rcases none_or_some_of_isSome_eq hB with ⟨hc, hp⟩ | ⟨id, l, hc, hp⟩ <;>
    rcases none_or_some_of_isSome_eq hK with ⟨hd, hq⟩ | ⟨id', l', hd, hq⟩ <;>
      simp [TrackUnit.pinLevels, logicPinsOf, hc, hp, hd, hq]

theorem unitConfigOk_pinsGiven {t : Track} {c : TrackConfig} (h : unitConfigOk t c = true) : pinsGiven c = true := by
  simp only [unitConfigOk, Bool.and_eq_true] at h
  exact h.2

/-- In a legal configuration the signal and brake invariants latch exactly the pins given (10_state.md R23, R27). -/
theorem pinLevels_ids_of_inv {p : BlockParams} {t : Track} {T : TrackUnit} (hok : unitConfigOk t T.cfg = true)
    (hsig : SignalInv p T) (hbrake : BrakeInv p T) : T.pinLevels.map Prod.fst = logicPinsOf T.cfg := by
  obtain ⟨hB, hK⟩ := (pinsGiven_iff _).1 (unitConfigOk_pinsGiven hok)
  refine pinLevels_ids ?_ ?_ <;> rw [Bool.eq_iff_iff]
  · rw [hsig.sigB_dual, hB]
    split <;> simp [*]
  · rw [hbrake.1, hK]
    split <;> simp [*]

theorem logicPin_of_mem {s : State} {id : PinId} {l : Level} (hok : s.configOk = true) (hsig : Each SignalInv s)
    (hbrake : Each BrakeInv s) {t : Track} (h : (id, l) ∈ (s.unit t).pinLevels) : s.logicPin id = some l := by
  refine lookup_eq_some_of_mem ?_ (List.mem_append.2 ?_)
  · have hids : ∀ u, (s.unit u).pinLevels.map Prod.fst = logicPinsOf (s.unit u).cfg := fun u =>
      pinLevels_ids_of_inv (configOk_unit hok u) (each_iff.1 hsig u) (each_iff.1 hbrake u)
    have hmain : s.main.pinLevels.map Prod.fst = logicPinsOf s.main.cfg := hids .main
    have hprog : s.prog.pinLevels.map Prod.fst = logicPinsOf s.prog.cfg := hids .prog
    rw [List.map_append, hmain, hprog]
    simp only [State.configOk, inputsOk, unitsDistinct, Bool.and_eq_true, decide_eq_true_eq] at hok
    exact hok.2.1.1
  · cases t
    · exact .inl h
    · exact .inr h

/-- Settles O56: the pins of a legal configuration are distinct keys of the view, and the invariants say which level
each is paired with. -/
theorem logicPinsShowTheLatchedLevels : Obligations.LogicPinsShowTheLatchedLevels := by
  intro s t hok hsig hbrake
  have hS := each_iff.1 hsig t
  have hK := each_iff.1 hbrake t
  obtain ⟨hgivenB, hgivenK⟩ := (pinsGiven_iff _).1 (unitConfigOk_pinsGiven (configOk_unit hok t))
  refine ⟨logicPin_of_mem hok hsig hbrake (mem_pinLevels.2 (.inl rfl)),
    logicPin_of_mem hok hsig hbrake (mem_pinLevels.2 (.inr (.inl rfl))), fun id hid => ?_, fun id hid => ?_⟩
  · refine logicPin_of_mem hok hsig hbrake (t := t) (mem_pinLevels.2 (.inr (.inr (.inl ⟨hid, ?_⟩))))
    rw [hS.sigB_dual, if_pos (hgivenB.1 (by rw [hid]; rfl))]
  · refine logicPin_of_mem hok hsig hbrake (t := t) (mem_pinLevels.2 (.inr (.inr (.inr ⟨hid, ?_⟩))))
    rw [hK.1, if_pos (hgivenK.1 (by rw [hid]; rfl))]

/-! ### Legal configurations, boot and reset -/

theorem paramsOk_iff (p : BlockParams) :
    paramsOk p = true ↔ 0 < p.halfOne ∧ p.halfOne < p.halfZero ∧ 2 ≤ p.maxPacketBytes ∧ p.maxPacketBytes ≤ 255 ∧
      1 ≤ p.adcBits := by
  simp [paramsOk, and_assoc]

theorem unitConfigOk_iff (t : Track) (c : TrackConfig) :
    unitConfigOk t c = true ↔ minPreamble t ≤ c.preamble ∧ 1 ≤ c.cap ∧ 0 < c.scale ∧ 0 ≤ c.tripMA ∧ 0 < c.alpha ∧
      c.alpha ≤ 1 ∧ 1 ≤ c.sampleInterval ∧
      (c.sigB.isSome = true ↔ c.scheme = .dualInverted) ∧ (c.brake.isSome = true ↔ c.scheme = .brakeEnable) := by
  simp only [unitConfigOk, Bool.and_eq_true, decide_eq_true_eq, pinsGiven_iff, and_assoc]

/-- The logic pins of the two units in the order of their configurations, and with the optional pins last. -/
theorem logicPinsOf_perm (cm cp : TrackConfig) :
    (logicPinsOf cm ++ logicPinsOf cp).Perm ([cm.sigA, cm.enable, cp.sigA, cp.enable] ++ cm.sigB.toList ++
      cm.brake.toList ++ cp.sigB.toList ++ cp.brake.toList) := by
  have h : (cm.sigB.toList ++ cm.brake.toList ++ [cp.sigA, cp.enable]).Perm
      ([cp.sigA, cp.enable] ++ (cm.sigB.toList ++ cm.brake.toList)) := List.perm_append_comm
  simpa [logicPinsOf] using h.append_right (cp.sigB.toList ++ cp.brake.toList)

theorem unitsDistinct_iff (cm cp : TrackConfig) :
    unitsDistinct cm cp = true ↔
      ([cm.sigA, cm.enable, cp.sigA, cp.enable] ++ cm.sigB.toList ++ cm.brake.toList ++ cp.sigB.toList ++
        cp.brake.toList).Nodup ∧ cm.sense ≠ cp.sense ∧ cm.timer ≠ cp.timer := by
  simp only [unitsDistinct, Bool.and_eq_true, decide_eq_true_eq, (logicPinsOf_perm cm cp).nodup_iff, and_assoc]

/-- Booting a unit leaves nothing of its earlier contents (10_state.md R34). -/
theorem bootUnit_eq (p : BlockParams) (c : TrackConfig) (t0 : Nat) (T : TrackUnit) :
    bootUnit p c t0 T = TrackUnit.reset p c t0 := by
  simp only [bootUnit, bootBuild, bootEnableLow, bootSignalPins, TrackUnit.reset]
  cases hs : c.scheme <;> rfl

theorem boot_of_legal {p : BlockParams} {cm cp : TrackConfig} (t0 : Nat) (before : State)
    (h : inputsOk p cm cp = true) : boot p cm cp t0 before = .next (State.resetWith p cm cp t0) := by
  unfold boot
  rw [if_pos h, bootUnit_eq, bootUnit_eq]
  rfl

theorem unit_resetWith (p : BlockParams) (cm cp : TrackConfig) (t0 : Nat) (t : Track) :
    ∃ c, (State.resetWith p cm cp t0).unit t = TrackUnit.reset p c t0 := by
  cases t
  exacts [⟨cm, rfl⟩, ⟨cp, rfl⟩]

theorem reset_pins (p : BlockParams) (c : TrackConfig) (t0 : Nat) :
    (TrackUnit.reset p c t0).pins =
      { sigA := .low
        sigB := if c.scheme = .dualInverted then some .high else none
        enable := .low
        brake := if c.scheme = .brakeEnable then some .low else none } := by
  unfold TrackUnit.reset
  cases c.scheme <;> rfl

/-- Settles O57: the tests of a configuration one by one, and boot's steps, which write every field. -/
theorem bootLeavesTheResetValues : Obligations.BootLeavesTheResetValues := by
  intro p cm cp t0 before
  refine ⟨?_, fun h => by simp [boot, h], fun h => ?_⟩
  · simp only [inputsOk, Bool.and_eq_true, paramsOk_iff, unitConfigOk_iff, unitsDistinct_iff, minPreamble,
      forall_eq_or_imp, forall_eq]
    constructor
    · rintro ⟨⟨⟨⟨h1, h2, h3, h4, h5⟩, hpreM, hmain⟩, hpreP, hprog⟩, hdistinct⟩
      exact ⟨h1, h2, h3, h4, h5, hpreM, hpreP, ⟨hmain, hprog⟩, hdistinct⟩
    · rintro ⟨h1, h2, h3, h4, h5, hpreM, hpreP, ⟨hmain, hprog⟩, hdistinct⟩
      exact ⟨⟨⟨⟨h1, h2, h3, h4, h5⟩, hpreM, hmain⟩, hpreP, hprog⟩, hdistinct⟩
  · refine ⟨_, boot_of_legal t0 before h, rfl, rfl, rfl, rfl, rfl, rfl, rfl, rfl, fun t => ?_⟩
    obtain ⟨c, hc⟩ := unit_resetWith p cm cp t0 t
    rw [hc]
    exact ⟨rfl, rfl, rfl, rfl, reset_pins p c t0, rfl, rfl, rfl, rfl⟩

/-! ### The reset state is good -/

theorem encoderInv_reset (p : BlockParams) (c : TrackConfig) (t0 : Nat) : EncoderInv p (TrackUnit.reset p c t0) := by
  constructor <;> simp [TrackUnit.reset]

theorem signalInv_reset (p : BlockParams) (c : TrackConfig) (t0 : Nat) : SignalInv p (TrackUnit.reset p c t0) := by
  refine ⟨?_, ?_, fun b hb => ?_⟩
  · simp [TrackUnit.reset]
  · rw [reset_pins]; rfl
  · obtain rfl : true = b := by simpa [TrackUnit.reset, curBit] using hb
    rfl

/-- Before the first half a receiver counts no bit, and the encoder idles. -/
theorem traceInv_reset (p : BlockParams) (c : TrackConfig) (t0 : Nat) : TraceInv p (TrackUnit.reset p c t0) :=
  ⟨rfl, [], .start, rfl, rfl, .inl rfl⟩

theorem queueInv_reset (p : BlockParams) (c : TrackConfig) (t0 : Nat) : QueueInv p (TrackUnit.reset p c t0) :=
  ⟨Nat.zero_le _, fun _ he => (nomatch he), List.nodup_nil, fun _ hq => nomatch hq⟩

theorem brakeInv_reset (p : BlockParams) (c : TrackConfig) (t0 : Nat) : BrakeInv p (TrackUnit.reset p c t0) := by
  refine ⟨?_, fun _ => rfl⟩
  rw [reset_pins]; rfl

theorem readingInv_reset (p : BlockParams) (c : TrackConfig) (t0 : Nat) : ReadingInv p (TrackUnit.reset p c t0) :=
  ⟨le_refl (0 : Rat), sub_nonneg.2 (one_le_pow₀ (by norm_num))⟩

/-- Every construction and boot time resets to a good state; the legality of the configuration is not needed. -/
theorem good_resetWith (p : BlockParams) (cm cp : TrackConfig) (t0 : Nat) : Good (State.resetWith p cm cp t0) where
  encoder := ⟨encoderInv_reset .., encoderInv_reset ..⟩
  signal := ⟨signalInv_reset .., signalInv_reset ..⟩
  trace := ⟨traceInv_reset .., traceInv_reset ..⟩
  queue := ⟨queueInv_reset .., queueInv_reset ..⟩
  power := ⟨rfl, rfl⟩
  brake := ⟨brakeInv_reset .., brakeInv_reset ..⟩
  reading := ⟨readingInv_reset .., readingInv_reset ..⟩
  clock t := by
    obtain ⟨c, hc⟩ := unit_resetWith p cm cp t0 t
    rw [hc]
    exact ⟨le_refl t0, fun _ hn => nomatch hn⟩
  timers := ⟨rfl, rfl⟩

/-- The example parameters of the vectors are legal (70_reset_and_hazards.md R182). -/
theorem configOk_reset : State.reset.configOk = true := by
  decide

/-- Settles O58: each invariant holds of a unit after reset, whatever its configuration. -/
theorem theResetStateIsGood : Obligations.TheResetStateIsGood :=
  ⟨fun p cm cp t0 h => ⟨good_resetWith p cm cp t0, h⟩, good_resetWith .., configOk_reset⟩

end Sys2Proof.Machine
end

section
/-!
PROOFS. The two track units are apart (20_memory.md R54; 60_exceptions.md R174). An operation moves only the unit it
names; and its outcome is read off the parameters, that unit and, for a CHECK, the order of the times: `exec_replays`
says that what it does from one state it does from every state with the same view of its track. What an operation
leaves of the state, what it does not read, and that operations of different tracks commute are its uses.
-/

namespace Sys2Proof.Machine

open Sys2Proof.Safety

/-! ### Which unit an operation moves -/

theorem frameInstr_track {t : Track} {q : Packet} {i : Instr} (h : frameInstr t q = some i) :
    instrTrack i = some t := by
  unfold frameInstr at h
  split at h <;> cases h <;> rfl

theorem UnitMove.eq_or_named {p : BlockParams} {t : Track} {i : Instr} {T T' : TrackUnit} (h : UnitMove p t i T T') :
    T' = T ∨ instrTrack i = some t := by
  cases h with
  | same => exact .inl rfl
  | sent q hi => exact .inr (frameInstr_track hi)
  | ticked | polled | refilled | appended | replaced | cancelled | poweredOn | poweredOff | brakedOn | brakedOff =>
    exact .inr rfl

theorem exec_unit_of_not_named {i : Instr} {s s' : State} {t : Track} (h : exec i s = .next s')
    (ht : instrTrack i ≠ some t) : s'.unit t = s.unit t :=
  ((exec_unitMove h).2 t).eq_or_named.resolve_right ht

theorem exec_unit_other {i : Instr} {s s' : State} {t : Track} (h : exec i s = .next s')
    (ht : instrTrack i = some t) : s'.unit (otherTrack t) = s.unit (otherTrack t) := by
  refine exec_unit_of_not_named h ?_
  rw [ht, ne_eq, Option.some.injEq]
  exact (otherTrack_ne t).symm

/-- Settles O49: a unit that changes is the one the operation names. -/
theorem anOperationLeavesTheOtherTrackUnchanged : Obligations.AnOperationLeavesTheOtherTrackUnchanged :=
  fun _ _ _ h => ⟨fun _ => exec_unit_other h, fun hn _ => exec_unit_of_not_named h (by simp [hn])⟩

/-! ### The time an operation is answered -/

/-- The time `now()` answers the operation: only a CHECK that polls asks for it (42_supervisor.md R125). -/
def instrTime : Instr → Option Nat
  | .check _ rsv now _ => if rsv = 0 then some now else none
  | _ => none

/-- The state with the clock at the time the operation is answered. -/
def State.timedBy (i : Instr) (s : State) : State := { s with clock := (instrTime i).getD s.clock }

/-- The time the operation is answered is not before the clock. -/
def Timely (i : Instr) (s : State) : Prop := ∀ n, instrTime i = some n → s.clock ≤ n

/-- Where both operations are answered a time, it is the same. -/
def SameTime (i j : Instr) : Prop := ∀ m n, instrTime i = some m → instrTime j = some n → m = n

theorem instrTime_eq_some_iff {i : Instr} {n : Nat} : instrTime i = some n ↔ ∃ t raw, i = .check t 0 n raw := by
  constructor
  · intro h
    unfold instrTime at h
    split at h
    · rename_i t rsv now raw
      obtain ⟨rfl, rfl⟩ : rsv = 0 ∧ now = n := by simpa using h
      exact ⟨t, raw, rfl⟩
    · cases h
  · rintro ⟨t, raw, rfl⟩
    rfl

theorem exec_timely {i : Instr} {s s' : State} (h : exec i s = .next s') : Timely i s := by
  intro n hn
  obtain ⟨t, raw, rfl⟩ := instrTime_eq_some_iff.1 hn
  rcases execCheck_next h with ⟨hne, -⟩ | ⟨-, -, hle, -⟩
  · exact absurd rfl hne
  · exact hle

theorem exec_clock_le {i : Instr} {s s' : State} (h : exec i s = .next s') : s.clock ≤ s'.clock := by
  rcases (exec_next h).clock with hc | ⟨t, n, raw, -, hle, hc⟩
  · exact hc.ge
  · exact hc ▸ hle

theorem timedBy_of_none {i : Instr} (h : instrTime i = none) (s : State) : s.timedBy i = s := by
  simp [State.timedBy, h]

@[simp] theorem timedBy_params (i : Instr) (s : State) : (s.timedBy i).params = s.params := rfl
@[simp] theorem timedBy_unit (i : Instr) (s : State) (t : Track) : (s.timedBy i).unit t = s.unit t :=
  unit_withClock ..

theorem timedBy_finished (i : Instr) (t : Track) (T : TrackUnit) (r : Option Result) (s : State) :
    (finished t T r s).timedBy i = finished t T r (s.timedBy i) := by
  cases t <;> rfl

theorem timedBy_setUnit (i : Instr) (t : Track) (T : TrackUnit) (s : State) :
    (s.setUnit t T).timedBy i = (s.timedBy i).setUnit t T := by
  cases t <;> rfl

theorem timedBy_comm {i j : Instr} (h : SameTime i j) (s : State) :
    (s.timedBy i).timedBy j = (s.timedBy j).timedBy i := by
  cases hi : instrTime i with
  | none => rw [timedBy_of_none hi, timedBy_of_none hi]
  | some m =>
    cases hj : instrTime j with
    | none => rw [timedBy_of_none hj, timedBy_of_none hj]
    | some n => simp [State.timedBy, hi, hj, h m n hi hj]

theorem timely_timedBy {i j : Instr} {s : State} (h : SameTime i j) (hi : Timely i s) : Timely i (s.timedBy j) := by
  intro m hm
  cases hj : instrTime j with
  | none => rw [timedBy_of_none hj]; exact hi m hm
  | some n => simp [State.timedBy, hj, h m n hm hj]

/-! ### The outcome of an operation is read off its view of the state -/

/-- Two states with the same parameters and the same unit of track `t`. -/
structure SameView (t : Track) (s u : State) : Prop where
  params : u.params = s.params
  unit   : u.unit t = s.unit t

/-- Where `o` goes on, `o'` goes on to the same unit of track `t` and the same result, with the rest of `u`. -/
def Replays (t : Track) (u : State) (o o' : Out) : Prop :=
  ∀ s', o = .next s' → o' = .next (finished t (s'.unit t) s'.result u)

theorem replays_finish {t : Track} {s u : State} {T T' : TrackUnit} {r : Option Result} (hT : T' = T) :
    Replays t u (finish t T r s) (finish t T' r u) := by
  intro s' h
  rw [finish_eq, Host.Outcome.next.injEq] at h
  rw [← h, finished_unit, finished_result, hT, finish_eq]

theorem replays_answer {t : Track} {s u : State} {r r' : Option Result} (hv : SameView t s u) (hr : r' = r) :
    Replays t u (answer r s) (answer r' u) := by
  intro s' h
  rw [answer_next_iff.1 h, unit_withResult, ← hv.unit, finished, setUnit_unit, hr, answer]

theorem replays_reject {t : Track} {s u : State} (hv : SameView t s u) (r : Reason) :
    Replays t u (reject r s) (reject r u) := replays_answer hv rfl

theorem replays_ite {t : Track} {u : State} {c c' : Prop} [Decidable c] [Decidable c'] {a b a' b' : Out} (hc : c' ↔ c)
    (ha : Replays t u a a') (hb : Replays t u b b') : Replays t u (if c then a else b) (if c' then a' else b') := by
  by_cases h : c
  · rwa [if_pos h, if_pos (hc.2 h)]
  · rwa [if_neg h, if_neg (mt hc.1 h)]

/-- The check of the reserved head bits that the host operations start with (30_encoding.md R72). -/
theorem replays_checked {t : Track} {s u : State} {rsv : BitVec 3} {a a' : Out} (hv : SameView t s u)
    (ha : Replays t u a a') :
    Replays t u (if rsv ≠ 0 then reject .badOperand s else a) (if rsv ≠ 0 then reject .badOperand u else a') :=
  replays_ite .rfl (replays_reject hv _) ha

theorem replays_execEnq {t : Track} {s u : State} (hv : SameView t s u) (rsv : BitVec 3) (f : EnqFlags) (tag : Byte)
    (q : Packet) : Replays t u (execEnq t rsv f tag q s) (execEnq t rsv f tag q u) := by
  unfold execEnq
  rw [hv.params, hv.unit]
  split
  · exact replays_reject hv _
  · exact replays_ite .rfl (replays_finish rfl) (replays_ite .rfl (replays_reject hv _) (replays_finish rfl))

theorem execCheck_of_lawful {t : Track} {now raw : Nat} {s : State} (hraw : raw < 2 ^ s.params.adcBits)
    (hnow : s.clock ≤ now) :
    execCheck t 0 now raw s = .next (finished t (checkUnit now raw (s.unit t)) none { s with clock := now }) := by
  simp [execCheck, hraw.not_ge, hnow.not_gt, finish_eq]

theorem replays_execCheck {t : Track} {s u : State} (hv : SameView t s u) (rsv : BitVec 3) (now raw : Nat)
    (htime : Timely (.check t rsv now raw) u) :
    Replays t (u.timedBy (.check t rsv now raw)) (execCheck t rsv now raw s) (execCheck t rsv now raw u) := by
  by_cases hr : rsv = 0
  · subst hr
    intro s' h
    rcases execCheck_next h with ⟨hne, -⟩ | ⟨-, hraw, -, rfl⟩
    · exact absurd rfl hne
    · rw [execCheck_of_lawful (hv.params ▸ hraw) (htime now rfl), hv.unit]
      cases t <;> rfl
  · rw [timedBy_of_none (show instrTime (.check t rsv now raw) = none from if_neg hr)]
    unfold execCheck
    rw [if_pos hr, if_pos hr]
    exact replays_answer hv rfl

theorem replays_serveTick {t : Track} {s u : State} (hv : SameView t s u) :
    Replays t u (serveTick t s) (serveTick t u) := by
  intro s' h
  obtain ⟨T, hT, rfl⟩ := serveTick_next_iff.1 h
  rw [finished_unit, finished_result, serveTick_next_iff, hv.params, hv.unit]
  exact ⟨T, hT, rfl⟩

theorem runTicks_succ_next_iff {n : Nat} {t : Track} {s s' : State} :
    runTicks (n + 1) t s = .next s' ↔ ∃ s1, serveTick t s = .next s1 ∧ runTicks n t s1 = .next s' := by
  rw [runTicks_succ]
  cases serveTick t s <;> simp

/-- A run of at least one TICK, which leaves no result of before. -/
theorem replays_runTicks {t : Track} {s u : State} (hv : SameView t s u) (n : Nat) :
    Replays t u (runTicks (n + 1) t s) (runTicks (n + 1) t u) := by
  intro s' h
  obtain ⟨s1, h1, hrest⟩ := runTicks_succ_next_iff.1 h
  refine runTicks_succ_next_iff.2 ⟨_, replays_serveTick hv s1 h1, ?_⟩
  obtain ⟨T, -, rfl⟩ := serveTick_next_iff.1 h1
  rw [finished_unit, finished_result]
  cases n with
  | zero =>
    cases hrest
    rw [finished_unit, finished_result]
    rfl
  | succ n =>
    have hv1 : SameView t (finished t T none s) (finished t T none u) := ⟨by simp [hv.params], by simp⟩
    rw [replays_runTicks hv1 n s' hrest, finished_finished]

theorem replays_transmit {t : Track} {s u : State} (hv : SameView t s u) (q : Packet) :
    Replays t u (transmit t q s) (transmit t q u) := by
  obtain ⟨n, hn⟩ : ∃ n, frameTicks (s.unit t).cfg.preamble q.length = n + 1 := ⟨_, rfl⟩
  unfold transmit
  rw [hv.params, hv.unit, hn]
  exact replays_ite .rfl (fun _ h => nomatch h) (replays_ite .rfl (replays_runTicks hv n) fun _ h => nomatch h)

/-- What an operation does from one state it does from every state with the same view of its track, where the time it
is answered is not before the clock there. -/
theorem exec_replays {i : Instr} {t : Track} {s u : State} (ht : instrTrack i = some t) (hv : SameView t s u)
    (htime : Timely i u) : Replays t (u.timedBy i) (exec i s) (exec i u) := by
  cases i <;> cases ht
  case check rsv now raw => exact replays_execCheck hv rsv now raw htime
  case tick rsv => exact replays_ite .rfl (replays_answer hv rfl) (replays_serveTick hv)
  case service rsv => exact replays_ite .rfl (replays_answer hv rfl) (replays_finish (by rw [hv.unit]))
  case enq rsv f tag q => exact replays_execEnq hv rsv f tag q
  case cancel rsv tag =>
    exact replays_checked hv
      (replays_ite (by rw [hv.unit]) (replays_finish (by rw [hv.unit])) (replays_reject hv _))
  case pwron | pwroff => exact replays_checked hv (replays_finish (by rw [hv.unit]))
  case brkon | brkoff =>
    exact replays_checked hv
      (replays_ite (by rw [hv.unit]) (replays_reject hv _) (replays_finish (by rw [hv.unit])))
  case qpwr | qtrip | qcur => exact replays_checked hv (replays_answer hv (by rw [hv.unit]))
  case frame2 | frame3 | frame4 | frame5 | frame6 => exact replays_transmit hv _

/-! ### What an operation leaves and does not read -/

/-- An operation on a track changes the unit of that track, the clock and the result, and nothing else. -/
theorem exec_frame {i : Instr} {t : Track} {s s' : State} (ht : instrTrack i = some t) (h : exec i s = .next s') :
    s' = finished t (s'.unit t) s'.result (s.timedBy i) := by
  have hagain := exec_replays ht ⟨rfl, rfl⟩ (exec_timely h) s' h
  rwa [h, Host.Outcome.next.injEq] at hagain

/-- Settles O50: the other unit is not in the view, and what is not in the view is left. -/
theorem anOperationDoesNotReadTheOtherTrack : Obligations.AnOperationDoesNotReadTheOtherTrack := by
  intro i s s' t U ht h
  have hv : SameView t s (s.setUnit (otherTrack t) U) := ⟨setUnit_params .., by cases t <;> rfl⟩
  have htime : Timely i (s.setUnit (otherTrack t) U) := by
    simpa [Timely] using exec_timely h
  rw [exec_replays ht hv htime s' h, timedBy_setUnit, Host.Outcome.next.injEq]
  calc finished t (s'.unit t) s'.result ((s.timedBy i).setUnit (otherTrack t) U)
      = (finished t (s'.unit t) s'.result (s.timedBy i)).setUnit (otherTrack t) U := by cases t <;> rfl
    _ = s'.setUnit (otherTrack t) U := by rw [← exec_frame ht h]

/-- Writes to different units commute, but for the result (20_memory.md R54). -/
theorem finished_comm (t : Track) (T U : TrackUnit) (r q : Option Result) (s : State) :
    { finished t T r (finished (otherTrack t) U q s) with result := none } =
      { finished (otherTrack t) U q (finished t T r s) with result := none } := by
  cases t <;> rfl

/-- Settles O51: neither operation changes the view of the other, so each does in the other order what it did. -/
theorem operationsOnDifferentTracksCommute : Obligations.OperationsOnDifferentTracksCommute := by
  intro i j s s1 s12 t hi hj hsame h1 h12
  have hst : SameTime i j := by
    intro m n hm hn
    obtain ⟨u, raw, rfl⟩ := instrTime_eq_some_iff.1 hm
    obtain ⟨v, raw', rfl⟩ := instrTime_eq_some_iff.1 hn
    cases hi
    cases hj
    exact hsame m n raw raw' rfl rfl
  have hviewj : SameView (otherTrack t) s1 s := ⟨(exec_unitMove h1).1.symm, (exec_unit_other h1 hi).symm⟩
  have htimej : Timely j s := fun n hn => (exec_clock_le h1).trans (exec_timely h12 n hn)
  have h2 := exec_replays hj hviewj htimej s12 h12
  have hviewi := SameView.mk (exec_unitMove h2).1 (by simpa using exec_unit_other h2 hj)
  have htimei : Timely i (finished (otherTrack t) (s12.unit (otherTrack t)) s12.result (s.timedBy j)) := by
    simpa [Timely] using timely_timedBy hst (exec_timely h1)
  refine ⟨_, _, h2, exec_replays hi hviewi htimei s1 h1, ?_⟩
  rw [timedBy_finished, ← timedBy_comm hst, finished_comm, ← timedBy_finished, ← exec_frame hi h1,
    ← exec_frame hj h12]

/-! ### The queue's operations -/

/-- The operations of the packet queue on track `t` (41_queue.md). -/
def IsQueueOperation (t : Track) (i : Instr) : Prop :=
  (∃ rsv f tag p, i = .enq t rsv f tag p) ∨ (∃ rsv tag, i = .cancel t rsv tag) ∨ ∃ rsv, i = .service t rsv

theorem IsQueueOperation.facts {t : Track} {i : Instr} (h : IsQueueOperation t i) :
    instrTrack i = some t ∧ instrTime i = none ∧ instrContext i = .nonInterrupt := by
  rcases h with ⟨rsv, f, tag, q, rfl⟩ | ⟨rsv, tag, rfl⟩ | ⟨rsv, rfl⟩ <;> exact ⟨rfl, rfl, rfl⟩

theorem acceptEntry_frame (ring : List Entry) (e : Entry) (T : TrackUnit) :
    acceptEntry ring e T = { T with slot := (acceptEntry ring e T).slot, ring := (acceptEntry ring e T).ring } :=
  (refill_frame { T with ring := ring ++ [e] }).1

theorem UnitMove.queue_frame {p : BlockParams} {t : Track} {i : Instr} {T T' : TrackUnit} (h : UnitMove p t i T T')
    (hi : IsQueueOperation t i) : T' = { T with slot := T'.slot, ring := T'.ring } := by
  cases h with
  | same | cancelled => rfl
  | refilled => exact (refill_frame T).1
  | appended | replaced => exact acceptEntry_frame ..
  | sent q hf =>
    obtain ⟨-, -, hctx⟩ := hi.facts
    exact nomatch (frameInstr_context hf).symm.trans hctx
  | ticked | polled | poweredOn | poweredOff | brakedOn | brakedOff => simp [IsQueueOperation] at hi

theorem UnitMove.hostFrame {p : BlockParams} {t : Track} {i : Instr} {T T' : TrackUnit} (h : UnitMove p t i T T')
    (hctx : instrContext i = .nonInterrupt) : HostFrame T T' := by
  rcases h.frame with ⟨-, hf⟩ | ⟨hint, -⟩
  · exact hf
  · exact nomatch hint.symm.trans hctx

theorem UnitMove.cancel_slot {p : BlockParams} {t : Track} {rsv : BitVec 3} {tag : Byte} {T T' : TrackUnit}
    (h : UnitMove p t (.cancel t rsv tag) T T') : T'.slot = T.slot := by
  rcases h.slot with hs | ⟨⟨f, g, q, hi⟩ | hi, -⟩ | ⟨hi | ⟨q, hi⟩, -⟩
  · exact hs
  · cases hi
  · cases hi
  · cases hi
  · exact nomatch frameInstr_context hi

/-- Settles O30: the frame of an operation on one track, and of the queue's moves of its unit. -/
theorem queueOperationsLeaveTheRestUnchanged : Obligations.QueueOperationsLeaveTheRestUnchanged := by
  intro s s' t i hi h
  obtain ⟨htrack, htime, hctx⟩ := IsQueueOperation.facts hi
  have hm := (exec_unitMove h).2 t
  have hf := exec_frame htrack h
  rw [timedBy_of_none htime] at hf
  refine ⟨?_, ?_, ?_, ?_, exec_unit_other h htrack, hm.queue_frame hi, (hm.hostFrame hctx).slot, ?_⟩
  · rw [hf, finished_params]
  · rw [hf, finished_clock]
  · rw [hf, finished_schedule]
  · rw [hf, finished_issued]
  · rintro ⟨rsv, tag, rfl⟩
    exact hm.cancel_slot

end Sys2Proof.Machine
end

section
/-!
PROOFS. The step words (30_encoding.md R69, R70, R72, R75) and the frame patterns (R63, R65): each field of an encoding
is read back from where it was written, so that the decoder and the encoder are inverse to each other, and an operation
cut short is refused.
-/

namespace Sys2Proof.Machine

open Sys2Proof.Safety

/-! ### The fields of the bytes -/

@[simp] theorem headOp_headByte (op : BitVec 4) (rsv : BitVec 3) (t : Track) : headOp (headByte op rsv t) = op := by
  rw [headOp, headByte, BitVec.extractLsb'_append_eq_of_le (by decide)]
  exact BitVec.extractLsb'_append_eq_left

@[simp] theorem headRsv_headByte (op : BitVec 4) (rsv : BitVec 3) (t : Track) : headRsv (headByte op rsv t) = rsv := by
  rw [headRsv, headByte, BitVec.extractLsb'_append_eq_of_le (by decide)]
  exact BitVec.extractLsb'_append_eq_right

@[simp] theorem headTrack_headByte (op : BitVec 4) (rsv : BitVec 3) (t : Track) :
    headTrack (headByte op rsv t) = t := by
  have h0 : (headByte op rsv t).getLsbD 0 = (trackBit t).getLsbD 0 := by
    rw [headByte, BitVec.getLsbD_append, if_pos Nat.one_pos]
  rw [headTrack, h0]
  cases t <;> rfl

/-- A head byte is made of its fields. -/
theorem headByte_fields : ∀ h : Byte, headByte (headOp h) (headRsv h) (headTrack h) = h := by decide

@[simp] theorem headOp_append (op low : BitVec 4) : headOp (op ++ low) = op := BitVec.extractLsb'_append_eq_left

@[simp] theorem headLow_append (op low : BitVec 4) : headLow (op ++ low) = low := BitVec.extractLsb'_append_eq_right

/-- A head byte is made of its two nibbles. -/
theorem headOp_append_headLow (h : Byte) : headOp h ++ headLow h = h :=
  (BitVec.extractLsb'_append_extractLsb'_eq_extractLsb' rfl).trans BitVec.extractLsb'_eq_self

theorem headByte_of_op {h : Byte} {op : BitVec 4} (hop : (headOp h).toNat = op.toNat) :
    headByte op (headRsv h) (headTrack h) = h := by
  rw [← BitVec.eq_of_toNat_eq hop, headByte_fields]

theorem append_headLow_of_op {h : Byte} {op : BitVec 4} (hop : (headOp h).toNat = op.toNat) : op ++ headLow h = h := by
  rw [← BitVec.eq_of_toNat_eq hop, headOp_append_headLow]

/-- The flags of ENQ are read back, where the repeat count fits its four bits (30_encoding.md R69). -/
theorem flagsOfByte_byteOfFlags {f : EnqFlags} (h : f.repeats ≤ 15) : flagsOfByte (byteOfFlags f) = f := by
  obtain ⟨periodic, rsv, repeats⟩ := f
  have hrsv : (byteOfFlags ⟨periodic, rsv, repeats⟩).extractLsb' 4 3 = rsv := by
    rw [byteOfFlags, BitVec.extractLsb'_append_eq_of_le (by decide)]
    exact BitVec.extractLsb'_append_eq_right
  have hrep : (byteOfFlags ⟨periodic, rsv, repeats⟩).extractLsb' 0 4 = BitVec.ofNat 4 repeats :=
    BitVec.extractLsb'_append_eq_right
  have hper : (byteOfFlags ⟨periodic, rsv, repeats⟩).getLsbD 7 = periodic := by
    rw [byteOfFlags, BitVec.getLsbD_append, if_neg (by decide), BitVec.getLsbD_append, if_neg (by decide)]
    simp
  rw [flagsOfByte, hrsv, hrep, hper, BitVec.toNat_ofNat, Nat.mod_eq_of_lt (Nat.lt_succ_of_le h)]

theorem byteOfFlags_flagsOfByte : ∀ b : Byte, byteOfFlags (flagsOfByte b) = b := by decide

theorem flagsOfByte_repeats_le (b : Byte) : (flagsOfByte b).repeats ≤ 15 :=
  Nat.le_of_lt_succ (b.extractLsb' 0 4).isLt

theorem nowOfBytes_extract (n : BitVec 32) :
    nowOfBytes (n.extractLsb' 0 8) (n.extractLsb' 8 8) (n.extractLsb' 16 8) (n.extractLsb' 24 8) = n := by
  have h32 : n.extractLsb' 24 8 ++ n.extractLsb' 16 8 = n.extractLsb' 16 16 :=
    BitVec.extractLsb'_append_extractLsb'_eq_extractLsb' rfl
  have h321 : n.extractLsb' 16 16 ++ n.extractLsb' 8 8 = n.extractLsb' 8 24 :=
    BitVec.extractLsb'_append_extractLsb'_eq_extractLsb' rfl
  rw [nowOfBytes, h32, h321]
  exact (BitVec.extractLsb'_append_extractLsb'_eq_extractLsb' rfl).trans BitVec.extractLsb'_eq_self

theorem rawOfBytes_extract (r : BitVec 16) : rawOfBytes (r.extractLsb' 0 8) (r.extractLsb' 8 8) = r :=
  (BitVec.extractLsb'_append_extractLsb'_eq_extractLsb' rfl).trans BitVec.extractLsb'_eq_self

@[simp] theorem bytesOfNow_nowOfBytes (b1 b2 b3 b4 : Byte) :
    bytesOfNow (nowOfBytes b1 b2 b3 b4) = [b1, b2, b3, b4] := by
  have h1 : (nowOfBytes b1 b2 b3 b4).extractLsb' 0 8 = b1 := BitVec.extractLsb'_append_eq_right
  have h2 : (nowOfBytes b1 b2 b3 b4).extractLsb' 8 8 = b2 := by
    rw [nowOfBytes, BitVec.extractLsb'_append_eq_of_le (by decide)]
    exact BitVec.extractLsb'_append_eq_right
  have h3 : (nowOfBytes b1 b2 b3 b4).extractLsb' 16 8 = b3 := by
    rw [nowOfBytes, BitVec.extractLsb'_append_eq_of_le (by decide), BitVec.extractLsb'_append_eq_of_le (by decide)]
    exact BitVec.extractLsb'_append_eq_right
  have h4 : (nowOfBytes b1 b2 b3 b4).extractLsb' 24 8 = b4 := by
    rw [nowOfBytes, BitVec.extractLsb'_append_eq_of_le (by decide), BitVec.extractLsb'_append_eq_of_le (by decide)]
    exact BitVec.extractLsb'_append_eq_left
  rw [bytesOfNow, h1, h2, h3, h4]

@[simp] theorem bytesOfRaw_rawOfBytes (b5 b6 : Byte) : bytesOfRaw (rawOfBytes b5 b6) = [b5, b6] := by
  have h5 : (rawOfBytes b5 b6).extractLsb' 0 8 = b5 := BitVec.extractLsb'_append_eq_right
  have h6 : (rawOfBytes b5 b6).extractLsb' 8 8 = b6 := BitVec.extractLsb'_append_eq_left
  rw [bytesOfRaw, h5, h6]

theorem wellFormedAnswers_iff {p : BlockParams} {rsv : BitVec 3} {now raw : Nat} :
    wellFormedAnswers p rsv now raw = true ↔
      now < 2 ^ 32 ∧ raw < 2 ^ 16 ∧ ¬ (rsv = 0 ∧ 2 ^ p.adcBits ≤ raw) := by
  simp only [wellFormedAnswers, Bool.and_eq_true, Bool.or_eq_true, decide_eq_true_eq, and_assoc, not_and_or, not_le]

/-! ### The decoder reads back what the encoder wrote -/

theorem decodeCheck_encoding {p : BlockParams} {t : Track} {rsv : BitVec 3} {now raw : Nat}
    (h : wellFormedAnswers p rsv now raw = true) (rest : List Byte) :
    decodeCheck p.adcBits t rsv (bytesOfNow (.ofNat 32 now) ++ bytesOfRaw (.ofNat 16 raw) ++ rest) =
      .ok (.check t rsv now raw, rest) := by
  obtain ⟨hnow, hraw, hlawful⟩ := wellFormedAnswers_iff.1 h
  simp only [bytesOfNow, bytesOfRaw, List.cons_append, List.nil_append, decodeCheck, nowOfBytes_extract,
    rawOfBytes_extract, BitVec.toNat_ofNat, Nat.mod_eq_of_lt hnow, Nat.mod_eq_of_lt hraw, if_neg hlawful]

theorem decodeEnq_encoding {t : Track} {rsv : BitVec 3} {f : EnqFlags} {tag : Byte} {pkt : Packet}
    (hf : f.repeats ≤ 15) (hlen : pkt.length ≤ 255) (rest : List Byte) :
    decodeEnq t rsv (byteOfFlags f :: tag :: BitVec.ofNat 8 pkt.length :: (pkt ++ rest)) =
      .ok (.enq t rsv f tag pkt, rest) := by
  have hmod : pkt.length % 256 = pkt.length := Nat.mod_eq_of_lt (Nat.lt_succ_of_le hlen)
  simp [decodeEnq, hmod, flagsOfByte_byteOfFlags hf]

theorem decodeStep_encode {p : BlockParams} {o : BitOrder} {i : Instr} {bytes : List Byte}
    (hi : wellFormed p i = true) (hb : encode o i = .step bytes) (rest : List Byte) :
    decodeStep p.adcBits (bytes ++ rest) = .ok (i, rest) := by
  cases i <;> cases hb
  case check t rsv now raw => simpa [decodeStep] using decodeCheck_encoding hi rest
  case enq t rsv f tag pkt =>
    obtain ⟨hf, hlen⟩ : f.repeats ≤ 15 ∧ pkt.length ≤ 255 := by simpa [wellFormed] using hi
    simpa [decodeStep] using decodeEnq_encoding hf hlen rest
  case cancel t rsv tag => simp [decodeStep, decodeCancel]
  all_goals simp [decodeStep]

/-- Eight bits in wire order give their byte back (30_encoding.md R62). -/
theorem byteOf_byteBits (o : BitOrder) : ∀ b : Byte, byteOf o (byteBits o b) = b := by
  cases o <;> decide

theorem decodeGroups_framePattern (o : BitOrder) (q : Packet) : decodeGroups o (framePattern o q) = some q := by
  induction q with
  | nil => rfl
  | cons b q ih =>
    have hb := byteOf_byteBits o b
    simp only [framePattern, groupBits, byteBits] at ih hb
    simp [framePattern, groupBits, byteBits, decodeGroups, ih, hb]

theorem decodeFrame_encode {p : BlockParams} {i : Instr} {t : Track} {bits : List Bit} (hi : wellFormed p i = true)
    (hb : encode p.bitOrder i = .wire t bits) : decodeFrame p t bits = some i := by
  cases i <;> cases hb <;> simp only [decodeFrame, decodeGroups_framePattern] <;> exact if_pos hi

/-- Settles O2: a step word by its fields, a frame pattern by its groups. -/
theorem decodeOfEncodeIsTheInstruction : Obligations.DecodeOfEncodeIsTheInstruction := by
  intro p i hi
  refine ⟨?_, fun bytes rest hb => decodeStep_encode hi hb rest⟩
  cases hc : encode p.bitOrder i with
  | step bytes =>
    have hd := decodeStep_encode hi hc []
    rw [List.append_nil] at hd
    simp only [decode, hd]
  | wire t bits => exact decodeFrame_encode hi hc

/-! ### What the decoder reads is an encoding -/

/-- The stream is the encoding of a well-formed instruction followed by the rest. -/
def ReadAs (p : BlockParams) (o : BitOrder) (bs : List Byte) (i : Instr) (rest : List Byte) : Prop :=
  wellFormed p i = true ∧ ∃ bytes, encode o i = .step bytes ∧ bs = bytes ++ rest

theorem readAs_check {p : BlockParams} {o : BitOrder} {t : Track} {rsv : BitVec 3} {bs rest : List Byte} {i : Instr}
    (h : decodeCheck p.adcBits t rsv bs = .ok (i, rest)) : ReadAs p o (headByte 1 rsv t :: bs) i rest := by
  unfold decodeCheck at h
  split at h
  · split at h
    · cases h
    · rename_i b1 b2 b3 b4 b5 b6 rest' hlawful
      cases h
      refine ⟨wellFormedAnswers_iff.2 ⟨BitVec.isLt _, BitVec.isLt _, hlawful⟩, _, rfl, ?_⟩
      simp
  · cases h

theorem readAs_enq {p : BlockParams} {o : BitOrder} {t : Track} {rsv : BitVec 3} {bs rest : List Byte} {i : Instr}
    (h : decodeEnq t rsv bs = .ok (i, rest)) : ReadAs p o (headByte 3 rsv t :: bs) i rest := by
  unfold decodeEnq at h
  split at h
  · split at h
    · cases h
    · rename_i flags tag len tail hlen
      cases h
      have hlt := len.isLt
      have htake : (tail.take len.toNat).length = len.toNat := List.length_take_of_le (by omega)
      refine ⟨?_, _, rfl, ?_⟩
      · simp only [wellFormed, htake, Bool.and_eq_true, decide_eq_true_eq]
        exact ⟨flagsOfByte_repeats_le flags, by omega⟩
      · simp [htake, byteOfFlags_flagsOfByte]
  · cases h

theorem readAs_cancel {p : BlockParams} {o : BitOrder} {t : Track} {rsv : BitVec 3} {bs rest : List Byte} {i : Instr}
    (h : decodeCancel t rsv bs = .ok (i, rest)) : ReadAs p o (headByte 4 rsv t :: bs) i rest := by
  unfold decodeCancel at h
  split at h
  · cases h; exact ⟨rfl, _, rfl, rfl⟩
  · cases h

/-- An operation of one byte is read as its encoding. -/
theorem readAs_single {p : BlockParams} {o : BitOrder} {h : Byte} {i j : Instr} {bs rest : List Byte}
    (hd : (.ok (j, bs) : Decoded) = .ok (i, rest)) (hw : wellFormed p j = true) (he : encode o j = .step [h]) :
    ReadAs p o (h :: bs) i rest := by
  cases hd
  exact ⟨hw, [h], he, rfl⟩

/-- Settles O3: by the operation number of the head byte, as the decoder chooses. -/
theorem whatDecodesIsTheEncoding : Obligations.WhatDecodesIsTheEncoding := by
  intro p o bs rest i hd
  change ReadAs p o bs i rest
  unfold decodeStep at hd
  split at hd
  · cases hd
  · rename_i h tail
    have hword (op : BitVec 4) (hop : (headOp h).toNat = op.toNat) :
        Code.step [headByte op (headRsv h) (headTrack h)] = .step [h] := by rw [headByte_of_op hop]
    have hlow (op : BitVec 4) (hop : (headOp h).toNat = op.toNat) : Code.step [op ++ headLow h] = .step [h] := by
      rw [append_headLow_of_op hop]
    split at hd
    next hop => exact readAs_single hd rfl (hword 0 hop)
    next hop => exact headByte_of_op (op := 1) hop ▸ readAs_check hd
    next hop => exact readAs_single hd rfl (hword 2 hop)
    next hop => exact headByte_of_op (op := 3) hop ▸ readAs_enq hd
    next hop => exact headByte_of_op (op := 4) hop ▸ readAs_cancel hd
    next hop => exact readAs_single hd rfl (hword 5 hop)
    next hop => exact readAs_single hd rfl (hword 6 hop)
    next hop => exact readAs_single hd rfl (hword 7 hop)
    next hop => exact readAs_single hd rfl (hword 8 hop)
    next hop => exact readAs_single hd rfl (hword 9 hop)
    next hop => exact readAs_single hd rfl (hword 10 hop)
    next hop => exact readAs_single hd rfl (hword 11 hop)
    next hop => exact readAs_single hd rfl (hlow 12 hop)
    next hop => exact readAs_single hd rfl (hlow 13 hop)
    next hop => exact readAs_single hd rfl (hlow 14 hop)
    next =>
      have hlt : (headOp h).toNat < 16 := (headOp h).isLt
      simp only [imp_false] at * -- the fifteen other numbers, in a form that `omega` reads
      have hop : (headOp h).toNat = 15 := by omega
      exact readAs_single hd rfl (hlow 15 hop)

/-! ### An operation cut short -/

theorem decodeCheck_of_short {adcBits : Nat} {t : Track} {rsv : BitVec 3} {bs : List Byte} (h : bs.length < 6) :
    decodeCheck adcBits t rsv bs = .error .truncated := by
  unfold decodeCheck
  split
  · simp at h
    omega
  · rfl

theorem decodeEnq_of_short {t : Track} {rsv : BitVec 3} {flags tag : Byte} {pkt : Packet} (hlen : pkt.length ≤ 255)
    {k : Nat} (hk : k < pkt.length + 3) :
    decodeEnq t rsv ((flags :: tag :: BitVec.ofNat 8 pkt.length :: pkt).take k) = .error .truncated := by
  match k with
  | 0 | 1 | 2 => rfl
  | k + 3 =>
    have hmod : pkt.length % 256 = pkt.length := Nat.mod_eq_of_lt (Nat.lt_succ_of_le hlen)
    simpa [decodeEnq, hmod] using hk

theorem decodeStep_take {p : BlockParams} {o : BitOrder} {i : Instr} {bytes : List Byte} {k : Nat}
    (hi : wellFormed p i = true) (hb : encode o i = .step bytes) (h0 : 0 < k) (hk : k < bytes.length) :
    decodeStep p.adcBits (bytes.take k) = .error .truncated := by
  obtain ⟨k, rfl⟩ := Nat.exists_eq_succ_of_ne_zero h0.ne'
  cases i <;> cases hb
  case check t rsv now raw =>
    have hlen : k < 6 := Nat.lt_of_succ_lt_succ hk
    simp only [List.take_succ_cons, decodeStep, headOp_headByte]
    exact decodeCheck_of_short ((List.length_take_le ..).trans_lt hlen)
  case enq t rsv f tag pkt =>
    obtain ⟨-, hlen⟩ : f.repeats ≤ 15 ∧ pkt.length ≤ 255 := by simpa [wellFormed] using hi
    simp only [List.take_succ_cons, decodeStep, headOp_headByte]
    exact decodeEnq_of_short hlen (Nat.lt_of_succ_lt_succ hk)
  case cancel t rsv tag =>
    obtain rfl : k = 0 := by simpa using hk
    simp [decodeStep, decodeCancel]
  all_goals exact absurd hk (by simp)

/-- A step whose schedule the decoder refuses is refused for that reason. -/
theorem step_of_decodeStep_error {s : State} {e : DecodeError} (hok : s.configOk = true) (hm : s.main.pending = false)
    (hp : s.prog.pending = false) (hissued : s.issued = []) (he : decodeStep s.params.adcBits s.schedule = .error e) :
    step s = .refused (refusalOf e) := by
  have hnone : pendingTick s = none := by simp [pendingTick, hm, hp]
  have hfetch : fetchOperation s = .error (refusalOf e) := by simp [fetchOperation, hissued, he]
  simp [step, hok, hnone, hfetch]

/-- Settles O4: each decoder of operands runs out of bytes, and the step refuses what the decoder refuses. -/
theorem truncatedStepWordsAreRefused : Obligations.TruncatedStepWordsAreRefused := by
  intro p i bytes k hi hb h0 hk
  have hcut := decodeStep_take hi hb h0 hk
  refine ⟨hcut, fun s hok hm hp hs hissued hsched => ?_⟩
  exact step_of_decodeStep_error hok hm hp hissued (by rw [hs, hsched, hcut])

/-! ### The table, reserved words and unlawful answers -/

/-- A head byte matches one row when its operation number is reserved or its reserved bits are 0, and no row
otherwise (30_encoding.md R75). -/
theorem stepRows_hits : ∀ h : Byte, (stepRows.filter fun r => r.hits h).length =
    if 12 ≤ (headOp h).toNat ∨ headRsv h = 0 then 1 else 0 := by decide

/-- Settles O1: the decoder evaluated on each word, and the rows on each of the 256 head bytes. -/
theorem stepWordsDecodeAsTheTableSays : Obligations.StepWordsDecodeAsTheTableSays :=
  ⟨rfl, by decide, rfl, by decide, rfl, rfl, rfl, rfl, rfl, by decide, stepRows_hits⟩

/-- A reserved operation number is read as a reserved operation of one byte (30_encoding.md R72). -/
theorem decodeStep_reserved (adcBits : Nat) {h : Byte} (rest : List Byte) (hop : 12 ≤ (headOp h).toNat) :
    ∃ i ∈ [Instr.reservedC (headLow h), .reservedD (headLow h), .reservedE (headLow h), .reservedF (headLow h)],
      decodeStep adcBits (h :: rest) = .ok (i, rest) := by
  have hlt : (headOp h).toNat < 16 := (headOp h).isLt
  have hcases : (headOp h).toNat = 12 ∨ (headOp h).toNat = 13 ∨ (headOp h).toNat = 14 ∨ (headOp h).toNat = 15 := by
    omega
  rcases hcases with hop | hop | hop | hop <;> simp [decodeStep, hop]

/-- Settles O8: each operation tests its reserved bits before anything else, and a reserved operation number only
rejects. -/
theorem reservedWordsChangeNothing : Obligations.ReservedWordsChangeNothing := by
  refine ⟨fun s adcBits h rest hop => ?_, fun s low => ⟨rfl, rfl, rfl, rfl⟩, fun s i hr => ?_⟩
  · obtain ⟨i, hmem, hd⟩ := decodeStep_reserved adcBits rest hop
    refine ⟨i, hd, ?_⟩
    simp only [List.mem_cons, List.not_mem_nil, or_false] at hmem
    rcases hmem with rfl | rfl | rfl | rfl <;> rfl
  · cases i with
    | enq t rsv f tag pkt =>
      have hcheck : checkEnq s.params rsv f pkt = some .badOperand := if_pos (.inl hr)
      simp only [exec, execEnq, hcheck, reject, answer]
    | tick | check | service | cancel | pwron | pwroff | brkon | brkoff | qpwr | qtrip | qcur => exact if_pos hr
    | reservedC | reservedD | reservedE | reservedF | frame2 | frame3 | frame4 | frame5 | frame6 => exact absurd rfl hr

/-- Settles O35: the tests of CHECK in their order. -/
theorem checkRefusesUnlawfulAnswers : Obligations.CheckRefusesUnlawfulAnswers := by
  intro s t now raw
  refine ⟨fun hraw => ?_, fun hraw hnow => ?_⟩
  · simp [exec, execCheck, hraw]
  · simp [exec, execCheck, hraw.not_ge, hnow]

/-! ### Which operations return a result -/

/-- Wherever the outcome goes on, it does so with a result (30_encoding.md R71). -/
def Reports (o : Out) : Prop := ∀ s', o = .next s' → s'.result ≠ none

theorem reports_finish {t : Track} {T : TrackUnit} {r : Result} {s : State} : Reports (finish t T (some r) s) := by
  intro s' h
  simp [finish_next_iff.1 h]

theorem reports_answer {r : Result} {s : State} : Reports (answer (some r) s) := by
  intro s' h
  simp [answer_next_iff.1 h]

theorem reports_ite {c : Prop} [Decidable c] {a b : Out} (ha : Reports a) (hb : Reports b) :
    Reports (if c then a else b) := by
  split
  · exact ha
  · exact hb

theorem reports_execEnq {t : Track} {rsv : BitVec 3} {f : EnqFlags} {tag : Byte} {q : Packet} {s : State} :
    Reports (execEnq t rsv f tag q s) := by
  unfold execEnq
  split
  · exact reports_answer
  · exact reports_ite reports_finish (reports_ite reports_answer reports_finish)

theorem serveTick_result {t : Track} {s s' : State} (h : serveTick t s = .next s') : s'.result = none := by
  obtain ⟨T, -, rfl⟩ := serveTick_next_iff.1 h
  exact finished_result ..

/-- A frame takes a TICK at least, and a TICK returns nothing. -/
theorem transmit_result {t : Track} {q : Packet} {s s' : State} (h : transmit t q s = .next s') : s'.result = none := by
  obtain ⟨-, -, hrun⟩ := transmit_next h
  obtain ⟨n, hn⟩ : ∃ n, frameTicks (s.unit t).cfg.preamble q.length = n + 1 := ⟨_, rfl⟩
  rw [hn] at hrun
  obtain ⟨s1, h1, hrest⟩ := runTicks_succ_next_iff.1 hrun
  exact runTicks_induct t (P := fun u => u.result = none) (fun _ _ _ => serveTick_result) n s1 s' (serveTick_result h1)
    hrest

/-- Settles O7: the status bytes by definition, and the result by the end of each operation. -/
theorem resultsHaveTheirStatusBytes : Obligations.ResultsHaveTheirStatusBytes := by
  refine ⟨rfl, rfl, rfl, fun _ => rfl, rfl, rfl, rfl, rfl, rfl, rfl, rfl, fun i s s' h => ?_⟩
  have hloud (hr : Reports (exec i s)) (hctx : instrContext i = .nonInterrupt)
      (hcheck : ∀ t rsv now raw, i ≠ .check t rsv now raw) (hservice : ∀ t rsv, i ≠ .service t rsv) :
      (s'.result = none ↔ instrContext i = .interrupt ∨ (∃ t rsv now raw, i = .check t rsv now raw) ∨
        ∃ t rsv, i = .service t rsv) := by
    simp [hr s' h, hctx, hcheck, hservice]
  cases i with
  | tick t rsv =>
    refine iff_of_true ?_ (.inl rfl)
    rcases execTick_next h with ⟨-, rfl⟩ | ⟨-, h⟩
    · rfl
    · exact serveTick_result h
  | check t rsv now raw =>
    refine iff_of_true ?_ (.inr (.inl ⟨t, rsv, now, raw, rfl⟩))
    rcases execCheck_next h with ⟨-, rfl⟩ | ⟨-, -, -, rfl⟩ <;> rfl
  | service t rsv =>
    refine iff_of_true ?_ (.inr (.inr ⟨t, rsv, rfl⟩))
    simp only [exec, execService] at h
    split at h
    · rw [answer_next_iff.1 h]
    · rw [finish_next_iff.1 h]
  | frame2 | frame3 | frame4 | frame5 | frame6 => exact iff_of_true (transmit_result h) (.inl rfl)
  | enq t rsv f tag q => exact hloud reports_execEnq rfl (by simp) (by simp)
  | cancel t rsv tag =>
    exact hloud (reports_ite reports_answer (reports_ite reports_finish reports_answer)) rfl (by simp)
      (by simp)
  | pwron | pwroff => exact hloud (reports_ite reports_answer reports_finish) rfl (by simp) (by simp)
  | brkon | brkoff =>
    exact hloud (reports_ite reports_answer (reports_ite reports_answer reports_finish)) rfl (by simp)
      (by simp)
  | qpwr | qtrip | qcur => exact hloud (reports_ite reports_answer reports_answer) rfl (by simp) (by simp)
  | reservedC | reservedD | reservedE | reservedF => exact hloud reports_answer rfl (by simp) (by simp)

end Sys2Proof.Machine
end

section
/-!
PROOFS. The wire format (30_encoding.md R60 to R67): where the fields of a frame stand, the halves of a run of bits, and
the receiver, which reads a stream of frames back; and the checksum (R64).
-/

namespace Sys2Proof.Machine

open Sys2Proof.Safety

/-! ### The fields of a frame -/

@[simp] theorem groupBits_nil (o : BitOrder) : groupBits o [] = [] := rfl

@[simp] theorem groupBits_cons (o : BitOrder) (b : Byte) (q : Packet) :
    groupBits o (b :: q) = false :: byteBits o b ++ groupBits o q := rfl

@[simp] theorem length_byteBits (o : BitOrder) (b : Byte) : (byteBits o b).length = 8 := rfl

@[simp] theorem length_groupBits (o : BitOrder) (q : Packet) : (groupBits o q).length = 9 * q.length := by
  induction q with
  | nil => rfl
  | cons b q ih =>
    simp only [groupBits_cons, List.length_append, List.length_cons, length_byteBits, ih]
    omega

/-- Bit `k` (1 to 8) of a byte in wire order. -/
theorem getElem?_byteBits (o : BitOrder) (b : Byte) {k : Nat} (h1 : 1 ≤ k) (h8 : k ≤ 8) :
    (byteBits o b)[k - 1]? = some (wireBit o b k) := by
  match k with
  | 1 | 2 | 3 | 4 | 5 | 6 | 7 | 8 => rfl

/-- Bit `k` of the group of byte `i`: the separator at 0, a bit of the byte after it (30_encoding.md R63). -/
theorem getElem?_groupBits (o : BitOrder) {q : Packet} {i : Nat} {b : Byte} (hb : q[i]? = some b) {k : Nat}
    (hk : k ≤ 8) : (groupBits o q)[9 * i + k]? = (false :: byteBits o b)[k]? := by
  induction q generalizing i with
  | nil => cases hb
  | cons c q ih =>
    rw [groupBits_cons]
    cases i with
    | zero =>
      obtain rfl : c = b := by simpa using hb
      rw [Nat.mul_zero, Nat.zero_add, List.getElem?_append_left (by simpa using Nat.lt_succ_of_le hk)]
    | succ i =>
      rw [List.getElem?_append_right (by simp; omega), ← ih hb]
      congr 1
      simp
      omega

theorem getElem?_frame_group (o : BitOrder) (n : Nat) {q : Packet} {j : Nat} (hj : j < 9 * q.length) :
    (frame o n q)[n + j]? = (groupBits o q)[j]? := by
  rw [frame, framePattern, List.getElem?_append_right (by simp), List.length_replicate, Nat.add_sub_cancel_left,
    List.getElem?_append_left (by simpa using hj)]

theorem length_frame (o : BitOrder) (n : Nat) (q : Packet) : (frame o n q).length = n + 9 * q.length + 1 := by
  simp [frame, framePattern, Nat.add_assoc]

/-! ### The halves of a run of bits -/

@[simp] theorem halvesOf_nil (q : BlockParams) : halvesOf q [] = [] := rfl

@[simp] theorem halvesOf_cons (q : BlockParams) (b : Bit) (bits : List Bit) :
    halvesOf q (b :: bits) = ⟨.high, halfPeriod q b⟩ :: ⟨.low, halfPeriod q b⟩ :: halvesOf q bits := rfl

@[simp] theorem halvesOf_append (q : BlockParams) (xs ys : List Bit) :
    halvesOf q (xs ++ ys) = halvesOf q xs ++ halvesOf q ys := List.flatMap_append

theorem length_halvesOf (q : BlockParams) (bits : List Bit) : (halvesOf q bits).length = 2 * bits.length := by
  induction bits with
  | nil => rfl
  | cons b bits ih =>
    simp only [halvesOf_cons, List.length_cons, ih]
    omega

theorem bitsOf_halvesOf {q : BlockParams} (h : q.halfOne < q.halfZero) (bits : List Bit) :
    bitsOf q.halfOne (halvesOf q bits) = some bits := by
  have hbit (b : Bit) : decide (halfPeriod q b = q.halfOne) = b := by
    cases b
    · exact decide_eq_false h.ne'
    · exact decide_eq_true rfl
  induction bits with
  | nil => rfl
  | cons b bits ih => simp [bitsOf, ih, hbit]

/-- Settles O11: each pair of halves tells its bit by its duration. -/
theorem halvesOfBitsPairBackIntoTheBits : Obligations.HalvesOfBitsPairBackIntoTheBits :=
  fun p bits h => ⟨bitsOf_halvesOf h bits, length_halvesOf p bits⟩

/-- Settles O9: the preamble, the groups of nine bits and the packet-end bit, one after another. -/
theorem frameFieldsStandAtTheirPositions : Obligations.FrameFieldsStandAtTheirPositions := by
  intro o n p
  refine ⟨length_frame o n p, fun q => by rw [length_halvesOf, length_frame], fun i hi => ?_, fun i hi => ?_,
    fun i b hb k h1 h8 => ?_, ?_⟩
  · rw [frame, List.getElem?_append_left (by simpa using hi), List.getElem?_replicate, if_pos hi]
  · rw [getElem?_frame_group o n (by omega)]
    exact getElem?_groupBits o (List.getElem?_eq_getElem hi) (Nat.zero_le 8)
  · have hi : i < p.length := (List.getElem?_eq_some_iff.1 hb).1
    rw [Nat.add_assoc, getElem?_frame_group o n (by omega), getElem?_groupBits o hb h8, List.getElem?_cons,
      if_neg (by omega), getElem?_byteBits o b h1 h8]
    rfl
  · simp [frame, framePattern]

/-! ### The receiver -/

theorem scanBits_append {o : BitOrder} {n : Nat} {s s1 : Scan} {xs : List Bit} (h : scanBits o n s xs = some s1)
    (ys : List Bit) : scanBits o n s (xs ++ ys) = scanBits o n s1 ys := by
  induction xs generalizing s with
  | nil => cases h; rfl
  | cons b xs ih =>
    obtain ⟨s2, h2, hrest⟩ := Option.bind_eq_some_iff.1 h
    rw [List.cons_append, scanBits, h2]
    exact ih hrest

/-- Outside a frame a receiver counts 1 bits. -/
theorem scanBits_ones (o : BitOrder) (n c : Nat) (out : List Packet) (m : Nat) :
    scanBits o n ⟨.ones c, out⟩ (List.replicate m true) = some ⟨.ones (c + m), out⟩ := by
  induction m generalizing c with
  | zero => rfl
  | succ m ih =>
    rw [List.replicate_succ, scanBits, Nat.add_comm m 1, ← Nat.add_assoc]
    exact ih (c + 1)

/-- Inside a frame a receiver collects the eight bits of a byte. -/
theorem scanBits_byteBits (o : BitOrder) (n : Nat) (done : List Byte) (out : List Packet) (b : Byte) :
    scanBits o n ⟨.group done [], out⟩ (byteBits o b) = some ⟨.group done (byteBits o b), out⟩ := rfl

/-- From the last bit of a byte to the packet-end bit: the groups that follow are read and the packet is output. -/
theorem scanBits_groups (o : BitOrder) (n : Nat) (done : List Byte) (out : List Packet) (b : Byte) (q : List Byte) :
    scanBits o n ⟨.group done (byteBits o b), out⟩ (groupBits o q ++ [true]) =
      some ⟨.ones 1, out ++ [done ++ b :: q]⟩ := by
  induction q generalizing done b with
  | nil => simp [scanBits, scanBit, byteOf_byteBits]
  | cons c q ih =>
    have hsep : scanBits o n ⟨.group done (byteBits o b), out⟩ [false] = some ⟨.group (done ++ [b]) [], out⟩ := by
      simp [scanBits, scanBit, byteOf_byteBits]
    rw [groupBits_cons, List.cons_append, List.cons_append, ← List.singleton_append, scanBits_append hsep,
      List.append_assoc, scanBits_append (scanBits_byteBits o n (done ++ [b]) out c), ih]
    simp

/-- A frame, after any count of 1 bits, is read as its packet; its packet-end bit is the first 1 of the next count. -/
theorem scanBits_frame (o : BitOrder) (n c : Nat) (out : List Packet) {q : Packet} (hq : q ≠ []) :
    scanBits o n ⟨.ones c, out⟩ (frame o n q) = some ⟨.ones 1, out ++ [q]⟩ := by
  obtain ⟨b, q, rfl⟩ := List.exists_cons_of_ne_nil hq
  have hstart : scanBits o n ⟨.ones (c + n), out⟩ [false] = some ⟨.group [] [], out⟩ := by
    simp [scanBits, scanBit]
  rw [frame, scanBits_append (scanBits_ones o n c out n), framePattern, groupBits_cons, List.cons_append,
    List.cons_append, ← List.singleton_append, scanBits_append hstart, List.append_assoc,
    scanBits_append (scanBits_byteBits o n [] out b), scanBits_groups]
  rfl

/-- A stream of frames, with 1 bits before each, is read as its packets. -/
theorem scanBits_frames (o : BitOrder) (n c : Nat) (out : List Packet) {frames : List (Nat × Packet)}
    (h : ∀ f ∈ frames, f.2 ≠ []) :
    ∃ c', scanBits o n ⟨.ones c, out⟩ (frames.flatMap fun f => List.replicate f.1 true ++ frame o n f.2) =
      some ⟨.ones c', out ++ frames.map Prod.snd⟩ := by
  induction frames generalizing c out with
  | nil => exact ⟨c, by simp [scanBits]⟩
  | cons f frames ih =>
    obtain ⟨hf, hrest⟩ := List.forall_mem_cons.1 h
    obtain ⟨c', hc⟩ := ih 1 (out ++ [f.2]) hrest
    refine ⟨c', ?_⟩
    rw [List.flatMap_cons, List.append_assoc, scanBits_append (scanBits_ones o n c out f.1),
      scanBits_append (scanBits_frame o n (c + f.1) out hf), hc, List.append_assoc]
    rfl

/-- Settles O10: frame by frame, and the 1 bits after the last frame output nothing. -/
theorem aStreamOfFramesDecodesToItsPackets : Obligations.AStreamOfFramesDecodesToItsPackets := by
  intro o n frames tail h
  obtain ⟨c, hc⟩ := scanBits_frames o n 0 [] h
  rw [framesOf, Scan.start, scanBits_append hc, scanBits_ones]
  rfl

/-! ### The checksum -/

theorem checksum_append (xs ys : List Byte) : checksum (xs ++ ys) = checksum xs ^^^ checksum ys := by
  induction xs with
  | nil => simp [checksum]
  | cons b xs ih => simp [checksum, ih, BitVec.xor_assoc]

theorem checksum_concat (bs : List Byte) (b : Byte) : checksum (bs ++ [b]) = checksum bs ^^^ b := by
  simp [checksum_append, checksum]

theorem valid_concat_iff (maxLen : Nat) (p : Packet) (b : Byte) :
    valid maxLen (p ++ [b]) = true ↔ 2 ≤ p.length + 1 ∧ p.length + 1 ≤ maxLen ∧ b = checksum p := by
  simp [valid_iff]

/-- Settles O13: the last byte is the checksum of those before it exactly when it cancels them. -/
theorem validMeansTheBytesXorToZero : Obligations.ValidMeansTheBytesXorToZero := by
  refine ⟨fun maxLen p => ?_, valid_concat_iff, rfl, checksum_concat, by decide⟩
  rcases List.eq_nil_or_concat p with rfl | ⟨q, b, rfl⟩
  · simp [valid_iff]
  · have hcancel : checksum q ^^^ b = 0 ↔ b = checksum q := BitVec.xor_eq_zero_iff.trans eq_comm
    rw [List.concat_eq_append, valid_concat_iff, checksum_concat, List.length_append, List.length_singleton, hcancel]

end Sys2Proof.Machine
end

section
/-!
PROOFS. Whole bits on the wire (40_encoder.md R80, R82 to R88, R92, R94): the two TICKs of a bit, the bits that the
position spells inside a frame, and with them the idle stream and the frame of a packet.
-/

namespace Sys2Proof.Machine

open Sys2Proof.Safety

/-! ### The two TICKs of a bit -/

/-- A unit after the two halves of a bit have been put on the wire, whatever its position. -/
def bitSent (p : BlockParams) (T : TrackUnit) (b : Bit) : TrackUnit :=
  { T with
    pins := { T.pins with
      sigA := .low
      sigB := if T.cfg.scheme = .dualInverted then some .high else T.pins.sigB }
    compare := halfPeriod p b
    pending := false
    wire := T.wire ++ halvesOf p [b] }

/-- A unit after the halves of a run of bits have been put on the wire. -/
def bitsSent (p : BlockParams) (T : TrackUnit) (bits : List Bit) : TrackUnit := bits.foldl (bitSent p) T

@[simp] theorem bitsSent_nil (p : BlockParams) (T : TrackUnit) : bitsSent p T [] = T := rfl

@[simp] theorem bitsSent_cons (p : BlockParams) (T : TrackUnit) (b : Bit) (bits : List Bit) :
    bitsSent p T (b :: bits) = bitsSent p (bitSent p T b) bits := rfl

/-- A run of bits leaves the pins and the compare register as its last bit does, and adds all its halves. -/
theorem bitsSent_concat (p : BlockParams) (T : TrackUnit) (bits : List Bit) (b : Bit) :
    bitsSent p T (bits ++ [b]) = { bitSent p T b with wire := T.wire ++ halvesOf p (bits ++ [b]) } := by
  induction bits generalizing T with
  | nil => rfl
  | cons c bits ih =>
    rw [List.cons_append, bitsSent_cons, ih]
    by_cases hd : T.cfg.scheme = .dualInverted <;> simp [bitSent, hd]

/-- Two calls of `emit` at one duration, the second half after the first, are a whole bit. -/
theorem emit_emit (p : BlockParams) (T : TrackUnit) (e : Encoder) (b : Bit) :
    emit { interruptEntry (emit T .high (halfPeriod p b)) with enc := e } .low (halfPeriod p b) =
      { bitSent p T b with enc := e } := by
  rcases hs : T.cfg.scheme <;> simp [emit, bitSent, interruptEntry, sigBAfter, complement, hs]

/-- The next bit, moved to and put on the wire: two half-transitions take a unit from the second half of a bit to the
second half of the next. -/
theorem halfSteps_of_nextBit {p : BlockParams} {T : TrackUnit} {b : Bit} (hon : T.timerOn = true)
    (hhalf : T.enc.half = .second) (hb : curBit p.bitOrder (nextBit p (interruptEntry T)).enc = some b) :
    ∃ U, HalfStep p T U ∧ HalfStep p U { bitSent p (nextBit p (interruptEntry T)) b with
      enc := { (nextBit p (interruptEntry T)).enc with half := .second } } := by
  have hon' : (nextBit p (interruptEntry T)).timerOn = true :=
    (nextBit_tickFrame p (interruptEntry T)).timerOn.trans hon
  refine ⟨_, ⟨hon, (halfTransition_some_iff ..).2 (.inr ⟨hhalf, b, hb, rfl⟩)⟩, hon',
    (halfTransition_some_iff ..).2 (.inl ⟨rfl, b, hb, ?_⟩)⟩
  exact (emit_emit p { nextBit p (interruptEntry T) with enc := _ } _ b).symm

theorem withSecondHalf {e : Encoder} (h : e.half = .second) : { e with half := .second } = e := by
  rw [← h]

/-- The two TICKs of a bit, from the end of the bit before it. -/
theorem runTicks_bit {t : Track} {s : State} {U : TrackUnit} {b : Bit} (hon : (s.unit t).timerOn = true)
    (hhalf : (s.unit t).enc.half = .second) (hnext : nextBit s.params (interruptEntry (s.unit t)) = U)
    (hsecond : U.enc.half = .second) (hb : curBit s.params.bitOrder U.enc = some b) :
    runTicks 2 t s = .next (finished t (bitSent s.params U b) none s) := by
  subst hnext
  obtain ⟨V, h1, h2⟩ := halfSteps_of_nextBit hon hhalf hb
  rw [withSecondHalf hsecond] at h2
  refine runTicks_succ_next_iff.2 ⟨_, serveTick_next_iff.2 ⟨V, h1, rfl⟩, runTicks_succ_next_iff.2 ⟨_,
    serveTick_next_iff.2 ⟨_, by simpa using h2, rfl⟩, ?_⟩⟩
  rw [finished_finished]
  rfl

/-! ### The bits that a position spells -/

theorem bitSent_tickFrame (p : BlockParams) (T : TrackUnit) (b : Bit) : TickFrame T (bitSent p T b) :=
  ⟨rfl, rfl, rfl, rfl, rfl, fun hs => if_neg hs, rfl, .inl rfl⟩

theorem bitsSent_tickFrame (p : BlockParams) (T : TrackUnit) (bits : List Bit) : TickFrame T (bitsSent p T bits) := by
  induction bits generalizing T with
  | nil => exact .refl T
  | cons b bits ih => exact (bitSent_tickFrame p T b).trans (ih _)

theorem bitsSent_wire (p : BlockParams) (T : TrackUnit) (bits : List Bit) :
    (bitsSent p T bits).wire = T.wire ++ halvesOf p bits := by
  induction bits generalizing T with
  | nil => simp
  | cons b bits ih =>
    rw [bitsSent_cons, ih]
    simp [bitSent]

theorem bitsSent_withEnc (p : BlockParams) (T : TrackUnit) (e : Encoder) (bits : List Bit) :
    bitsSent p { T with enc := e } bits = { bitsSent p T bits with enc := e } := by
  induction bits generalizing T with
  | nil => rfl
  | cons b bits ih => exact ih (bitSent p T b)

theorem bitsSent_append (p : BlockParams) (T : TrackUnit) (xs ys : List Bit) :
    bitsSent p T (xs ++ ys) = bitsSent p (bitsSent p T xs) ys := List.foldl_append

/-- The result after the TICKs of a run of bits: a TICK returns nothing. -/
def resultAfter (r : Option Result) : List Bit → Option Result
  | [] => r
  | _ :: _ => none

@[simp] theorem resultAfter_none (bits : List Bit) : resultAfter none bits = none := by
  cases bits <;> rfl

theorem resultAfter_append (r : Option Result) (xs ys : List Bit) :
    resultAfter r (xs ++ ys) = resultAfter (resultAfter r xs) ys := by
  cases xs <;> cases ys <;> rfl

/-- The unit of track `t` stands at position `e` with a free slot, its interrupt enabled and a preamble of `n` bits. -/
structure StandsAt (t : Track) (n : Nat) (e : Encoder) (s : State) : Prop where
  timerOn  : (s.unit t).timerOn = true
  slot     : (s.unit t).slot = none
  preamble : (s.unit t).cfg.preamble = n
  enc      : (s.unit t).enc = e

/-- The state with the halves of a run of bits on the wire of track `t` and its position at `e`. -/
def spelt (t : Track) (bits : List Bit) (e : Encoder) (s : State) : State :=
  finished t { bitsSent s.params (s.unit t) bits with enc := e } (resultAfter s.result bits) s

theorem StandsAt.spelt {t : Track} {n : Nat} {e e' : Encoder} {s : State} (h : StandsAt t n e s) (bits : List Bit) :
    StandsAt t n e' (spelt t bits e' s) := by
  have hf := bitsSent_tickFrame s.params (s.unit t) bits
  constructor <;> rw [Machine.spelt, finished_unit]
  · exact hf.timerOn.trans h.timerOn
  · exact hf.slot.elim (fun hs => hs.trans h.slot) id
  · rw [hf.cfg]; exact h.preamble

theorem spelt_nil {t : Track} {n : Nat} {e : Encoder} {s : State} (h : StandsAt t n e s) : spelt t [] e s = s := by
  obtain ⟨-, -, -, rfl⟩ := h
  cases t <;> rfl

theorem spelt_spelt (t : Track) (xs ys : List Bit) (e e' : Encoder) (s : State) :
    spelt t ys e' (spelt t xs e s) = spelt t (xs ++ ys) e' s := by
  rw [spelt, spelt, finished_params, finished_unit, finished_result, finished_finished, bitsSent_withEnc,
    ← bitsSent_append, ← resultAfter_append, spelt]

/-- From position `e` the encoder puts the bits on the wire and comes to position `e'`, with a free slot, in a unit
whose preamble has `n` bits. -/
def Spells (p : BlockParams) (n : Nat) (e : Encoder) (bits : List Bit) (e' : Encoder) : Prop :=
  ∀ (t : Track) (s : State), s.params = p → StandsAt t n e s →
    runTicks (2 * bits.length) t s = .next (spelt t bits e' s)

theorem Spells.nil {p : BlockParams} {n : Nat} {e : Encoder} : Spells p n e [] e :=
  fun _ _ _ h => congrArg Host.Outcome.next (spelt_nil h).symm

theorem Spells.append {p : BlockParams} {n : Nat} {e e1 e2 : Encoder} {xs ys : List Bit} (h : Spells p n e xs e1)
    (k : Spells p n e1 ys e2) : Spells p n e (xs ++ ys) e2 := by
  intro t s hp hs
  rw [List.length_append, Nat.mul_add, runTicks_add _ _ _ _ _ (h t s hp hs), k t _ (by simpa [spelt]) (hs.spelt xs),
    spelt_spelt]

theorem Spells.cons {p : BlockParams} {n : Nat} {e e1 e2 : Encoder} {b : Bit} {bits : List Bit}
    (h : Spells p n e [b] e1) (k : Spells p n e1 bits e2) : Spells p n e (b :: bits) e2 := h.append k

/-- One bit, from what the encoder's next bit is. -/
theorem spells_one {p : BlockParams} {n : Nat} {e e' : Encoder} {b : Bit} (hhalf : e.half = .second)
    (hhalf' : e'.half = .second) (hb : curBit p.bitOrder e' = some b)
    (hnext : ∀ T : TrackUnit, T.slot = none → T.cfg.preamble = n → T.enc = e → nextBit p T = { T with enc := e' }) :
    Spells p n e [b] e' := by
  rintro t s rfl ⟨hon, hslot, hpre, rfl⟩
  exact runTicks_bit hon hhalf (hnext (interruptEntry (s.unit t)) hslot hpre rfl) hhalf' hb

/-! ### The positions of a frame -/

/-- The end of an idle bit. -/
def idlePos : Encoder := ⟨.idle, .second, 0, 0, 0, []⟩

/-- The end of preamble bit `k` of the frame of a packet. -/
def preamblePos (q : Packet) (k : Nat) : Encoder := ⟨.preamble, .second, k, 0, 0, q⟩

/-- The end of bit `k` of the group of byte `i`. -/
def groupPos (q : Packet) (i k : Nat) : Encoder :=
  ⟨if i + 1 = q.length then .checksum else .data, .second, 0, i, k, q⟩

/-- The end of the packet-end bit. -/
def endPos (q : Packet) : Encoder := ⟨.ending, .second, 0, 0, 0, q⟩

theorem groupPos_sub (q : Packet) (i k : Nat) : (groupPos q i k).sub = .data ∨ (groupPos q i k).sub = .checksum := by
  unfold groupPos
  split
  · exact .inr rfl
  · exact .inl rfl

theorem spells_idle (p : BlockParams) (n m : Nat) : Spells p n idlePos (List.replicate m true) idlePos := by
  have hbit : Spells p n idlePos [true] idlePos := by
    refine spells_one rfl rfl rfl fun T hslot _ henc => ?_
    obtain ⟨cfg, enc, slot, ring, sup, pins, compare, timerOn, pending, wire⟩ := T
    cases hslot
    cases henc
    rfl
  induction m with
  | zero => exact .nil
  | succ m ih => exact hbit.cons ih

theorem spells_preamble (p : BlockParams) {n : Nat} (q : Packet) {k m : Nat} (h : k + m = n) :
    Spells p n (preamblePos q k) (List.replicate m true) (preamblePos q n) := by
  induction m generalizing k with
  | zero => obtain rfl : k = n := h; exact .nil
  | succ m ih =>
    refine Spells.cons (e1 := preamblePos q (k + 1)) (spells_one rfl rfl rfl fun T _ hpre henc => ?_) (ih (by omega))
    rw [nextBit_preamble (by rw [henc]; rfl), nextFromPreamble, henc, hpre]
    exact if_pos (show k < n by omega)

/-- After the last preamble bit comes the start bit of byte 0. -/
theorem spells_start (p : BlockParams) (n : Nat) {q : Packet} (hq : 2 ≤ q.length) :
    Spells p n (preamblePos q n) [false] (groupPos q 0 0) := by
  have hpos : groupPos q 0 0 = ⟨.data, .second, 0, 0, 0, q⟩ := by
    rw [groupPos, if_neg (by omega)]
  refine spells_one rfl rfl ?_ fun T _ hpre henc => ?_
  · rw [curBit_group (groupPos_sub q 0 0)]
    rfl
  · rw [nextBit_preamble (by rw [henc]; rfl), nextFromPreamble, henc, hpre, hpos]
    exact if_neg (Nat.lt_irrefl n)

/-- Within a byte group comes the next bit of the byte. -/
theorem spells_bit (p : BlockParams) (n : Nat) {q : Packet} {i k : Nat} {b : Byte} (hb : q[i]? = some b) (hk : k < 8) :
    Spells p n (groupPos q i k) [wireBit p.bitOrder b (k + 1)] (groupPos q i (k + 1)) := by
  refine spells_one rfl rfl ?_ fun T _ _ henc => ?_
  · rw [curBit_group (groupPos_sub q i (k + 1))]
    simp [groupPos, hb, hk]
  · rw [nextBit_group (by rw [henc]; exact groupPos_sub q i k), nextFromGroup, henc]
    exact if_pos hk

theorem spells_byte (p : BlockParams) (n : Nat) {q : Packet} {i : Nat} {b : Byte} (hb : q[i]? = some b) :
    Spells p n (groupPos q i 0) (byteBits p.bitOrder b) (groupPos q i 8) :=
  have bit {k : Nat} (hk : k < 8) := spells_bit p n hb hk
  (bit (k := 0) (by decide)).cons <| (bit (k := 1) (by decide)).cons <| (bit (k := 2) (by decide)).cons <|
    (bit (k := 3) (by decide)).cons <| (bit (k := 4) (by decide)).cons <| (bit (k := 5) (by decide)).cons <|
    (bit (k := 6) (by decide)).cons <| bit (k := 7) (by decide)

/-- After a byte that is not the last comes the separator before the next. -/
theorem spells_separator (p : BlockParams) (n : Nat) {q : Packet} {i : Nat} (hi : i + 1 < q.length) :
    Spells p n (groupPos q i 8) [false] (groupPos q (i + 1) 0) := by
  refine spells_one rfl rfl ?_ fun T _ _ henc => ?_
  · rw [curBit_group (groupPos_sub q (i + 1) 0)]
    rfl
  · have hlast : i + 1 = q.length - 1 ↔ i + 1 + 1 = q.length := by omega
    rw [nextBit_group (by rw [henc]; exact groupPos_sub q i 8), nextFromGroup, henc]
    simp [groupPos, hlast, show i < q.length - 1 by omega]

/-- After the last byte comes the packet-end bit. -/
theorem spells_end (p : BlockParams) (n : Nat) {q : Packet} {i : Nat} (hi : i + 1 = q.length) :
    Spells p n (groupPos q i 8) [true] (endPos q) := by
  refine spells_one rfl rfl rfl fun T _ _ henc => ?_
  rw [nextBit_group (by rw [henc]; exact groupPos_sub q i 8), nextFromGroup, henc]
  simp [groupPos, endPos, show ¬ i < q.length - 1 by omega]

/-- From the end of byte `i`: the groups of the bytes after it and the packet-end bit. -/
theorem spells_groups (p : BlockParams) (n : Nat) {q rest : Packet} {i : Nat} (hi : i < q.length)
    (hrest : q.drop (i + 1) = rest) :
    Spells p n (groupPos q i 8) (groupBits p.bitOrder rest ++ [true]) (endPos q) := by
  induction rest generalizing i with
  | nil =>
    have hlen : q.length ≤ i + 1 := List.drop_eq_nil_iff.1 hrest
    exact spells_end p n (by omega)
  | cons b rest ih =>
    have hb : q[i + 1]? = some b := by rw [← List.head?_drop, hrest]; rfl
    have hi' : i + 1 < q.length := (List.getElem?_eq_some_iff.1 hb).1
    have hrest' : q.drop (i + 1 + 1) = rest := by rw [← List.tail_drop, hrest]; rfl
    rw [groupBits_cons, List.cons_append, List.cons_append, List.append_assoc]
    exact (spells_separator p n hi').cons ((spells_byte p n hb).append (ih hi' hrest'))

/-- The bits of a frame after its first. -/
def frameTail (o : BitOrder) (n : Nat) (q : Packet) : List Bit := List.replicate (n - 1) true ++ framePattern o q

theorem frame_eq_cons (o : BitOrder) {n : Nat} (q : Packet) (hn : 1 ≤ n) : frame o n q = true :: frameTail o n q := by
  obtain ⟨n, rfl⟩ := Nat.exists_eq_add_of_le' hn
  rfl

/-- From the first preamble bit to the packet-end bit. -/
theorem spells_frame (p : BlockParams) {n : Nat} {q : Packet} (hq : 2 ≤ q.length) (hn : 1 ≤ n) :
    Spells p n (preamblePos q 1) (frameTail p.bitOrder n q) (endPos q) := by
  obtain ⟨b, rest, rfl⟩ := List.exists_cons_of_length_pos (l := q) (by omega)
  rw [frameTail, framePattern, groupBits_cons, List.cons_append, List.cons_append, List.append_assoc]
  exact (spells_preamble p _ (by omega)).append ((spells_start p n hq).cons
    ((spells_byte p n rfl).append (spells_groups p n (by simp) rfl)))

/-! ### The idle stream and the frame -/

/-- Settles O23: from the idle position each bit is a 1 bit and comes back to it. -/
theorem anEmptySlotGivesAnUnbrokenIdleStream : Obligations.AnEmptySlotGivesAnUnbrokenIdleStream := by
  intro s t n hon hhalf hsub hslot hpre hbyte hbit hpkt
  have henc : (s.unit t).enc = idlePos := by
    cases he : (s.unit t).enc
    simp_all [idlePos]
  have hrun := spells_idle s.params _ n t s rfl ⟨hon, hslot, rfl, henc⟩
  rw [List.length_replicate] at hrun
  refine ⟨_, hrun, ?_⟩
  rw [spelt, finished_unit]
  exact ⟨henc.symm, (bitsSent_tickFrame ..).slot.elim (fun hs => hs.trans hslot) id, bitsSent_wire ..⟩

/-- At the end of an idle or packet-end bit the first bit of the frame in the slot is next. -/
theorem nextBit_of_slot {p : BlockParams} {T : TrackUnit} {q : Packet} (hhalf : T.enc.half = .second)
    (hsub : T.enc.sub = .idle ∨ T.enc.sub = .ending) (hslot : T.slot = some q)
    (hv : valid p.maxPacketBytes q = true) : nextBit p T = { T with slot := none, enc := preamblePos q 1 } := by
  obtain ⟨r, hnext⟩ := nextBit_asks (p := p) hsub
  rw [hnext]
  rcases fetchPacket_cases p { T with enc := { T.enc with pkt := r } } with ⟨q', hq', -, hload⟩ | ⟨hbad, -⟩
  · obtain rfl : q = q' := Option.some_inj.1 (hslot.symm.trans hq')
    rw [hload, preamblePos, ← hhalf]
  · exact absurd hv (by simp [hbad q hslot])

theorem length_frameTail (o : BitOrder) {n : Nat} (q : Packet) (hn : 1 ≤ n) :
    (frameTail o n q).length = n + 9 * q.length := by
  have hlen := length_frame o n q
  rw [frame_eq_cons o q hn, List.length_cons] at hlen
  exact Nat.succ.inj hlen

/-- A frame leaves the pins and the compare register as its packet-end bit does. -/
theorem bitsSent_frame (p : BlockParams) (T : TrackUnit) (n : Nat) (q : Packet) :
    bitsSent p T (frame p.bitOrder n q) =
      { bitSent p T true with wire := T.wire ++ halvesOf p (frame p.bitOrder n q) } := by
  have hlast : frame p.bitOrder n q = (List.replicate n true ++ groupBits p.bitOrder q) ++ [true] :=
    (List.append_assoc ..).symm
  rw [hlast, bitsSent_concat]

/-- A unit that has taken the packet of its slot and starts the first bit of its frame. -/
def loaded (q : Packet) (T : TrackUnit) : TrackUnit :=
  { interruptEntry T with slot := none, enc := preamblePos q 1 }

/-- The TICKs of a frame: the slot is freed with its first bit, and all its bits go on the wire. -/
theorem runTicks_frame {t : Track} {s : State} {q : Packet} (hon : (s.unit t).timerOn = true)
    (hhalf : (s.unit t).enc.half = .second) (hsub : (s.unit t).enc.sub = .idle ∨ (s.unit t).enc.sub = .ending)
    (hslot : (s.unit t).slot = some q) (hv : valid s.params.maxPacketBytes q = true)
    (hn : 1 ≤ (s.unit t).cfg.preamble) :
    runTicks (2 * ((s.unit t).cfg.preamble + 9 * q.length + 1)) t s =
      .next (finished t { bitsSent s.params (loaded q (s.unit t))
        (frame s.params.bitOrder (s.unit t).cfg.preamble q) with enc := endPos q } none s) := by
  have hnext : nextBit s.params (interruptEntry (s.unit t)) = loaded q (s.unit t) := nextBit_of_slot hhalf hsub hslot hv
  have hfirst := runTicks_bit hon hhalf hnext rfl rfl
  have hstands : StandsAt t (s.unit t).cfg.preamble (preamblePos q 1)
      (finished t (bitSent s.params (loaded q (s.unit t)) true) none s) := by
    constructor <;> rw [finished_unit]
    · exact hon
    all_goals rfl
  have hrest := spells_frame s.params (two_le_length_of_valid hv) hn t _ (finished_params ..) hstands
  have hcount : 2 * ((s.unit t).cfg.preamble + 9 * q.length + 1) =
      2 + 2 * (frameTail s.params.bitOrder (s.unit t).cfg.preamble q).length := by
    rw [length_frameTail _ _ hn]
    omega
  rw [hcount, runTicks_add _ _ _ _ _ hfirst, hrest, frame_eq_cons _ q hn, bitsSent_cons, spelt, finished_params,
    finished_unit, finished_result, finished_finished, resultAfter_none]

theorem exec_frameInstr {t : Track} {q : Packet} {i : Instr} (h : frameInstr t q = some i) (s : State) :
    exec i s = transmit t q s := by
  unfold frameInstr at h
  split at h <;> cases h <;> rfl

/-- Settles O24: the encoder asks for a packet, loads it with the first preamble bit, and from there spells the rest of
its frame; the FRAME row runs the same TICKs. -/
theorem aFrameRowEmitsExactlyItsFrame : Obligations.AFrameRowEmitsExactlyItsFrame := by
  intro s t q hon hhalf hsub hslot hv hn sent
  have hrun : runTicks (2 * ((s.unit t).cfg.preamble + 9 * q.length + 1)) t s = .next sent := by
    rw [runTicks_frame hon hhalf hsub hslot hv hn, bitsSent_frame]
    rfl
  refine ⟨hrun, fun i hi => ?_⟩
  have hnext : sendsNext s.params q (s.unit t) = true := (sendsNext_iff ..).2 ⟨hhalf, hsub, hslot, hv⟩
  rw [exec_frameInstr hi, transmit, if_neg (by simp [hon]), if_pos hnext]
  exact hrun

end Sys2Proof.Machine
end

section
/-!
PROOFS. The next position (40_encoder.md R83, R87), and with it the ghost trace (10_state.md R31; 30_encoding.md R66;
40_encoder.md R92). Each bit the encoder moves to takes a receiver that stands where the position is to where the next
position is, and makes it output the packet in flight exactly when the packet-end bit starts (`readsTo_nextBit`); so one
half-transition keeps the receiver in phase.
-/

namespace Sys2Proof.Machine

open Sys2Proof.Safety

/-! ### The next position -/

theorem nextFromPreamble_of_lt {T : TrackUnit} (h : T.enc.pre < T.cfg.preamble) :
    nextFromPreamble T = { T with enc := { T.enc with pre := T.enc.pre + 1 } } := if_pos h

theorem nextFromPreamble_of_le {T : TrackUnit} (h : T.cfg.preamble ≤ T.enc.pre) :
    nextFromPreamble T = { T with enc := { T.enc with sub := .data, pre := 0, byteIdx := 0, bitPos := 0 } } :=
  if_neg h.not_gt

theorem nextFromGroup_bit {T : TrackUnit} (h : T.enc.bitPos < 8) :
    nextFromGroup T = { T with enc := { T.enc with bitPos := T.enc.bitPos + 1 } } := if_pos h

theorem nextFromGroup_separator {T : TrackUnit} (h8 : 8 ≤ T.enc.bitPos) (h : T.enc.byteIdx + 1 < T.enc.pkt.length) :
    nextFromGroup T = { T with enc := { T.enc with
      sub := if T.enc.byteIdx + 2 = T.enc.pkt.length then .checksum else .data
      byteIdx := T.enc.byteIdx + 1
      bitPos := 0 } } := by
  have hlast : T.enc.byteIdx + 1 = T.enc.pkt.length - 1 ↔ T.enc.byteIdx + 2 = T.enc.pkt.length := by omega
  rw [nextFromGroup, if_neg h8.not_gt, if_pos (show T.enc.byteIdx < T.enc.pkt.length - 1 by omega)]
  simp only [hlast]

theorem nextFromGroup_end {T : TrackUnit} (h8 : 8 ≤ T.enc.bitPos) (h : T.enc.pkt.length ≤ T.enc.byteIdx + 1) :
    nextFromGroup T = { T with enc := { T.enc with sub := .ending, byteIdx := 0, bitPos := 0 } } := by
  rw [nextFromGroup, if_neg h8.not_gt, if_neg (show ¬ T.enc.byteIdx < T.enc.pkt.length - 1 by omega)]

theorem curBit_preamble {o : BitOrder} {e : Encoder} (h : e.sub = .preamble) : curBit o e = some true := by
  simp only [curBit, h]

/-- A bit of a byte, by the position before it. -/
theorem curBit_bit {o : BitOrder} {e : Encoder} {x : Byte} (hs : e.sub = .data ∨ e.sub = .checksum)
    (hx : e.pkt[e.byteIdx]? = some x) (hk : e.bitPos < 8) :
    curBit o { e with bitPos := e.bitPos + 1 } = some (wireBit o x (e.bitPos + 1)) := by
  rw [curBit_group (e := { e with bitPos := e.bitPos + 1 }) hs]
  simp [hx, hk]

/-- The 0 bit before a byte. -/
theorem curBit_separator {o : BitOrder} {e : Encoder} (hs : e.sub = .data ∨ e.sub = .checksum) (h0 : e.bitPos = 0) :
    curBit o e = some false := by
  rw [curBit_group hs, if_pos h0]

/-! ### A receiver reads one bit -/

theorem scanBit_one (o : BitOrder) (n c : Nat) (out : List Packet) :
    scanBit o n ⟨.ones c, out⟩ true = some ⟨.ones (c + 1), out⟩ := rfl

theorem scanBit_start (o : BitOrder) {n c : Nat} (h : n ≤ c) (out : List Packet) :
    scanBit o n ⟨.ones c, out⟩ false = some ⟨.group [] [], out⟩ := by
  simp [scanBit, h]

/-- Inside a byte the bit is collected. -/
theorem scanBit_byte (o : BitOrder) (n : Nat) (done : List Byte) (b : Byte) {k : Nat} (hk : k < 8)
    (out : List Packet) :
    scanBit o n ⟨.group done ((byteBits o b).take k), out⟩ (wireBit o b (k + 1)) =
      some ⟨.group done ((byteBits o b).take (k + 1)), out⟩ := by
  have htake : (byteBits o b).take (k + 1) = (byteBits o b).take k ++ [wireBit o b (k + 1)] := by
    have hbit := getElem?_byteBits o b (k := k + 1) (by omega) hk
    rw [List.take_add_one, ← Nat.add_sub_cancel k 1, hbit, Nat.add_sub_cancel]
    rfl
  have hlen : ((byteBits o b).take k).length < 8 := by rw [List.length_take]; omega
  rw [htake]
  exact if_pos hlen

/-- After a byte a 0 bit starts the next one. -/
theorem scanBit_separator (o : BitOrder) (n : Nat) (done : List Byte) (b : Byte) (out : List Packet) :
    scanBit o n ⟨.group done (byteBits o b), out⟩ false = some ⟨.group (done ++ [b]) [], out⟩ := by
  simp [scanBit, byteOf_byteBits]

/-- After a byte a 1 bit ends the packet. -/
theorem scanBit_end (o : BitOrder) (n : Nat) (done : List Byte) (b : Byte) (out : List Packet) :
    scanBit o n ⟨.group done (byteBits o b), out⟩ true = some ⟨.ones 1, out ++ [done ++ [b]]⟩ := by
  simp [scanBit, byteOf_byteBits]

/-! ### The receiver and the position -/

/-- Outside the byte groups a receiver in phase counts 1 bits, at least as many as the preamble has had. -/
theorem ones_of_follows {o : BitOrder} {e : Encoder} {φ : ScanPhase} (h : ScanPhase.Follows o e φ)
    (hdata : e.sub ≠ .data) (hchk : e.sub ≠ .checksum) :
    ∃ c, φ = .ones c ∧ (e.sub = .preamble → e.pre ≤ c) := by
  cases φ with
  | ones c =>
    refine ⟨c, rfl, fun hs => ?_⟩
    rcases h with hi | ⟨-, hle⟩ | ⟨he, -⟩
    · cases hs.symm.trans hi
    · exact hle
    · cases hs.symm.trans he
  | group done bits =>
    obtain ⟨hsub, -⟩ := h
    exact absurd hsub (not_or.2 ⟨hdata, hchk⟩)

/-- In a byte group a receiver in phase holds the bytes before this one and the bits of this one so far. -/
theorem group_of_follows {o : BitOrder} {e : Encoder} {φ : ScanPhase} (h : ScanPhase.Follows o e φ)
    (hsub : e.sub = .data ∨ e.sub = .checksum) :
    ∃ b, e.pkt[e.byteIdx]? = some b ∧ φ = .group (e.pkt.take e.byteIdx) ((byteBits o b).take e.bitPos) := by
  cases φ with
  | ones c =>
    rcases hsub with hs | hs <;> simp [ScanPhase.Follows, hs] at h
  | group done bits =>
    obtain ⟨-, rfl, b, hb, rfl⟩ := h
    exact ⟨b, hb, rfl⟩

/-- The packets sent when the position has moved from `e` to `e'`: the packet in flight is one of them once its
packet-end bit starts. -/
def sentAfter (sent : List Packet) (e e' : Encoder) : List Packet :=
  if e'.sub = .ending ∧ e.sub ≠ .ending then sent ++ [e.pkt] else sent

/-- Bit `b` takes a receiver that stands at `φ` to where position `e'` is, and its output grows as the position moves
from `e` to `e'`. -/
def ReadsTo (o : BitOrder) (n : Nat) (e e' : Encoder) (φ : ScanPhase) (b : Bit) : Prop :=
  ∀ out, ∃ φ', scanBit o n ⟨φ, out⟩ b = some ⟨φ', sentAfter out e e'⟩ ∧ ScanPhase.Follows o e' φ'

/-- A bit that the receiver reads without an output, where no packet-end bit starts. -/
theorem readsTo_of_silent {o : BitOrder} {n : Nat} {e e' : Encoder} {φ φ' : ScanPhase} {b : Bit}
    (hread : ∀ out, scanBit o n ⟨φ, out⟩ b = some ⟨φ', out⟩) (hend : e'.sub ≠ .ending)
    (hφ' : ScanPhase.Follows o e' φ') : ReadsTo o n e e' φ b :=
  fun out => ⟨φ', by rw [hread, sentAfter, if_neg fun hc => hend hc.1], hφ'⟩

/-- From an idle or a packet-end bit: a preamble bit or an idle bit, another 1 to the receiver. -/
theorem readsTo_fetchPacket {p : BlockParams} {T U : TrackUnit} {n : Nat} {φ : ScanPhase} {b : Bit}
    (hasks : T.enc.sub = .idle ∨ T.enc.sub = .ending) (hφ : ScanPhase.Follows p.bitOrder T.enc φ)
    (hb : curBit p.bitOrder (fetchPacket p U).enc = some b) :
    ReadsTo p.bitOrder n T.enc (fetchPacket p U).enc φ b := by
  obtain ⟨c, rfl, -⟩ := ones_of_follows hφ (by rcases hasks with hs | hs <;> simp [hs])
    (by rcases hasks with hs | hs <;> simp [hs])
  rcases fetchPacket_cases p U with ⟨q, -, -, heq⟩ | ⟨-, heq⟩ <;> rw [heq] at hb ⊢
  · cases hb
    exact readsTo_of_silent (scanBit_one _ n c) (by simp) (.inr (.inl ⟨rfl, Nat.le_add_left 1 c⟩))
  · cases hb
    exact readsTo_of_silent (scanBit_one _ n c) (by simp) (.inl rfl)

/-- From a preamble bit: the next one, or the 0 bit that starts the packet, which the receiver takes as such since it
has counted the whole preamble. -/
theorem readsTo_nextFromPreamble {p : BlockParams} {T : TrackUnit} {φ : ScanPhase} {b : Bit}
    (hs : T.enc.sub = .preamble) (hpkt : T.enc.pkt ≠ []) (hφ : ScanPhase.Follows p.bitOrder T.enc φ)
    (hb : curBit p.bitOrder (nextFromPreamble T).enc = some b) :
    ReadsTo p.bitOrder T.cfg.preamble T.enc (nextFromPreamble T).enc φ b := by
  obtain ⟨c, rfl, hpre⟩ := ones_of_follows hφ (by simp [hs]) (by simp [hs])
  have hle := hpre hs
  rcases Nat.lt_or_ge T.enc.pre T.cfg.preamble with hlt | hge
  · rw [nextFromPreamble_of_lt hlt] at hb ⊢
    obtain rfl := Option.some_inj.1 ((curBit_preamble hs).symm.trans hb)
    exact readsTo_of_silent (scanBit_one _ _ c) (by simp [hs]) (.inr (.inl ⟨hs, Nat.succ_le_succ hle⟩))
  · rw [nextFromPreamble_of_le hge] at hb ⊢
    cases hb
    have hbyte := List.getElem?_eq_getElem (List.length_pos_of_ne_nil hpkt)
    exact readsTo_of_silent (scanBit_start _ (hge.trans hle)) (by simp) ⟨.inl rfl, rfl, _, hbyte, rfl⟩

/-- From a bit of a byte group: the next bit of the byte, the separator, or the packet-end bit, with which the receiver
has read the whole packet. -/
theorem readsTo_nextFromGroup {p : BlockParams} {T : TrackUnit} {n : Nat} {φ : ScanPhase} {b : Bit}
    (hs : T.enc.sub = .data ∨ T.enc.sub = .checksum) (hφ : ScanPhase.Follows p.bitOrder T.enc φ)
    (hb : curBit p.bitOrder (nextFromGroup T).enc = some b) :
    ReadsTo p.bitOrder n T.enc (nextFromGroup T).enc φ b := by
  have hnotEnd {u : Sub} (hu : u = .data ∨ u = .checksum) : u ≠ .ending := by rcases hu with rfl | rfl <;> simp
  obtain ⟨x, hx, rfl⟩ := group_of_follows hφ hs
  rcases Nat.lt_or_ge T.enc.bitPos 8 with hlt | h8
  · rw [nextFromGroup_bit hlt] at hb ⊢
    obtain rfl := Option.some_inj.1 ((curBit_bit hs hx hlt).symm.trans hb)
    exact readsTo_of_silent (scanBit_byte _ n _ x hlt) (hnotEnd hs) ⟨hs, rfl, x, hx, rfl⟩
  · have hbits : (byteBits p.bitOrder x).take T.enc.bitPos = byteBits p.bitOrder x := List.take_of_length_le h8
    have hdone : T.enc.pkt.take T.enc.byteIdx ++ [x] = T.enc.pkt.take (T.enc.byteIdx + 1) := by
      rw [List.take_add_one, hx]
      rfl
    rw [hbits]
    rcases Nat.lt_or_ge (T.enc.byteIdx + 1) T.enc.pkt.length with hmore | hlast
    · rw [nextFromGroup_separator h8 hmore] at hb ⊢
      have hs' := ite_eq_or_eq (T.enc.byteIdx + 2 = T.enc.pkt.length) Sub.checksum Sub.data |>.symm
      obtain rfl := Option.some_inj.1 ((curBit_separator hs' rfl).symm.trans hb)
      exact readsTo_of_silent (scanBit_separator _ n _ x) (hnotEnd hs')
        ⟨hs', hdone, _, List.getElem?_eq_getElem hmore, rfl⟩
    · have hall : T.enc.pkt.take (T.enc.byteIdx + 1) = T.enc.pkt := List.take_of_length_le hlast
      rw [nextFromGroup_end h8 hlast] at hb ⊢
      cases hb
      refine fun out => ⟨.ones 1, ?_, .inr (.inr ⟨rfl, rfl⟩)⟩
      rw [scanBit_end, hdone, hall, sentAfter, if_pos ⟨rfl, hnotEnd hs⟩]

/-- The bit the encoder moves to takes a receiver from where the position is to where the next position is. -/
theorem readsTo_nextBit {p : BlockParams} {T : TrackUnit} {φ : ScanPhase} {b : Bit} (h : EncoderInv p T)
    (hφ : ScanPhase.Follows p.bitOrder T.enc φ) (hb : curBit p.bitOrder (nextBit p T).enc = some b) :
    ReadsTo p.bitOrder T.cfg.preamble T.enc (nextBit p T).enc φ b := by
  have hasks (hs : T.enc.sub = .idle ∨ T.enc.sub = .ending) :
      ReadsTo p.bitOrder T.cfg.preamble T.enc (nextBit p T).enc φ b := by
    obtain ⟨q, heq⟩ := nextBit_asks (p := p) hs
    rw [heq] at hb ⊢
    exact readsTo_fetchPacket hs hφ hb
  have hgroup (hs : T.enc.sub = .data ∨ T.enc.sub = .checksum) :
      ReadsTo p.bitOrder T.cfg.preamble T.enc (nextBit p T).enc φ b := by
    rw [nextBit_group hs] at hb ⊢
    exact readsTo_nextFromGroup hs hφ hb
  rcases hs : T.enc.sub
  case idle => exact hasks (.inl hs)
  case preamble =>
    rw [nextBit_preamble hs] at hb ⊢
    exact readsTo_nextFromPreamble hs (ne_nil_of_valid (h.pkt_valid (by simp [hs]))) hφ hb
  case data => exact hgroup (.inl hs)
  case checksum => exact hgroup (.inr hs)
  case ending => exact hasks (.inr hs)

/-! ### The halves of the trace -/

/-- Halves after a trace of whole bits add their bits to its bits. -/
theorem bitsOf_append (d : Rat) : ∀ {xs : List Half} {bits : List Bit}, xs.length % 2 = 0 → bitsOf d xs = some bits →
    ∀ ys, bitsOf d (xs ++ ys) = (bitsOf d ys).map (bits ++ ·)
  | [], bits, _, h, ys => by
    cases h
    simp
  | [_], _, hlen, _, _ => by simp at hlen
  | h1 :: h2 :: xs, bits, hlen, h, ys => by
    have hlen' : xs.length % 2 = 0 := by
      rw [List.length_cons, List.length_cons] at hlen
      omega
    rw [bitsOf] at h
    split at h
    next hpair =>
      obtain ⟨rest, hrest, rfl⟩ := Option.map_eq_some_iff.1 h
      rw [List.cons_append, List.cons_append, bitsOf, if_pos hpair, bitsOf_append d hlen' hrest, Option.map_map]
      rfl
    next => cases h

/-- A receiver that has read the trace of a unit, its last bit finished, and stands where the position is. -/
def HasRead (p : BlockParams) (T : TrackUnit) (σ : Scan) : Prop :=
  ∃ bits, bitsOf p.halfOne (finishedWire T) = some bits ∧
    scanBits p.bitOrder T.cfg.preamble .start bits = some σ ∧ ScanPhase.Follows p.bitOrder T.enc σ.phase

theorem traceInv_iff {p : BlockParams} {T : TrackUnit} : TraceInv p T ↔ wireParity T ∧ ∃ σ, HasRead p T σ :=
  and_congr_right fun _ => exists_comm

theorem HasRead.packetsOnWire {p : BlockParams} {T : TrackUnit} {σ : Scan} (h : HasRead p T σ) :
    packetsOnWire p T = some σ.out := by
  obtain ⟨bits, hbits, hscan, -⟩ := h
  rw [Safety.packetsOnWire, hbits, Option.bind_some, framesOf, hscan, Option.map_some]

theorem finishedWire_of_first {T : TrackUnit} (h : T.enc.half = .first) :
    finishedWire T = T.wire ++ [⟨.low, T.compare⟩] := by
  rw [finishedWire, h]

theorem finishedWire_of_second {T : TrackUnit} (h : T.enc.half = .second) : finishedWire T = T.wire := by
  rw [finishedWire, h]

/-- A whole bit after a trace of whole bits adds that bit, where the two half-periods tell bits apart. -/
theorem bitsOf_append_bit {p : BlockParams} (hp : p.halfOne < p.halfZero) {w : List Half} {bits : List Bit}
    (heven : w.length % 2 = 0) (hbits : bitsOf p.halfOne w = some bits) (b : Bit) :
    bitsOf p.halfOne (w ++ halvesOf p [b]) = some (bits ++ [b]) := by
  rw [bitsOf_append _ heven hbits, bitsOf_halvesOf hp]
  rfl

/-- The second half of a bit ends its pair, and the first half of the next starts one. -/
theorem wireParity_halfStep {p : BlockParams} {T T' : TrackUnit} (hs : HalfStep p T T') (h : wireParity T) :
    wireParity T' := by
  rcases hs.cases with ⟨hhalf, b, -, rfl⟩ | ⟨hhalf, b, -, rfl⟩ <;> rw [wireParity, hhalf] at h
  · obtain ⟨w, d, hw, heven, -⟩ := h
    change (T.wire ++ [_]).length % 2 = 0
    rw [hw, List.length_append, List.length_append, List.length_singleton, List.length_singleton]
    omega
  · refine ⟨T.wire, halfPeriod p b, ?_, h, rfl⟩
    rw [emit_wire, (nextBit_frame p (interruptEntry T)).1]
    rfl

/-- One half-transition takes a receiver of the trace to a receiver of the trace after it, whose output has grown as the
position says. In the middle of a bit it stays where it is, the half to come being at the armed duration. -/
theorem HasRead.halfStep {p : BlockParams} {T T' : TrackUnit} {σ : Scan} (h : HasRead p T σ)
    (hp : p.halfOne < p.halfZero) (henc : EncoderInv p T) (hsig : SignalInv p T) (hpar : wireParity T)
    (hs : HalfStep p T T') : ∃ φ, HasRead p T' ⟨φ, sentAfter σ.out T.enc T'.enc⟩ := by
  obtain ⟨bits, hbits, hscan, hφ⟩ := h
  have hcfg := hs.frame.cfg
  rcases hs.cases with ⟨hhalf, b, hb, rfl⟩ | ⟨hhalf, b, hb, rfl⟩
  · have hout : sentAfter σ.out T.enc { T.enc with half := .second } = σ.out := if_neg fun hc => hc.2 hc.1
    rw [finishedWire_of_first hhalf, hsig.armed b hb] at hbits
    exact ⟨σ.phase, bits, hbits, hscan.trans (by rw [emit_enc, hout]), hφ⟩
  · rw [finishedWire_of_second hhalf] at hbits
    rw [wireParity, hhalf] at hpar
    have hnew := bitsOf_append_bit hp hpar hbits b
    have hentry : EncoderInv p (interruptEntry T) := encoderInv_of_eq (T := T) rfl rfl henc
    obtain ⟨φ, hread, hφ'⟩ := readsTo_nextBit hentry hφ hb σ.out
    refine ⟨φ, bits ++ [b], ?_, ?_, hφ'⟩
    · rw [finishedWire_of_first rfl, emit_wire, (nextBit_frame p (interruptEntry T)).1, List.append_assoc]
      exact hnew
    · rw [hcfg, scanBits_append hscan, scanBits]
      exact Option.bind_eq_some_iff.2 ⟨_, hread, rfl⟩

/-! ### The invariant -/

/-- The position, the signals and the trace: what a half-transition needs to keep the trace decodable. -/
structure Traced (p : BlockParams) (T : TrackUnit) : Prop where
  encoder : EncoderInv p T
  signal  : SignalInv p T
  trace   : TraceInv p T

theorem traceInv_halfStep {p : BlockParams} {T T' : TrackUnit} (hp : p.halfOne < p.halfZero) (h : Traced p T)
    (hs : HalfStep p T T') : TraceInv p T' := by
  obtain ⟨hpar, σ, hσ⟩ := traceInv_iff.1 h.trace
  obtain ⟨φ, hφ⟩ := hσ.halfStep hp h.encoder h.signal hpar hs
  exact traceInv_iff.2 ⟨wireParity_halfStep hs hpar, _, hφ⟩

theorem traced_halfSteps {p : BlockParams} {T T' : TrackUnit} (hp : p.halfOne < p.halfZero)
    (hpre : 1 ≤ T.cfg.preamble) (hs : Relation.ReflTransGen (HalfStep p) T T') (h : Traced p T) : Traced p T' := by
  induction hs with
  | refl => exact h
  | tail hs h1 ih =>
    exact ⟨encoderInv_halfStep h1 (by rwa [(tickFrame_of_halfSteps hs).cfg]) ih.encoder,
      signalInv_halfStep h1 ih.signal, traceInv_halfStep hp ih h1⟩

/-- The trace, the position and the armed duration are the interrupt's own (60_exceptions.md R169). -/
theorem traceInv_of_hostFrame {p : BlockParams} {T T' : TrackUnit} (hf : HostFrame T T') (h : TraceInv p T) :
    TraceInv p T' := by
  have hwire : finishedWire T' = finishedWire T := by rw [finishedWire, hf.enc, hf.wire, hf.compare]; rfl
  have hpar : wireParity T' ↔ wireParity T := by rw [wireParity, hf.enc, hf.wire, hf.compare]; rfl
  rw [TraceInv, hwire, hpar, hf.cfg, hf.enc]
  exact h

theorem traced_move {p : BlockParams} {t : Track} {i : Instr} {T T' : TrackUnit} (hp : paramsOk p = true)
    (hok : unitConfigOk t T.cfg = true) (hm : UnitMove p t i T T') (h : Traced p T) : Traced p T' := by
  rcases hm.frame with ⟨-, hf⟩ | ⟨-, hs⟩
  · exact ⟨encoderInv_move hok hm h.encoder, signalInv_move hm h.signal, traceInv_of_hostFrame hf h.trace⟩
  · obtain ⟨-, hlt, -⟩ := (paramsOk_iff p).1 hp
    exact traced_halfSteps hlt (one_le_preamble hok) hs h

/-- Settles O47: every move of a unit keeps its trace in phase with its position, the half-periods being different. -/
theorem everyStepKeepsTheTraceDecodable : Obligations.EveryStepKeepsTheTraceDecodable := by
  intro s s' henc hsig htrace h
  rw [each_iff] at henc hsig htrace
  have hs : Each Traced s := each_iff.2 fun t => ⟨henc t, hsig t, htrace t⟩
  have hs' := step_keeps_each (P := Traced) traced_move h hs
  exact each_iff.2 fun t => (each_iff.1 hs' t).trace

/-- Settles O48: the receiver of the trace before the TICK, and the one the half-transition takes it to. -/
theorem theTraceDecodesToThePacketsSent : Obligations.TheTraceDecodesToThePacketsSent := by
  intro s s' t hp henc hsig htrace h
  obtain ⟨T, hT, rfl⟩ := serveTick_next_iff.1 ((exec_tick_zero t s).symm.trans h)
  obtain ⟨hpar, σ, hσ⟩ := traceInv_iff.1 htrace
  obtain ⟨φ, hφ⟩ := hσ.halfStep hp henc hsig hpar hT
  refine ⟨σ.out, hσ.packetsOnWire, ?_⟩
  rw [finished_params, finished_unit]
  exact hφ.packetsOnWire

end Sys2Proof.Machine
end

section
/-!
PROOFS. One TICK by the position it starts from (40_encoder.md R81 to R88): the half it drives, said once for the middle
of a bit and once for the end of a bit, and that it reads nothing of the supervisor (R90).
-/

namespace Sys2Proof.Machine

open Sys2Proof.Safety

/-! ### The half a TICK drives -/

/-- `emit` at the half-period of a bit, the pending tick cleared, is what a statement calls driven. -/
theorem emit_eq_driven (p : BlockParams) (T : TrackUnit) (e : Encoder) (l : Level) (b : Bit) :
    emit { interruptEntry T with enc := e } l (halfPeriod p b) = driven p T e l b := by
  have hsigB : sigBAfter T l = if T.cfg.scheme = .dualInverted then some (if l = .high then .low else .high)
      else T.pins.sigB := by
    by_cases hd : T.cfg.scheme = .dualInverted
    · rw [sigBAfter_of_dual hd, if_pos hd]
      cases l <;> rfl
    · rw [sigBAfter_of_ne hd, if_neg hd]
  rw [driven, ← hsigB]
  rfl

theorem exec_tick_of_halfStep {t : Track} {s : State} {T : TrackUnit} (h : HalfStep s.params (s.unit t) T) :
    exec (.tick t 0) s = .next { s.setUnit t T with result := none } :=
  (exec_tick_zero t s).trans (serveTick_next_iff.2 ⟨T, h, rfl⟩)

/-- At the end of a bit TICK starts the first half of the bit that `nextBit` moves to. -/
theorem exec_tick_of_nextBit {t : Track} {s : State} {U : TrackUnit} {e : Encoder} {b : Bit}
    (hon : (s.unit t).timerOn = true) (hhalf : (s.unit t).enc.half = .second)
    (hnext : nextBit s.params (interruptEntry (s.unit t)) = { interruptEntry U with enc := e })
    (hb : curBit s.params.bitOrder e = some b) :
    exec (.tick t 0) s =
      .next { s.setUnit t (driven s.params U { e with half := .first } .high b) with result := none } := by
  refine exec_tick_of_halfStep ⟨hon, (halfTransition_some_iff ..).2 (.inr ⟨hhalf, b, ?_, ?_⟩)⟩
  · rw [hnext]
    exact hb
  · rw [hnext, ← emit_eq_driven]

/-- Settles O15: the second half of the bit on the wire, whose half-period the signal invariant says is armed. -/
theorem tickInTheMiddleOfABit : Obligations.TickInTheMiddleOfABit := by
  intro s t b hon hhalf hb
  refine ⟨exec_tick_of_halfStep ⟨hon, (halfTransition_some_iff ..).2 (.inl ⟨hhalf, b, hb, ?_⟩)⟩, fun hsig => ?_⟩
  · exact (emit_eq_driven ..).symm
  · exact (hsig.armed b hb).symm

/-- Settles O16: the next position is the first preamble bit of the packet of the slot. -/
theorem tickLoadsAValidPacket : Obligations.TickLoadsAValidPacket := by
  intro s t q hon hhalf hsub hslot hv
  exact exec_tick_of_nextBit (U := { s.unit t with slot := none }) (e := preamblePos q 1) hon hhalf
    (nextBit_of_slot hhalf hsub hslot hv) rfl

/-- At the end of an idle or packet-end bit with no packet to send an idle bit is next. -/
theorem nextBit_of_noPacket {p : BlockParams} {T : TrackUnit} (hhalf : T.enc.half = .second)
    (hsub : T.enc.sub = .idle ∨ T.enc.sub = .ending)
    (hslot : ∀ q, T.slot = some q → valid p.maxPacketBytes q = false) :
    nextBit p T = { T with slot := none, enc := idlePos } := by
  obtain ⟨r, hnext⟩ := nextBit_asks (p := p) hsub
  rw [hnext]
  rcases fetchPacket_cases p { T with enc := { T.enc with pkt := r } } with ⟨q, hq, hv, -⟩ | ⟨-, hidle⟩
  · exact absurd hv (by simp [hslot q hq])
  · rw [hidle, idlePos, ← hhalf]

/-- Settles O17: the next position is idle. -/
theorem tickIdlesWithoutAValidPacket : Obligations.TickIdlesWithoutAValidPacket := by
  intro s t hon hhalf hsub hslot
  exact exec_tick_of_nextBit (U := { s.unit t with slot := none }) (e := idlePos) hon hhalf
    (nextBit_of_noPacket hhalf hsub hslot) rfl

/-- Settles O18: the two next positions from a preamble bit. -/
theorem tickInThePreamble : Obligations.TickInThePreamble := by
  intro s t hon hhalf hsub
  have hnext := nextBit_preamble (p := s.params) (T := interruptEntry (s.unit t)) hsub
  refine ⟨fun hlt => ?_, fun hle => ?_⟩
  · exact exec_tick_of_nextBit hon hhalf (hnext.trans (nextFromPreamble_of_lt hlt)) (curBit_preamble hsub)
  · exact exec_tick_of_nextBit hon hhalf (hnext.trans (nextFromPreamble_of_le hle)) rfl

/-- Settles O19: the three next positions from a bit of a byte group. -/
theorem tickInAByteGroup : Obligations.TickInAByteGroup := by
  intro s t hon hhalf hsub
  have hnext := nextBit_group (p := s.params) (T := interruptEntry (s.unit t)) hsub
  refine ⟨fun b hlt hb => ?_, fun h8 hmore => ?_, fun h8 hlast => ?_⟩
  · refine exec_tick_of_nextBit hon hhalf (hnext.trans (nextFromGroup_bit hlt))
      ((curBit_bit hsub hb hlt).trans (congrArg some ?_))
    cases s.params.bitOrder
    · exact congrArg b.getLsbD (Nat.add_sub_add_right 7 1 _)
    · rfl
  · refine exec_tick_of_nextBit hon hhalf (hnext.trans (nextFromGroup_separator h8 hmore)) (curBit_separator ?_ rfl)
    exact (ite_eq_or_eq ..).symm
  · exact exec_tick_of_nextBit hon hhalf (hnext.trans (nextFromGroup_end h8 hlast)) rfl

/-! ### What TICK does not read -/

/-- The unit with another supervisor and other levels of the two pins the supervisor drives. -/
def withSupervisor (v : Supervisor) (en : Level) (br : Option Level) (T : TrackUnit) : TrackUnit :=
  { T with sup := v, pins := { T.pins with enable := en, brake := br } }

theorem fetchPacket_withSupervisor (p : BlockParams) (v : Supervisor) (en : Level) (br : Option Level)
    (T : TrackUnit) : fetchPacket p (withSupervisor v en br T) = withSupervisor v en br (fetchPacket p T) := by
  obtain ⟨cfg, enc, slot, ring, sup, pins, compare, timerOn, pending, wire⟩ := T
  cases slot with
  | none => rfl
  | some q =>
    simp only [fetchPacket, nextPacket, withSupervisor]
    split <;> rfl

theorem nextFromPreamble_withSupervisor (v : Supervisor) (en : Level) (br : Option Level) (T : TrackUnit) :
    nextFromPreamble (withSupervisor v en br T) = withSupervisor v en br (nextFromPreamble T) := by
  unfold nextFromPreamble
  rw [apply_ite (withSupervisor v en br)]
  rfl

theorem nextFromGroup_withSupervisor (v : Supervisor) (en : Level) (br : Option Level) (T : TrackUnit) :
    nextFromGroup (withSupervisor v en br T) = withSupervisor v en br (nextFromGroup T) := by
  unfold nextFromGroup
  rw [apply_ite (withSupervisor v en br), apply_ite (withSupervisor v en br)]
  rfl

theorem nextBit_withSupervisor (p : BlockParams) (v : Supervisor) (en : Level) (br : Option Level) (T : TrackUnit) :
    nextBit p (withSupervisor v en br T) = withSupervisor v en br (nextBit p T) := by
  have henc : (withSupervisor v en br T).enc = T.enc := rfl
  unfold nextBit
  rw [henc]
  cases T.enc.sub with
  | idle => exact fetchPacket_withSupervisor p v en br T
  | preamble => exact nextFromPreamble_withSupervisor v en br T
  | data | checksum => exact nextFromGroup_withSupervisor v en br T
  | ending => exact fetchPacket_withSupervisor p v en br { T with enc := { T.enc with pkt := [] } }

/-- A half-transition goes the same way beside any supervisor (40_encoder.md R90). -/
theorem halfStep_withSupervisor {p : BlockParams} {T T' : TrackUnit} (h : HalfStep p T T') (v : Supervisor)
    (en : Level) (br : Option Level) : HalfStep p (withSupervisor v en br T) (withSupervisor v en br T') := by
  refine ⟨h.1, (halfTransition_some_iff ..).2 ?_⟩
  have hnext : nextBit p (interruptEntry (withSupervisor v en br T)) =
      withSupervisor v en br (nextBit p (interruptEntry T)) :=
    nextBit_withSupervisor p v en br (interruptEntry T)
  rcases h.cases with ⟨hhalf, b, hb, rfl⟩ | ⟨hhalf, b, hb, rfl⟩
  · exact .inl ⟨hhalf, b, hb, rfl⟩
  · refine .inr ⟨hhalf, b, ?_, ?_⟩ <;> rw [hnext]
    · exact hb
    · rfl

/-- Settles O22: a word with reserved bits changes the result alone, and a half-transition goes the same way. -/
theorem tickIsIndependentOfTheSupervisor : Obligations.TickIsIndependentOfTheSupervisor := by
  intro s s' t rsv v en br h
  rcases execTick_next h with ⟨hrsv, rfl⟩ | ⟨rfl, h⟩
  · rw [unit_withResult]
    refine (if_pos hrsv).trans (congrArg Host.Outcome.next ?_)
    cases t <;> rfl
  · obtain ⟨T, hT, rfl⟩ := serveTick_next_iff.1 h
    rw [exec_tick_zero]
    refine serveTick_next_iff.2 ⟨withSupervisor v en br T, ?_, ?_⟩
    · rw [setUnit_params, unit_setUnit_same]
      exact halfStep_withSupervisor hT v en br
    · rw [finished_unit]
      cases t <;> rfl

end Sys2Proof.Machine
end

section
/-!
PROOFS. What the operations of the power supervisor leave unchanged (42_supervisor.md; 60_exceptions.md R169): the moves
of a unit they make change the supervisor and its two pins only, and each of these only by its own operations.
-/

namespace Sys2Proof.Machine

open Sys2Proof.Safety

/-- The operations of the power supervisor on track `t` (42_supervisor.md). -/
def IsSupervisorOperation (t : Track) (i : Instr) : Prop :=
  (∃ rsv now raw, i = .check t rsv now raw) ∨ (∃ rsv, i = .pwron t rsv) ∨ (∃ rsv, i = .pwroff t rsv) ∨
    (∃ rsv, i = .brkon t rsv) ∨ (∃ rsv, i = .brkoff t rsv) ∨ (∃ rsv, i = .qpwr t rsv) ∨ (∃ rsv, i = .qtrip t rsv) ∨
    ∃ rsv, i = .qcur t rsv

theorem IsSupervisorOperation.facts {t : Track} {i : Instr} (h : IsSupervisorOperation t i) :
    instrTrack i = some t ∧ instrContext i = .nonInterrupt := by
  rcases h with ⟨rsv, now, raw, rfl⟩ | ⟨rsv, rfl⟩ | ⟨rsv, rfl⟩ | ⟨rsv, rfl⟩ | ⟨rsv, rfl⟩ | ⟨rsv, rfl⟩ | ⟨rsv, rfl⟩ |
    ⟨rsv, rfl⟩ <;> exact ⟨rfl, rfl⟩

theorem UnitMove.supervisor_frame {p : BlockParams} {t : Track} {i : Instr} {T T' : TrackUnit} (h : UnitMove p t i T T')
    (hi : IsSupervisorOperation t i) :
    T' = { T with sup := T'.sup, pins := { T.pins with enable := T'.pins.enable, brake := T'.pins.brake } } := by
  cases h with
  | same | poweredOn | poweredOff | brakedOn | brakedOff => rfl
  | polled now raw =>
    obtain ⟨-, -, hbrake⟩ := checkUnit_requests now raw T
    rw [hbrake]
    exact checkUnit_frame now raw T
  | sent q hf =>
    obtain ⟨-, hctx⟩ := hi.facts
    exact nomatch (frameInstr_context hf).symm.trans hctx
  | ticked | refilled | appended | replaced | cancelled => simp [IsSupervisorOperation] at hi

/-- All but CHECK leave the trip and the readings. -/
theorem UnitMove.sup_of_not_check {p : BlockParams} {t : Track} {i : Instr} {T T' : TrackUnit}
    (h : UnitMove p t i T T') (hi : ∀ rsv now raw, i ≠ .check t rsv now raw) :
    T'.sup = { T.sup with powerReq := T'.sup.powerReq, brakeReq := T'.sup.brakeReq } := by
  rcases h.supervisor with hf | ⟨now, raw, hc, -⟩ | ⟨-, rfl⟩ | ⟨-, rfl⟩ | ⟨-, ⟨-, rfl⟩ | ⟨-, rfl⟩⟩
  · rw [hf.sup]
  · exact absurd hc (hi 0 now raw)
  all_goals rfl

/-- The brake pin is driven by the brake operations only. -/
theorem UnitMove.brake_pin {p : BlockParams} {t : Track} {i : Instr} {T T' : TrackUnit} (h : UnitMove p t i T T')
    (hon : i ≠ .brkon t 0) (hoff : i ≠ .brkoff t 0) : T'.pins.brake = T.pins.brake := by
  rcases h.supervisor with hf | ⟨now, raw, -, -, rfl⟩ | ⟨-, rfl⟩ | ⟨-, rfl⟩ | ⟨-, ⟨hc, -⟩ | ⟨hc, -⟩⟩
  · exact hf.brake
  · exact (checkUnit_requests now raw T).2.2
  · rfl
  · rfl
  · exact absurd hc hon
  · exact absurd hc hoff

/-- The enable pin is driven by CHECK and the power operations only. -/
theorem UnitMove.enable_pin {p : BlockParams} {t : Track} {i : Instr} {T T' : TrackUnit} (h : UnitMove p t i T T')
    (hcheck : ∀ now raw, i ≠ .check t 0 now raw) (hon : i ≠ .pwron t 0) (hoff : i ≠ .pwroff t 0) :
    T'.pins.enable = T.pins.enable := by
  rcases h.supervisor with hf | ⟨now, raw, hc, -⟩ | ⟨hc, -⟩ | ⟨hc, -⟩ | ⟨-, ⟨-, rfl⟩ | ⟨-, rfl⟩⟩
  · exact hf.enable
  · exact absurd hc (hcheck now raw)
  · exact absurd hc hon
  · exact absurd hc hoff
  · rfl
  · rfl

theorem instrTime_of_not_check {t : Track} {i : Instr} (ht : instrTrack i = some t)
    (hi : ∀ rsv now raw, i ≠ .check t rsv now raw) : instrTime i = none := by
  refine Option.eq_none_iff_forall_ne_some.2 fun n hn => ?_
  obtain ⟨u, raw, rfl⟩ := instrTime_eq_some_iff.1 hn
  cases ht
  exact hi 0 n raw rfl

/-- Settles O43: the frame of an operation on one track, and what each move leaves of the supervisor and its pins. -/
theorem supervisorOperationsLeaveTheRestUnchanged : Obligations.SupervisorOperationsLeaveTheRestUnchanged := by
  intro s s' t i h hi
  obtain ⟨htrack, -⟩ := IsSupervisorOperation.facts hi
  have hm := (exec_unitMove h).2 t
  have hf := exec_frame htrack h
  refine ⟨?_, ?_, ?_, exec_unit_other h htrack, hm.supervisor_frame hi, fun hcheck => ⟨?_, hm.sup_of_not_check hcheck⟩,
    fun hon hoff => ⟨?_, hm.brake_pin (hon 0) (hoff 0)⟩, fun hon hoff => ?_, fun hquery => ?_⟩
  · rw [hf, finished_params, timedBy_params]
  · rw [hf, finished_schedule]
    rfl
  · rw [hf, finished_issued]
    rfl
  · rw [hf, finished_clock, timedBy_of_none (instrTime_of_not_check htrack hcheck)]
  · exact hm.brakeReq.resolve_right fun hc => hc.elim (fun hc => hon 0 hc.1) fun hc => hoff 0 hc.1
  · exact hm.powerReq.resolve_right fun hc => hc.elim (fun hc => hon 0 hc.1) fun hc => hoff 0 hc.1
  · obtain ⟨rsv, rfl | rfl | rfl | rfl | rfl⟩ := hquery <;> exact hm.enable_pin (by simp) (by simp) (by simp)

end Sys2Proof.Machine
end

section
/-!
PROOFS. The packet queue (41_queue.md): how ENQ, CANCEL and SERVICE end, case by case, and what the queue hands over in
a run of hand-offs. A hand-off takes the head of the ring and leaves its re-appended entry at the tail
(`handOffs_succ_of_cons`); the two statements about runs are inductions over it.
-/

namespace Sys2Proof.Machine

open Sys2Proof.Safety

/-! ### What is re-appended -/

theorem reappend_of_last {e : Entry} (hp : e.periodic = false) (hr : e.repeats = 1) : reappend e = [] := by
  simp [reappend, hp, hr]

theorem reappend_of_owing {e : Entry} {k : Nat} (hp : e.periodic = false) (hr : e.repeats = k + 2) :
    reappend e = [{ e with repeats := k + 1 }] := by
  simp [reappend, hp, hr]

/-! ### Runs of hand-offs -/

/-- One hand-off gives the oldest entry's packet; the rest of the run starts from the ring with what is still owed at
its tail (41_queue.md R108). -/
theorem handOffs_succ_of_cons {T U : TrackUnit} {e : Entry} {rest : List Entry} {n : Nat} {taken : List (Option Packet)}
    (hs : T.slot = none) (hr : T.ring = e :: rest)
    (hrun : handOffs n { T with ring := rest ++ reappend e } = (taken, U)) :
    handOffs (n + 1) T = (some e.pkt :: taken, U) := by
  have hfst : (nextPacket (refill T)).1 = some e.pkt := by rw [nextPacket_fst, refill_cons hs hr]
  have hsnd : (nextPacket (refill T)).2 = { T with ring := rest ++ reappend e } := by
    rw [nextPacket_snd, refill_cons hs hr, ← hs]
  rw [handOffs, hfst, hsnd, hrun]

/-- An empty queue hands over nothing, however often it is asked. -/
theorem handOffs_of_empty {T : TrackUnit} (n : Nat) (hs : T.slot = none) (hr : T.ring = []) :
    handOffs n T = (List.replicate n none, T) := by
  induction n with
  | zero => rfl
  | succ n ih =>
    have hfst : (nextPacket (refill T)).1 = none := by rw [nextPacket_fst, refill_empty hr, hs]
    have hsnd : (nextPacket (refill T)).2 = T := by rw [nextPacket_snd, refill_empty hr, ← hs]
    rw [handOffs, hfst, hsnd, ih, List.replicate_succ]

/-- The entries at the front of the ring are handed over in order, and what they still owe stands behind the others in
the same order. -/
theorem handOffs_front (front back : List Entry) {T : TrackUnit} (hs : T.slot = none) (hr : T.ring = front ++ back) :
    handOffs front.length T =
      (front.map fun e => some e.pkt, { T with ring := back ++ front.flatMap reappend }) := by
  induction front generalizing T back with
  | nil =>
    rw [List.flatMap_nil, List.append_nil, ← List.nil_append back, ← hr]
    rfl
  | cons e front ih =>
    have hrun := ih (T := { T with ring := front ++ back ++ reappend e }) (back ++ reappend e) hs
      (List.append_assoc ..)
    rw [List.length_cons, List.map_cons, List.flatMap_cons, ← List.append_assoc]
    exact handOffs_succ_of_cons hs hr hrun

/-- A one-shot alone in the ring is handed over until its last transmission is made; then the queue is empty. -/
theorem handOffs_of_oneShot (k n : Nat) {T : TrackUnit} {e : Entry} (hs : T.slot = none) (hr : T.ring = [e])
    (hp : e.periodic = false) (howes : e.repeats = k + 1) :
    handOffs (k + 1 + n) T =
      (List.replicate (k + 1) (some e.pkt) ++ List.replicate n none, { T with ring := [] }) := by
  induction k generalizing T e with
  | zero =>
    rw [Nat.add_right_comm, Nat.zero_add]
    refine handOffs_succ_of_cons hs hr ?_
    rw [reappend_of_last hp howes]
    exact handOffs_of_empty n hs rfl
  | succ k ih =>
    rw [Nat.add_right_comm]
    refine handOffs_succ_of_cons hs hr ?_
    rw [reappend_of_owing hp howes]
    exact ih (T := { T with ring := _ }) (e := { e with repeats := k + 1 }) hs rfl hp rfl

/-- Settles O32: a one-shot that owes at least one transmission owes the successor of some number. -/
theorem aOneShotIsHandedOverAsOftenAsItOwes : Obligations.AOneShotIsHandedOverAsOftenAsItOwes := by
  intro T e n hs hr hp howes
  obtain ⟨k, hk⟩ := Nat.exists_eq_add_of_le' howes
  rw [hk]
  exact handOffs_of_oneShot k n hs hr hp hk

/-- Settles O33: the front of the ring is the whole ring. -/
theorem theRingIsServedRoundRobin : Obligations.TheRingIsServedRoundRobin :=
  fun T hs => handOffs_front T.ring [] hs (List.append_nil _).symm

/-! ### SERVICE -/

theorem exec_service (t : Track) (s : State) :
    exec (.service t 0) s = .next { s.setUnit t (refill (s.unit t)) with result := none } := rfl

theorem exec_service_of_refill_self {t : Track} {s : State} (h : refill (s.unit t) = s.unit t) :
    exec (.service t 0) s = .next { s with result := none } := by
  rw [exec_service, h, setUnit_unit]

/-- Settles O29: SERVICE ends in the refilled unit, and the refill has these three cases. -/
theorem serviceHandsOverTheOldestEntry : Obligations.ServiceHandsOverTheOldestEntry := by
  refine fun s t => ⟨fun q hq => exec_service_of_refill_self (refill_full hq),
    fun hr => exec_service_of_refill_self (refill_empty hr), fun e rest hs hr => ?_, fun o => ⟨rfl, rfl⟩⟩
  rw [exec_service, refill_cons hs hr]
  rfl

/-! ### CANCEL -/

theorem exec_cancel_of_reserved {t : Track} {rsv : BitVec 3} {tag : Byte} {s : State} (h : rsv ≠ 0) :
    exec (.cancel t rsv tag) s = .next { s with result := some (.rejected .badOperand) } :=
  if_pos h

theorem exec_cancel_of_found {t : Track} {tag : Byte} {s : State} (h : tagInRing tag (s.unit t).ring = true) :
    exec (.cancel t 0 tag) s =
      .next { s.setUnit t { s.unit t with ring := removeTag tag (s.unit t).ring } with result := some .success } :=
  if_pos h

theorem exec_cancel_of_not_found {t : Track} {tag : Byte} {s : State} (h : tagInRing tag (s.unit t).ring = false) :
    exec (.cancel t 0 tag) s = .next { s with result := some (.rejected .notFound) } :=
  if_neg (ne_true_of_eq_false h)

/-- A ring split at a periodic entry of the tag holds the tag. -/
theorem tagInRing_of_split {tag : Byte} {ring before after : List Entry} {x : Entry} (hr : ring = before ++ x :: after)
    (hx : IsPeriodicOf tag x) : tagInRing tag ring = true :=
  (tagInRing_iff tag ring).2 ⟨x, by simp [hr], hx⟩

/-- Settles O28: the ring holds the tag, and loses its entry, or it does not. -/
theorem cancelRemovesThePeriodicEntry : Obligations.CancelRemovesThePeriodicEntry := by
  refine fun s t tag => ⟨fun before x after hr hx hb => ?_, fun hnone => ?_, fun rsv => exec_cancel_of_reserved,
    fun o => ⟨rfl, rfl⟩⟩
  · rw [exec_cancel_of_found (tagInRing_of_split hr hx), hr, removeTag_split hx hb]
  · exact exec_cancel_of_not_found ((tagInRing_eq_false tag _).2 hnone)

/-! ### The checks of ENQ -/

theorem checkEnq_of_reserved (q : BlockParams) {rsv : BitVec 3} {f : EnqFlags} (p : Packet)
    (h : rsv ≠ 0 ∨ f.rsv ≠ 0) : checkEnq q rsv f p = some .badOperand :=
  if_pos h

/-- An illegal pair of class and repeat count is rejected like the reserved bits, whatever these are. -/
theorem checkEnq_of_illegal_class (q : BlockParams) (rsv : BitVec 3) {f : EnqFlags} (p : Packet)
    (h : (f.periodic = false ∧ f.repeats = 0) ∨ (f.periodic = true ∧ f.repeats ≠ 0)) :
    checkEnq q rsv f p = some .badOperand := by
  unfold checkEnq
  rw [if_pos h, ite_self]

/-- With legal operands the packet decides, by its length and then by its last byte. -/
theorem checkEnq_of_legal {q : BlockParams} {rsv : BitVec 3} {f : EnqFlags} (p : Packet)
    (h : enqOperandsLegal q rsv f) :
    checkEnq q rsv f p =
      if p.length < minPacketBytes then some .tooShort
      else if q.maxPacketBytes < p.length then some .tooLong
      else if p.getLast? ≠ some (checksum p.dropLast) then some .badChecksum
      else none := by
  obtain ⟨hrsv, hfrsv, hclass, hmax⟩ := h
  have hreserved : ¬ (rsv ≠ 0 ∨ f.rsv ≠ 0) := by simp [hrsv, hfrsv]
  have hcount : ¬ ((f.periodic = false ∧ f.repeats = 0) ∨ (f.periodic = true ∧ f.repeats ≠ 0)) := by
    simp [← hclass]
  have hrange : ¬ (f.periodic = false ∧ q.maxRepeat < f.repeats) := fun hover =>
    absurd (hmax hover.1) (Nat.not_le.2 hover.2)
  rw [checkEnq, if_neg hreserved, if_neg hcount, if_neg hrange]

/-! ### ENQ -/

theorem exec_enq_of_check_fails {t : Track} {rsv : BitVec 3} {f : EnqFlags} {tag : Byte} {p : Packet} {s : State}
    {r : Reason} (h : checkEnq s.params rsv f p = some r) :
    exec (.enq t rsv f tag p) s = .next { s with result := some (.rejected r) } := by
  rw [exec, execEnq, h]
  rfl

section
variable {t : Track} {rsv : BitVec 3} {f : EnqFlags} {tag : Byte} {p : Packet} {s : State}
  (hcheck : checkEnq s.params rsv f p = none)

include hcheck

/-- A periodic ENQ whose tag is in the ring replaces the entry, at capacity too (41_queue.md R103). -/
theorem exec_enq_of_replaces (hper : f.periodic = true) (hold : tagInRing tag (s.unit t).ring = true) :
    exec (.enq t rsv f tag p) s =
      .next { s.setUnit t (acceptEntry (removeTag tag (s.unit t).ring) (entryOf f tag p) (s.unit t)) with
        result := some .success } := by
  rw [exec, execEnq, hcheck]
  exact if_pos (by rw [hper, hold]; rfl)

/-- Without an entry to replace, an ENQ that passes its checks is decided by the room in the ring. -/
theorem exec_enq_of_new (hnew : f.periodic = true → tagInRing tag (s.unit t).ring = false) :
    exec (.enq t rsv f tag p) s =
      if (s.unit t).cfg.cap ≤ (s.unit t).ring.length then .next { s with result := some (.rejected .queueFull) }
      else .next { s.setUnit t (acceptEntry (s.unit t).ring (entryOf f tag p) (s.unit t)) with
        result := some .success } := by
  rw [exec, execEnq, hcheck]
  refine if_neg fun h => ?_
  obtain ⟨hper, hold⟩ := Bool.and_eq_true_iff.1 h
  exact absurd hold (ne_true_of_eq_false (hnew hper))

end

/-- Settles O26: each rejection is the first check that fails, or a full ring after all of them. -/
theorem enqRejectsInItsOrder : Obligations.EnqRejectsInItsOrder := by
  refine fun s t rsv f tag p => ⟨fun h => exec_enq_of_check_fails (checkEnq_of_reserved _ p h),
    fun h => exec_enq_of_check_fails (checkEnq_of_illegal_class _ rsv p h),
    fun hlegal => ⟨fun hshort => ?_, fun hmin hlong => ?_, fun hmin hmax hsum => ?_, fun hvalid hfull hnone => ?_⟩⟩
  · exact exec_enq_of_check_fails ((checkEnq_of_legal p hlegal).trans (if_pos hshort))
  · refine exec_enq_of_check_fails ?_
    rw [checkEnq_of_legal p hlegal, if_neg (Nat.not_lt.2 hmin), if_pos hlong]
  · refine exec_enq_of_check_fails ?_
    rw [checkEnq_of_legal p hlegal, if_neg (Nat.not_lt.2 hmin), if_neg (Nat.not_lt.2 hmax), if_pos hsum]
  · have hcheck := (checkEnq_none_iff s.params rsv f p).2 ⟨hlegal, hvalid⟩
    exact (exec_enq_of_new hcheck fun hper => (tagInRing_eq_false tag _).2 (hnone hper)).trans (if_pos hfull)

/-- Settles O27: the checks pass, and the tag of a periodic entry is in the ring or is not. -/
theorem enqAppendsOrReplacesAndRefills : Obligations.EnqAppendsOrReplacesAndRefills := by
  intro s t rsv f tag p hlegal hvalid
  have hcheck := (checkEnq_none_iff s.params rsv f p).2 ⟨hlegal, hvalid⟩
  refine ⟨fun hnone hroom => ?_, fun before x after hper hr hx hb => ?_⟩
  · exact (exec_enq_of_new hcheck fun hper => (tagInRing_eq_false tag _).2 (hnone hper)).trans
      (if_neg (Nat.not_le.2 hroom))
  · rw [exec_enq_of_replaces hcheck hper (tagInRing_of_split hr hx), hr, removeTag_split hx hb]
    rfl

end Sys2Proof.Machine
end

section
/-!
PROOFS. The power supervisor (42_supervisor.md): smoothing, the enable pin, and CHECK. CHECK is a sample (`sampled`),
then a trip (`Trips`), or else the retry; `checkUnit_of_trips` and `checkUnit_of_not_trips` say so, and the statements
about CHECK and the two invariants of its readings and times are read off them.
-/

namespace Sys2Proof.Machine

open Sys2Proof.Safety

/-! ### Smoothing (42_supervisor.md R122) -/

theorem smooth_eq (alpha r : Rat) (raw : Nat) : smooth alpha r raw = raw * alpha + r * (1 - alpha) := rfl

/-- The new reading is a weighted mean: what is below the old reading and the sample is below it. -/
theorem le_smooth {alpha r m : Rat} {raw : Nat} (h0 : 0 ≤ alpha) (h1 : alpha ≤ 1) (hr : m ≤ r) (hraw : m ≤ raw) :
    m ≤ smooth alpha r raw :=
  calc m = m * alpha + m * (1 - alpha) := by ring
    _ ≤ raw * alpha + r * (1 - alpha) :=
      add_le_add (mul_le_mul_of_nonneg_right hraw h0) (mul_le_mul_of_nonneg_right hr (sub_nonneg.2 h1))

theorem smooth_le {alpha r m : Rat} {raw : Nat} (h0 : 0 ≤ alpha) (h1 : alpha ≤ 1) (hr : r ≤ m)
    (hraw : (raw : Rat) ≤ m) : smooth alpha r raw ≤ m :=
  calc raw * alpha + r * (1 - alpha) ≤ m * alpha + m * (1 - alpha) :=
        add_le_add (mul_le_mul_of_nonneg_right hraw h0) (mul_le_mul_of_nonneg_right hr (sub_nonneg.2 h1))
    _ = m := by ring

/-- A lawful answer of the converter is at most the greatest reading (42_supervisor.md R124). -/
theorem cast_le_maxReading {raw adcBits : Nat} (h : raw < 2 ^ adcBits) : (raw : Rat) ≤ 2 ^ adcBits - 1 :=
  le_sub_iff_add_le.2 (by exact_mod_cast h)

theorem smooth_in_range {alpha r : Rat} {raw adcBits : Nat} (h0 : 0 ≤ alpha) (h1 : alpha ≤ 1) (hr0 : 0 ≤ r)
    (hr1 : r ≤ 2 ^ adcBits - 1) (hraw : raw < 2 ^ adcBits) :
    0 ≤ smooth alpha r raw ∧ smooth alpha r raw ≤ 2 ^ adcBits - 1 :=
  ⟨le_smooth h0 h1 hr0 raw.cast_nonneg, smooth_le h0 h1 hr1 (cast_le_maxReading hraw)⟩

/-- A reading that has settled on a value stays there. -/
theorem smooth_settled (alpha : Rat) (raw : Nat) : smooth alpha raw raw = raw := by
  rw [smooth_eq]; ring

/-- One sample shrinks the distance to the sampled value by the factor `1 - ALPHA`. -/
theorem sub_smooth (alpha r : Rat) (raw : Nat) : raw - smooth alpha r raw = (raw - r) * (1 - alpha) := by
  rw [smooth_eq]; ring

theorem smoothAll_replicate (alpha r0 : Rat) (raw k : Nat) :
    smoothAll alpha r0 (List.replicate k raw) = (raw : Rat) - ((raw : Rat) - r0) * (1 - alpha) ^ k := by
  induction k generalizing r0 with
  | zero => simp [smoothAll]
  | succ k ih => rw [List.replicate_succ, smoothAll, ih, sub_smooth, mul_assoc, ← pow_succ']

/-- Settles O36: the new reading is a weighted mean, and the distance to equal samples is a geometric sequence. -/
theorem smoothingHasItsClosedForm : Obligations.SmoothingHasItsClosedForm := by
  refine ⟨fun alpha r raw => ⟨smooth_eq alpha r raw, ?_⟩, fun alpha r raw adcBits h0 h1 => ⟨?_, ?_, ?_⟩,
    smoothAll_replicate⟩
  · rintro rfl
    rw [smooth_eq]
    ring
  · exact le_smooth h0.le h1 (min_le_left _ _) (min_le_right _ _)
  · exact smooth_le h0.le h1 (le_max_left _ _) (le_max_right _ _)
  · exact smooth_in_range h0.le h1

/-! ### The enable pin (42_supervisor.md R137) -/

theorem tripped_eq_decide (v : Supervisor) : v.tripped = decide (v.trip ≠ none) := by
  cases h : v.trip <;> simp [Supervisor.tripped, h]

theorem enableLevel_of_tripped {v : Supervisor} {since : Nat} (h : v.trip = some since) : enableLevel v = .low := by
  simp [enableLevel, Supervisor.tripped, h]

theorem enableLevel_of_untripped {v : Supervisor} (h : v.trip = none) :
    enableLevel v = if v.powerReq = true then .high else .low := by
  simp [enableLevel, Supervisor.tripped, h]

theorem enableLevel_of_off {v : Supervisor} (h : v.powerReq = false) : enableLevel v = .low := by
  simp [enableLevel, h]

theorem enableLevel_of_on {v : Supervisor} (h : v.powerReq = true) :
    enableLevel v = if v.trip = none then .high else .low := by
  cases htrip : v.trip with
  | none => rw [enableLevel_of_untripped htrip, if_pos h, if_pos rfl]
  | some since => rw [enableLevel_of_tripped htrip, if_neg (Option.some_ne_none since)]

theorem enable_low_of_tripped {p : BlockParams} {T : TrackUnit} {since : Nat} (h : PowerInv p T)
    (ht : T.sup.trip = some since) : T.pins.enable = .low :=
  Eq.trans h (enableLevel_of_tripped ht)

theorem enterTripped_eq (n : Nat) (T : TrackUnit) :
    enterTripped n T =
      { T with sup := { T.sup with trip := some n }, pins := { T.pins with enable := .low } } := by
  rw [enterTripped, driveEnable, enableLevel_of_tripped rfl]

theorem leaveTripped_eq (T : TrackUnit) :
    leaveTripped T =
      { T with
        sup := { T.sup with trip := none }
        pins := { T.pins with enable := if T.sup.powerReq = true then .high else .low } } := by
  rw [leaveTripped, driveEnable, enableLevel_of_untripped rfl]

theorem setPower_true_eq (T : TrackUnit) :
    setPower true T =
      { T with
        sup := { T.sup with powerReq := true }
        pins := { T.pins with enable := if T.sup.trip = none then .high else .low } } := by
  rw [setPower, driveEnable, enableLevel_of_on rfl]

theorem setPower_false_eq (T : TrackUnit) :
    setPower false T =
      { T with sup := { T.sup with powerReq := false }, pins := { T.pins with enable := .low } } := by
  rw [setPower, driveEnable, enableLevel_of_off rfl]

/-! ### CHECK on a track unit -/

/-- The unit after the sample of a CHECK, where one is due (42_supervisor.md R121, R122, R126). -/
def sampled (n raw : Nat) (T : TrackUnit) : TrackUnit :=
  { T with
    sup := { T.sup with
      reading := if T.cfg.sampleInterval ≤ n - T.sup.lastSampleTime then smooth T.cfg.alpha T.sup.reading raw
        else T.sup.reading
      lastSampleTime := if T.cfg.sampleInterval ≤ n - T.sup.lastSampleTime then n else T.sup.lastSampleTime } }

/-- The CHECK samples, finds the output enabled and the new current over the threshold (42_supervisor.md R127). -/
def Trips (n raw : Nat) (T : TrackUnit) : Prop :=
  T.cfg.sampleInterval ≤ n - T.sup.lastSampleTime ∧ T.pins.enable = .high ∧ T.cfg.tripMA < milliamps (sampled n raw T)

theorem sampled_of_due {n raw : Nat} {T : TrackUnit} (h : T.cfg.sampleInterval ≤ n - T.sup.lastSampleTime) :
    sampled n raw T = takeSample n raw T := by
  simp only [sampled, if_pos h, takeSample]

theorem sampled_of_not_due {n raw : Nat} {T : TrackUnit} (h : ¬ T.cfg.sampleInterval ≤ n - T.sup.lastSampleTime) :
    sampled n raw T = T := by
  simp only [sampled, if_neg h]

@[simp] theorem sampled_trip (n raw : Nat) (T : TrackUnit) : (sampled n raw T).sup.trip = T.sup.trip := rfl

/-- The trip test of the model, of a unit that has taken its sample. -/
theorem trips_iff_overcurrent {n raw : Nat} {T : TrackUnit} (h : T.cfg.sampleInterval ≤ n - T.sup.lastSampleTime) :
    Trips n raw T ↔ overcurrent (takeSample n raw T) = true := by
  rw [Trips, sampled_of_due h, overcurrent, Bool.and_eq_true, decide_eq_true_eq, decide_eq_true_eq]
  exact and_iff_right h

theorem samplePart_of_trips {n raw : Nat} {T : TrackUnit} (h : Trips n raw T) :
    samplePart n raw T = enterTripped n (sampled n raw T) := by
  have hdue := h.1
  rw [trips_iff_overcurrent hdue] at h
  rw [sampled_of_due hdue]
  rcases samplePart_cases n raw T with ⟨hnot, -⟩ | ⟨-, hover, -⟩ | ⟨-, -, heq⟩
  · exact absurd hdue hnot
  · rw [hover] at h
    cases h
  · exact heq

theorem samplePart_of_not_trips {n raw : Nat} {T : TrackUnit} (h : ¬ Trips n raw T) :
    samplePart n raw T = sampled n raw T := by
  rcases samplePart_cases n raw T with ⟨hnot, heq⟩ | ⟨hdue, -, heq⟩ | ⟨hdue, hover, -⟩
  · rw [heq, sampled_of_not_due hnot]
  · rw [heq, sampled_of_due hdue]
  · exact absurd ((trips_iff_overcurrent hdue).2 hover) h

theorem retryPart_of_untripped {n : Nat} {T : TrackUnit} (h : T.sup.trip = none) : retryPart n T = T := by
  simp [retryPart, h]

theorem retryPart_of_waiting {n since : Nat} {T : TrackUnit} (h : T.sup.trip = some since)
    (hwait : n - since ≤ T.cfg.retryInterval) : retryPart n T = T := by
  simp [retryPart, retryDue, h, hwait.not_gt]

theorem retryPart_of_elapsed {n since : Nat} {T : TrackUnit} (h : T.sup.trip = some since)
    (hover : T.cfg.retryInterval < n - since) : retryPart n T = leaveTripped T := by
  simp [retryPart, retryDue, h, hover]

/-- A unit that trips is not retried by the same CHECK: no time has passed since the trip (42_supervisor.md R129). -/
theorem checkUnit_of_trips {n raw : Nat} {T : TrackUnit} (h : Trips n raw T) :
    checkUnit n raw T = enterTripped n (sampled n raw T) := by
  rw [checkUnit, samplePart_of_trips h]
  exact retryPart_of_waiting (since := n) rfl (by simp)

theorem checkUnit_of_not_trips {n raw : Nat} {T : TrackUnit} (h : ¬ Trips n raw T) :
    checkUnit n raw T = retryPart n (sampled n raw T) := by
  rw [checkUnit, samplePart_of_not_trips h]

/-- A unit whose output is off does not trip (42_supervisor.md R127). -/
theorem not_trips_of_low {n raw : Nat} {T : TrackUnit} (h : T.pins.enable = .low) : ¬ Trips n raw T := by
  rintro ⟨-, hhigh, -⟩
  rw [h] at hhigh
  cases hhigh

/-- A tripped unit stays as it is or is retried: its output is off (42_supervisor.md R126, R128). -/
theorem checkUnit_of_tripped {p : BlockParams} {n raw since : Nat} {T : TrackUnit} (h : PowerInv p T)
    (ht : T.sup.trip = some since) :
    checkUnit n raw T =
      if T.cfg.retryInterval < n - since then leaveTripped (sampled n raw T) else sampled n raw T := by
  rw [checkUnit_of_not_trips (not_trips_of_low (enable_low_of_tripped h ht))]
  split
  · exact retryPart_of_elapsed ht ‹_›
  · exact retryPart_of_waiting ht (Nat.not_lt.1 ‹_›)

/-- The trip and the retry leave the sample (42_supervisor.md R126). -/
theorem checkUnit_samples (n raw : Nat) (T : TrackUnit) :
    (checkUnit n raw T).sup.reading = (sampled n raw T).sup.reading ∧
      (checkUnit n raw T).sup.lastSampleTime = (sampled n raw T).sup.lastSampleTime := by
  by_cases h : Trips n raw T
  · rw [checkUnit_of_trips h]
    exact ⟨rfl, rfl⟩
  · rw [checkUnit_of_not_trips h]
    rcases retryPart_cases n (sampled n raw T) with ⟨-, heq⟩ | ⟨-, heq⟩ <;> rw [heq] <;> exact ⟨rfl, rfl⟩

/-- After a CHECK at time `n` a unit is tripped since `n` or since it was before. -/
theorem checkUnit_trip_since {n raw m : Nat} {T : TrackUnit} (h : (checkUnit n raw T).sup.trip = some m) :
    m = n ∨ T.sup.trip = some m := by
  by_cases htrips : Trips n raw T
  · rw [checkUnit_of_trips htrips] at h
    exact .inl (Option.some.inj h).symm
  · rw [checkUnit_of_not_trips htrips] at h
    rcases retryPart_cases n (sampled n raw T) with ⟨-, heq⟩ | ⟨-, heq⟩ <;> rw [heq] at h
    · cases h
    · exact .inr h

theorem checkUnit_trip_iff {n raw : Nat} {T : TrackUnit} (h : T.sup.trip = none) :
    (checkUnit n raw T).sup.trip = some n ↔ Trips n raw T := by
  refine ⟨fun htrip => ?_, fun htrips => by rw [checkUnit_of_trips htrips]; rfl⟩
  by_contra hnot
  rw [checkUnit_of_not_trips hnot, retryPart_of_untripped (T := sampled n raw T) h, sampled_trip, h] at htrip
  cases htrip

/-- The trip test solved for the current of the sample (42_supervisor.md R139). -/
theorem lt_smooth_mul_iff {alpha reading scale bound : Rat} {raw : Nat} (h : 0 < alpha) :
    bound < smooth alpha reading raw * scale ↔ (bound - (1 - alpha) * reading * scale) / alpha < raw * scale := by
  have hcurrent : smooth alpha reading raw * scale = raw * scale * alpha + (1 - alpha) * reading * scale := by
    rw [smooth_eq]; ring
  rw [div_lt_iff₀ h, sub_lt_iff_lt_add, hcurrent]

/-- Settles O37: a due sample on an enabled unit leaves the trip test alone to decide, and that is solved for the
sample. -/
theorem aSpikeTripsOnlyAboveItsBound : Obligations.ASpikeTripsOnlyAboveItsBound := by
  intro T n raw halpha _ hdue hhigh hnone
  have hbound : (checkUnit n raw T).sup.trip = some n ↔
      (T.cfg.tripMA - (1 - T.cfg.alpha) * T.sup.reading * T.cfg.scale) / T.cfg.alpha < (raw : Rat) * T.cfg.scale := by
    rw [checkUnit_trip_iff hnone, Trips, and_iff_right hdue, and_iff_right hhigh, sampled_of_due hdue]
    exact lt_smooth_mul_iff halpha
  refine ⟨hbound, fun hzero => ?_⟩
  rwa [hzero, mul_zero, zero_mul, sub_zero] at hbound

/-! ### CHECK -/

/-- A lawful CHECK ends in the unit it makes, at the time it was answered. -/
theorem exec_check_of_lawful {s : State} {t : Track} {n raw : Nat} {T : TrackUnit} (hraw : raw < 2 ^ s.params.adcBits)
    (hnow : s.clock ≤ n) (hT : checkUnit n raw (s.unit t) = T) :
    exec (.check t 0 n raw) s = .next { s.setUnit t T with clock := n, result := none } := by
  rw [exec, execCheck_of_lawful hraw hnow, hT]
  cases t <;> rfl

/-- Settles O34: trip and not; where the unit does not trip, the retry finds it untripped, waiting or due. -/
theorem checkSamplesTripsAndRetries : Obligations.CheckSamplesTripsAndRetries := by
  intro s t n raw hraw hnow v c due reading last trips ends
  refine ⟨fun h => ?_, fun h hnone => ?_, fun since h hsince hwait => ?_, fun since h hsince hover => ?_⟩ <;>
    apply exec_check_of_lawful hraw hnow
  · exact (checkUnit_of_trips h).trans (enterTripped_eq n _)
  · exact (checkUnit_of_not_trips h).trans (retryPart_of_untripped hnone)
  · exact (checkUnit_of_not_trips h).trans (retryPart_of_waiting hsince hwait)
  · rw [checkUnit_of_not_trips h, retryPart_of_elapsed (T := sampled n raw (s.unit t)) hsince hover, leaveTripped_eq]
    rfl

/-- Settles O38: an enabled unit with a settled reading over the threshold trips; a tripped one waits or is retried. -/
theorem tripAndRetryLaws : Obligations.TripAndRetryLaws := by
  intro s t now raw hraw hnow hpower
  have hexec := execCheck_of_lawful (t := t) hraw hnow
  refine ⟨fun hdue hhigh hsettled hover => ⟨_, hexec, ?_⟩, fun since hsince helapsed => ⟨_, hexec, ?_⟩,
    fun since s' hsince h => ?_⟩
  · have hreading : (sampled now raw (s.unit t)).sup.reading = raw := by
      rw [sampled_of_due hdue, takeSample, hsettled, smooth_settled]
    have htrips : Trips now raw (s.unit t) := ⟨hdue, hhigh, by rwa [milliamps, hreading]⟩
    rw [finished_unit, checkUnit_of_trips htrips, enterTripped_eq]
    exact ⟨rfl, hreading, rfl⟩
  · rw [finished_unit, checkUnit_of_tripped hpower hsince, if_pos helapsed, leaveTripped_eq]
    refine ⟨rfl, ?_⟩
    change (if (s.unit t).sup.powerReq = true then Level.high else .low) = .high ↔ _
    split <;> simp [*]
  · rw [← Host.Outcome.next.inj (hexec.symm.trans h), finished_unit, checkUnit_of_tripped hpower hsince]
    split
    · exact .inr ⟨rfl, ‹_›⟩
    · exact .inl hsince

/-! ### The invariants of the reading and the times -/

theorem readingInv_checkUnit {p : BlockParams} {n raw : Nat} {T : TrackUnit} (h0 : 0 ≤ T.cfg.alpha)
    (h1 : T.cfg.alpha ≤ 1) (hraw : raw < 2 ^ p.adcBits) (h : ReadingInv p T) : ReadingInv p (checkUnit n raw T) := by
  rw [ReadingInv, (checkUnit_samples n raw T).1]
  by_cases hdue : T.cfg.sampleInterval ≤ n - T.sup.lastSampleTime
  · rw [sampled_of_due hdue]
    exact smooth_in_range h0 h1 h.1 h.2 hraw
  · rw [sampled_of_not_due hdue]
    exact h

theorem readingInv_move {p : BlockParams} {t : Track} {i : Instr} {T T' : TrackUnit} (hok : unitConfigOk t T.cfg = true)
    (hm : UnitMove p t i T T') (h : ReadingInv p T) : ReadingInv p T' := by
  rcases hm.supervisor with hf | ⟨now, raw, -, hraw, rfl⟩ | ⟨-, rfl⟩ | ⟨-, rfl⟩ | ⟨-, ⟨-, rfl⟩ | ⟨-, rfl⟩⟩
  · rw [ReadingInv, hf.sup]
    exact h
  · obtain ⟨-, -, -, -, h0, h1, -⟩ := (unitConfigOk_iff t T.cfg).1 hok
    exact readingInv_checkUnit h0.le h1 hraw h
  all_goals exact h

/-- The times a unit remembers are not after `n`: `ClockInv` of one unit and the time its clock has reached. -/
def TimesWithin (n : Nat) (T : TrackUnit) : Prop :=
  T.sup.lastSampleTime ≤ n ∧ ∀ m, T.sup.trip = some m → m ≤ n

theorem clockInv_iff {s : State} : ClockInv s ↔ ∀ t, TimesWithin s.clock (s.unit t) := .rfl

theorem TimesWithin.mono {m n : Nat} {T : TrackUnit} (h : TimesWithin m T) (hmn : m ≤ n) : TimesWithin n T :=
  ⟨h.1.trans hmn, fun k hk => (h.2 k hk).trans hmn⟩

theorem timesWithin_checkUnit {n : Nat} {T : TrackUnit} (raw : Nat) (h : TimesWithin n T) :
    TimesWithin n (checkUnit n raw T) := by
  refine ⟨?_, fun m hm => ?_⟩
  · rw [(checkUnit_samples n raw T).2]
    by_cases hdue : T.cfg.sampleInterval ≤ n - T.sup.lastSampleTime
    · rw [sampled_of_due hdue]
      exact le_rfl
    · rw [sampled_of_not_due hdue]
      exact h.1
  · rcases checkUnit_trip_since hm with rfl | hsince
    · exact le_rfl
    · exact h.2 m hsince

theorem exec_check_clock {t : Track} {now raw : Nat} {s s' : State} (h : exec (.check t 0 now raw) s = .next s') :
    s'.clock = now := by
  rcases execCheck_next h with ⟨hne, -⟩ | ⟨-, -, -, rfl⟩
  · exact absurd rfl hne
  · rfl

theorem exec_keeps_clockInv {i : Instr} {s s' : State} (h : exec i s = .next s') (hs : ClockInv s) : ClockInv s' := by
  refine clockInv_iff.2 fun t => ?_
  have htimes : TimesWithin s'.clock (s.unit t) := (clockInv_iff.1 hs t).mono (exec_clock_le h)
  generalize hT : s'.unit t = T'
  have hm := (exec_unitMove h).2 t
  rw [hT] at hm
  rcases hm.supervisor with hf | ⟨now, raw, rfl, -, rfl⟩ | ⟨-, rfl⟩ | ⟨-, rfl⟩ | ⟨-, ⟨-, rfl⟩ | ⟨-, rfl⟩⟩
  · rw [TimesWithin, hf.sup]
    exact htimes
  · rw [exec_check_clock h] at htimes ⊢
    exact timesWithin_checkUnit raw htimes
  all_goals exact htimes

/-- Every step performs one operation, from a state with the same units and the same clock. -/
theorem step_exec {s s' : State} (h : step s = .next s') :
    ∃ i u, u.main = s.main ∧ u.prog = s.prog ∧ u.clock = s.clock ∧ exec i u = .next s' := by
  obtain ⟨-, ⟨t, -, ht⟩ | ⟨-, i, rest, -, he⟩ | ⟨-, i, rest, -, -, he⟩⟩ := step_next h
  · exact ⟨.tick t 0, s, rfl, rfl, rfl, (exec_tick_zero t s).trans ht⟩
  · exact ⟨i, { s with issued := rest }, rfl, rfl, rfl, he⟩
  · exact ⟨i, { s with schedule := rest }, rfl, rfl, rfl, he⟩

theorem clockInv_of_eq {s u : State} (hmain : u.main = s.main) (hprog : u.prog = s.prog) (hclock : u.clock = s.clock)
    (h : ClockInv s) : ClockInv u := by
  intro t
  rw [hclock]
  cases t
  · rw [unit_main, hmain]
    exact h .main
  · rw [unit_prog, hprog]
    exact h .prog

/-- Settles O45: every move of a unit keeps the reading in its range, and the operation a step performs keeps the times
within the clock. -/
theorem everyStepKeepsTheReadingAndTheClock : Obligations.EveryStepKeepsTheReadingAndTheClock := by
  intro s s' h
  obtain ⟨i, u, hmain, hprog, hclock, hexec⟩ := step_exec h
  exact ⟨step_keeps_each (P := ReadingInv) (fun _ hok hm => readingInv_move hok hm) h,
    fun hs => exec_keeps_clockInv hexec (clockInv_of_eq hmain hprog hclock hs), hclock ▸ exec_clock_le hexec⟩

/-! ### The operations of the host -/

/-- Settles O39: PWRON drives the enable pin, which stays low while the unit is tripped. -/
theorem pwronAsksForPower : Obligations.PwronAsksForPower := by
  refine fun s t => ⟨?_, fun _ hrsv => if_pos hrsv, fun o => ⟨rfl, rfl⟩⟩
  rw [← setPower_true_eq]
  rfl

/-- Settles O40: PWROFF drives the enable pin low. -/
theorem pwroffRemovesPower : Obligations.PwroffRemovesPower := by
  refine fun s t => ⟨?_, fun _ hrsv => if_pos hrsv, fun o => ⟨rfl, rfl⟩⟩
  rw [← setPower_false_eq]
  rfl

/-- Settles O41: after the test of the reserved bits the scheme decides. -/
theorem brakeOperationsDriveTheBrakePin : Obligations.BrakeOperationsDriveTheBrakePin :=
  fun _ _ => ⟨fun hscheme => ⟨if_neg (not_not.2 hscheme), if_neg (not_not.2 hscheme)⟩,
    fun hscheme => ⟨if_pos hscheme, if_pos hscheme⟩, fun _ hrsv => ⟨if_pos hrsv, if_pos hrsv⟩,
    fun _ => ⟨rfl, rfl, rfl, rfl⟩⟩

theorem exec_qpwr (t : Track) (s : State) :
    exec (.qpwr t 0) s = .next { s with result := some (.answer (decide ((s.unit t).pins.enable = .high))) } := rfl

/-- QPWR reports the level that the enable invariant gives the pin (42_supervisor.md R134). -/
theorem exec_qpwr_of_powerInv {s : State} {t : Track} (h : PowerInv s.params (s.unit t)) :
    exec (.qpwr t 0) s = .next { s with
      result := some (.answer ((s.unit t).sup.powerReq && !(s.unit t).sup.tripped)) } := by
  rw [exec_qpwr, h]
  cases (s.unit t).sup.powerReq <;> cases (s.unit t).sup.tripped <;> rfl

theorem exec_qtrip (t : Track) (s : State) :
    exec (.qtrip t 0) s = .next { s with result := some (.answer (decide ((s.unit t).sup.trip ≠ none))) } := by
  rw [← tripped_eq_decide]
  rfl

/-- Settles O42: each query reads one field, and the enable pin has the level of the enable invariant. -/
theorem statusQueriesOnlyAnswer : Obligations.StatusQueriesOnlyAnswer := by
  refine fun s t => ⟨exec_qpwr t s, exec_qtrip t s, rfl, fun hpower => ⟨fun hoff => ?_, fun huntripped hreq => ?_⟩,
    fun rsv hrsv => ⟨if_pos hrsv, if_pos hrsv, if_pos hrsv⟩, fun o => ⟨rfl, rfl, rfl, rfl, rfl, rfl⟩⟩
  · rw [exec_qpwr_of_powerInv hpower]
    rcases hoff with htripped | hreq
    · rw [htripped, Bool.not_true, Bool.and_false]
    · rw [hreq, Bool.false_and]
  · rw [exec_qpwr_of_powerInv hpower, huntripped, hreq]
    rfl

end Sys2Proof.Machine
end

section
/-!
PROOFS. The armed duration of a frame (70_reset_and_hazards.md R198): a run of bits takes two half-periods for each bit,
so the duration of a frame follows from how many of its bits are 0 and how many are 1.
-/

namespace Sys2Proof.Machine

theorem armedTotal_cons (h : Half) (hs : List Half) : armedTotal (h :: hs) = h.duration + armedTotal hs :=
  List.sum_cons

theorem armedTotal_halvesOf (p : BlockParams) (bits : List Bit) :
    armedTotal (halvesOf p bits) = bits.count true * (2 * p.halfOne) + bits.count false * (2 * p.halfZero) := by
  induction bits with
  | nil => simp [armedTotal]
  | cons b bits ih =>
    rw [halvesOf_cons, armedTotal_cons, armedTotal_cons, ih]
    cases b <;> simp [halfPeriod] <;> ring

/-- The 0 bits of the groups are the separators, one before each byte, and the 0 bits of the bytes. -/
theorem count_false_groupBits (o : BitOrder) (q : Packet) :
    (groupBits o q).count false = q.length + (q.flatMap (byteBits o)).count false := by
  induction q with
  | nil => rfl
  | cons b q ih =>
    rw [groupBits_cons, List.cons_append, List.count_cons_self, List.count_append, ih, List.flatMap_cons,
      List.count_append, List.length_cons]
    omega

/-- The preamble and the packet-end bit hold no 0 bit. -/
theorem count_false_frame (o : BitOrder) (n : Nat) (q : Packet) :
    (frame o n q).count false = q.length + (q.flatMap (byteBits o)).count false := by
  simp [frame, framePattern, List.count_replicate, count_false_groupBits]

/-- The bits of a frame that are not 0 are 1. -/
theorem count_true_frame (o : BitOrder) (n : Nat) (q : Packet) :
    (frame o n q).count true + (q.flatMap (byteBits o)).count false = n + 1 + 8 * q.length := by
  have hall := List.count_true_add_count_false (frame o n q)
  rw [length_frame, count_false_frame] at hall
  omega

/-- Settles O12: the duration by the counts of 1 bits and 0 bits, and those counts in a frame. -/
theorem armedDurationOfAFrame : Obligations.ArmedDurationOfAFrame := by
  rintro p n z q rfl
  have hones : ((frame p.bitOrder n q).count true : Rat) + (q.flatMap (byteBits p.bitOrder)).count false =
      n + 1 + 8 * q.length := by
    exact_mod_cast count_true_frame p.bitOrder n q
  rw [armedTotal_halvesOf, count_false_frame, Nat.cast_add, eq_sub_of_add_eq hones]

end Sys2Proof.Machine
end

section
/-!
PROOFS. Which operation a step runs (20_memory.md R44; 60_exceptions.md R158, R160 b): a pending tick, and with none
pending the operation fetched; the compare match that makes a tick pending, and the TICK that clears it.
-/

namespace Sys2Proof.Machine

/-! ### The operation a step runs -/

theorem pendingTick_of_main {s : State} (hm : s.main.pending = true) : pendingTick s = some .main :=
  if_pos hm

theorem pendingTick_of_prog {s : State} (hm : s.main.pending = false) (hp : s.prog.pending = true) :
    pendingTick s = some .prog := by
  simp [pendingTick, hm, hp]

theorem pendingTick_of_none {s : State} (hm : s.main.pending = false) (hp : s.prog.pending = false) :
    pendingTick s = none := by
  simp [pendingTick, hm, hp]

theorem fetchOperation_of_issued {s : State} {i : Instr} {rest : List Instr} (h : s.issued = i :: rest) :
    fetchOperation s = .ok (i, { s with issued := rest }) := by
  simp [fetchOperation, h]

theorem fetchOperation_of_decoded {s : State} {i : Instr} {rest : List Byte} (hissued : s.issued = [])
    (hd : decodeStep s.params.adcBits s.schedule = .ok (i, rest)) :
    fetchOperation s = .ok (i, { s with schedule := rest }) := by
  simp [fetchOperation, hissued, hd]

theorem step_of_not_configOk {s : State} (h : s.configOk = false) : step s = .refused .badConfiguration :=
  if_neg (ne_true_of_eq_false h)

theorem step_of_pendingTick {s : State} {t : Track} (hok : s.configOk = true) (ht : pendingTick s = some t) :
    step s = exec (.tick t 0) s := by
  simp only [step, hok, ht, if_true, exec_tick_zero]

theorem step_of_fetchOperation {s s' : State} {i : Instr} (hok : s.configOk = true) (ht : pendingTick s = none)
    (hf : fetchOperation s = .ok (i, s')) : step s = exec i s' := by
  simp only [step, hok, ht, hf, if_true]

/-- Settles O5: the pending ticks, the issued operations and the schedule, in the order in which a step looks at
them. -/
theorem stepRunsTheDecodedOperation : Obligations.StepRunsTheDecodedOperation := by
  refine fun s => ⟨step_of_not_configOk, fun hok => ⟨fun hm => step_of_pendingTick hok (pendingTick_of_main hm),
    fun hm hp => step_of_pendingTick hok (pendingTick_of_prog hm hp), fun hm hp => ?_⟩⟩
  have hnone := pendingTick_of_none hm hp
  refine ⟨fun i rest hissued => step_of_fetchOperation hok hnone (fetchOperation_of_issued hissued),
    fun hissued i rest hd => step_of_fetchOperation hok hnone (fetchOperation_of_decoded hissued hd),
    fun hissued hempty => ?_⟩
  have hended : decodeStep s.params.adcBits s.schedule = .error .ended := by rw [hempty, decodeStep]
  exact step_of_decodeStep_error hok hm hp hissued hended

/-! ### The compare match and its tick -/

theorem compareMatch_of_free {t : Track} {s : State} (hon : (s.unit t).timerOn = true)
    (hfree : (s.unit t).pending = false) :
    compareMatch t s = .next (s.setUnit t { s.unit t with pending := true }) := by
  simp [compareMatch, hon, hfree]

theorem compareMatch_of_unserved {t : Track} {s : State} (hon : (s.unit t).timerOn = true)
    (hpending : (s.unit t).pending = true) : compareMatch t s = .refused .matchUnserved := by
  simp [compareMatch, hon, hpending]

theorem configOk_setPending (s : State) (t : Track) (b : Bool) :
    (s.setUnit t { s.unit t with pending := b }).configOk = s.configOk := by
  cases t <;> rfl

/-- The tick of a match is served next, where the other track has none pending. -/
theorem pendingTick_setPending {s : State} (t : Track) (hm : s.main.pending = false) :
    pendingTick (s.setUnit t { s.unit t with pending := true }) = some t := by
  cases t
  · exact pendingTick_of_main rfl
  · exact pendingTick_of_prog hm rfl

theorem nextBit_pending (p : BlockParams) (T : TrackUnit) : (nextBit p T).pending = T.pending := by
  rw [(nextBit_frame p T).1]

/-- A half-transition clears the pending tick at its start, and nothing in it sets one (60_exceptions.md R158). -/
theorem HalfStep.pending {p : BlockParams} {T T' : TrackUnit} (h : HalfStep p T T') : T'.pending = false := by
  rcases h.cases with ⟨-, b, -, rfl⟩ | ⟨-, b, -, rfl⟩
  · rfl
  · exact nextBit_pending p (interruptEntry T)

/-- Settles O6: the match leaves its tick the one to be served next, and the half-transition of a TICK clears it. -/
theorem aCompareMatchIsServedByOneTick : Obligations.ACompareMatchIsServedByOneTick := by
  intro s t hok hon hm hp
  have hfree : (s.unit t).pending = false := by cases t; exacts [hm, hp]
  have hstep := step_of_pendingTick ((configOk_setPending s t true).trans hok) (pendingTick_setPending t hm)
  refine ⟨compareMatch_of_free hon hfree, compareMatch_of_unserved (by simpa using hon) (by simp), hstep,
    fun s' hs' => ?_⟩
  rw [hstep, exec_tick_zero] at hs'
  obtain ⟨T, hT, rfl⟩ := serveTick_next_iff.1 hs'
  simp [hT.pending]

end Sys2Proof.Machine
end

section
/-!
PROOFS. The FRAME rows and the ENQs that stop or are rejected by the model's own choice (30_encoding.md R63, R67;
41_queue.md R100): a frame that the encoder does not send next, and a repeat count over `MAX_REPEAT`.
-/

namespace Sys2Proof.Machine

/-! ### A frame that is not next -/

theorem transmit_of_timerOff {t : Track} {s : State} (q : Packet) (hoff : (s.unit t).timerOn = false) :
    transmit t q s = .refused .timerOff :=
  if_pos hoff

theorem transmit_of_not_next {t : Track} {s : State} {q : Packet} (hon : (s.unit t).timerOn = true)
    (hnext : sendsNext s.params q (s.unit t) ≠ true) : transmit t q s = .refused .frameNotNext := by
  rw [transmit, if_neg (ne_false_of_eq_true hon), if_neg hnext]

/-- Settles O25: a FRAME row transmits, and each of the four premises denies one condition of `sendsNext`. -/
theorem aFrameRowStopsWhereItsFrameIsNotNext : Obligations.AFrameRowStopsWhereItsFrameIsNotNext := by
  intro s t q i hi
  rw [exec_frameInstr hi]
  refine ⟨transmit_of_timerOff q, fun hon hstop => transmit_of_not_next hon fun hnext => ?_⟩
  obtain ⟨hhalf, hsub, hslot, hvalid⟩ := (sendsNext_iff ..).1 hnext
  rcases hstop with hfirst | ⟨hidle, hending⟩ | hother | hinvalid
  · exact nomatch hfirst.symm.trans hhalf
  · exact hsub.elim hidle hending
  · exact hother hslot
  · exact nomatch hinvalid.symm.trans hvalid

/-! ### A repeat count over its maximum -/

/-- A one-shot count over `MAX_REPEAT` is rejected like the other bad counts, whatever else is wrong with the ENQ. -/
theorem checkEnq_of_over_maxRepeat {q : BlockParams} (rsv : BitVec 3) {f : EnqFlags} (p : Packet)
    (hper : f.periodic = false) (hover : q.maxRepeat < f.repeats) : checkEnq q rsv f p = some .badOperand := by
  unfold checkEnq
  rw [if_pos (show f.periodic = false ∧ q.maxRepeat < f.repeats from ⟨hper, hover⟩), ite_self, ite_self]

/-- Settles O59: the check of the count, and for a decoded ENQ the well-formedness of what decodes. -/
theorem aRepeatCountOverItsMaximumIsRejected : Obligations.ARepeatCountOverItsMaximumIsRejected := by
  refine ⟨fun s t rsv f tag p hper hover => exec_enq_of_check_fails (checkEnq_of_over_maxRepeat rsv p hper hover),
    fun adcBits bytes rest t rsv f tag p hd => ?_⟩
  obtain ⟨hwell, -⟩ :=
    whatDecodesIsTheEncoding { BlockParams.vectors with adcBits := adcBits } .msbFirst bytes rest _ hd
  obtain ⟨hcount, -⟩ : f.repeats ≤ 15 ∧ p.length ≤ 255 := by simpa [wellFormed] using hwell
  exact hcount

end Sys2Proof.Machine
end
